-- ==== Sys2Proof/Word.lean ====
section
/-! DEFINITION. Bytes, the three colour channels and colours (spec/00_scope.md R5, R8). -/

namespace Sys2Proof

/-- A byte, 0..255 (00_scope.md R8). Bit 0 is the least significant (R7). -/
abbrev Byte := BitVec 8

/-- The three channel names of a pixel (00_scope.md R5). -/
inductive Channel where
  | r
  | g
  | b
  deriving DecidableEq, Repr

/-- A colour: a triple of bytes in the order R, G, B (00_scope.md R8). Also the form of the other
three-byte register families D, S and E. -/
structure Colour where
  r : Byte
  g : Byte
  b : Byte
  deriving DecidableEq, Repr, Inhabited

/-- The channel of a colour, `X_c` in the notation of 00_scope.md R8. -/
def Colour.channel (x : Colour) : Channel → Byte
  | .r => x.r
  | .g => x.g
  | .b => x.b

/-- All channels 0 (41_run_modes.md R100). -/
def Colour.black : Colour := ⟨0, 0, 0⟩

end Sys2Proof
end

