-- ==== Sys2Proof/Config.lean ====
section
/-! DEFINITION. The parameters of one instance of the hardware (spec/00_scope.md R6, 10_state.md R34)
and the values the spec leaves free. -/

namespace Sys2Proof

/-- The instance constants of 00_scope.md R6 that change what a step does. They are plain data in
`State`, so a claim about every state is a claim about every instance (log 1). -/
structure Config where
  /-- `PAL_SIZE`: number of palette entries, 1..256. -/
  palSize : Nat
  /-- `CUR_W`: width in bits of CURSOR and PLEN, at least 4. -/
  curW : Nat
  /-- `NPIX_W`: width in bits of NPIX, at least 1. -/
  npixW : Nat
  /-- `STEP_W`: width in bits of the ADVANCE operand, at least 1. -/
  stepW : Nat
  /-- `PULSE_SEL` as a table of 64 bits: bit `L` says whether a mode-`11` control byte with length
  field `L` is PULSE (true) or END (false). -/
  pulseSel : BitVec 64
  deriving DecidableEq, Repr

/-- `CNT_W = max(NPIX_W, STEP_W)` (00_scope.md R6). -/
def Config.cntW (c : Config) : Nat := max c.npixW c.stepW

/-- The legal values column of the table of 00_scope.md R6. -/
def Config.legal (c : Config) : Bool :=
  decide (1 ≤ c.palSize) && decide (c.palSize ≤ 256) && decide (4 ≤ c.curW) &&
    decide (1 ≤ c.npixW) && decide (1 ≤ c.stepW)

/-- The default column of the table of 00_scope.md R6: `PULSE_SEL(L) = (L[5] = 0)`, that is true
exactly for L = 0..31. -/
def Config.default : Config :=
  { palSize := 256, curW := 16, npixW := 16, stepW := 16, pulseSel := 0x00000000FFFFFFFF#64 }

/-- `WIRE_ORDER`: a permutation of the three channel names (44_serializer.md R136). Named by the
order in which the channels go out. -/
inductive WireOrder where
  | rgb
  | rbg
  | grb
  | gbr
  | brg
  | bgr
  deriving DecidableEq, Repr, Inhabited

/-- The permutation `(w0, w1, w2)` of 44_serializer.md R136. -/
def WireOrder.channels : WireOrder → List Channel
  | .rgb => [.r, .g, .b]
  | .rbg => [.r, .b, .g]
  | .grb => [.g, .r, .b]
  | .gbr => [.g, .b, .r]
  | .brg => [.b, .r, .g]
  | .bgr => [.b, .g, .r]

/-- The wire order of this instance. The spec gives no default (00_scope.md R6, D16): an open
parameter, of which nothing can be proved but what holds for all six orders (log 2). -/
opaque Config.wireOrder : WireOrder

/-- The value the status interface returns for CUR where the spec leaves it unspecified: the draw
`n` of 10_state.md R33 and 93_implementation_defined.md U8, "any value" (log 15). -/
opaque Config.unspecifiedColour : Nat → Colour

end Sys2Proof
end

