-- ==== Sys2Proof/Syntax.lean ====
section
/-! DEFINITION. The instructions: one constructor per row of spec/opcode_table.json, and the two forms in
which they reach the core (program bytes, a command-port word). -/

namespace Sys2Proof

/-- The five program opcodes (30_encoding.md R70) and the four host commands (30_encoding.md R81).
`len` is the L field of the control byte, the run length minus one (R72). -/
inductive Instr where
  /-- GAP (41_run_modes.md R100). -/
  | gap (len : BitVec 6)
  /-- SOLID (41_run_modes.md R101); `idx` is the palette index byte. -/
  | solid (len : BitVec 6) (idx : Byte)
  /-- GRADIENT (41_run_modes.md R102); `d` holds the delta bytes dr, dg, db. -/
  | gradient (len : BitVec 6) (idx : Byte) (d : Colour)
  /-- PULSE (42_pulse.md R110): start colour, delta bytes, end colour. -/
  | pulse (len : BitVec 6) (st d en : Colour)
  /-- END (40_decoder.md R91); `len` is the ignored L field. -/
  | endOp (len : BitVec 6)
  /-- Command NOP (43_commands_frame.md R128). -/
  | nop
  /-- Command INIT (43_commands_frame.md R121). -/
  | init (plen npix : Nat)
  /-- Command RENDER (43_commands_frame.md R122). -/
  | render
  /-- Command ADVANCE (43_commands_frame.md R125). -/
  | advance (steps : Nat)
  deriving DecidableEq, Repr

/-- Is it one of the five program opcodes (a byte of PROG), not a command? -/
def Instr.isOpcode : Instr → Bool
  | .gap _ | .solid _ _ | .gradient _ _ _ | .pulse _ _ _ _ | .endOp _ => true
  | .nop | .init _ _ | .render | .advance _ => false

/-- Bytes of the opcode in the program: 1 + the number of parameter bytes (30_encoding.md R70). A
command is no program byte. -/
def Instr.size : Instr → Nat
  | .gap _ => 1
  | .solid _ _ => 2
  | .gradient _ _ _ => 5
  | .pulse _ _ _ _ => 10
  | .endOp _ => 1
  | .nop | .init _ _ | .render | .advance _ => 0

/-- What stands on the command port (30_encoding.md R81): `CMD[1:0]`, `ARG0` and `ARG1`. The argument
lines are `CUR_W` and `max(NPIX_W, STEP_W)` bits wide; the decoder takes the bits the command has
(log 13). -/
structure CommandWord where
  cmd : BitVec 2
  arg0 : Nat
  arg1 : Nat
  deriving DecidableEq, Repr

/-- An encoded instruction: bytes of the program stream or a word of the command port. -/
inductive Encoding where
  | program (bytes : List Byte)
  | port (w : CommandWord)
  deriving DecidableEq, Repr

end Sys2Proof
end

