-- ==== Sys2Proof/WellFormed.lean ====
section
/-! DEFINITION. Which instruction terms an instance can encode. -/

namespace Sys2Proof

/-- `PULSE_SEL(L)` (30_encoding.md R73). -/
def Config.pulseSelects (cfg : Config) (len : BitVec 6) : Bool := cfg.pulseSel.getLsbD len.toNat

/-- A term the encoding of the instance `cfg` can express: the L field of a mode-`11` opcode is on
its own side of `PULSE_SEL` (30_encoding.md R73, R75), and each command operand fits its register
(30_encoding.md R81, 10_state.md R28, R29; 43_commands_frame.md R125). A palette index past
`PAL_SIZE` is encodable: it is a run-time fault, not an encoding error (30_encoding.md R76). -/
def Instr.wf (cfg : Config) : Instr → Bool
  | .gap _ => true
  | .solid _ _ => true
  | .gradient _ _ _ => true
  | .pulse len _ _ _ => cfg.pulseSelects len
  | .endOp len => !cfg.pulseSelects len
  | .nop => true
  | .init plen npix => decide (plen < 2 ^ cfg.curW) && decide (npix < 2 ^ cfg.npixW)
  | .render => true
  | .advance steps => decide (steps < 2 ^ cfg.stepW)

end Sys2Proof
end

