-- ==== Sys2Proof/Decode.lean ====
section
/-! DEFINITION. The decoder of program bytes and of command-port words, and after it the encoder, both from
the tables of spec/30_encoding.md. -/

namespace Sys2Proof

/-! ## Fields of the control byte -/

/-- Field M = control[7:6] (30_encoding.md R71). -/
def modeField (c : Byte) : BitVec 2 := c.extractLsb' 6 2

/-- Field L = control[5:0] (30_encoding.md R71). -/
def lenField (c : Byte) : BitVec 6 := c.extractLsb' 0 6

/-- `c = (M << 6) | L` (30_encoding.md R71). -/
def controlByte (m : BitVec 2) (len : BitVec 6) : Byte := (m.setWidth 8 <<< 6) ||| len.setWidth 8

/-- `sext8`: the signed reading of a byte, two's complement (00_scope.md R8). -/
def sext8 (b : Byte) : Int := if b.toNat < 128 then b.toNat else (b.toNat : Int) - 256

/-! ## Decoding program bytes -/

/-- What `Classify` returns (30_encoding.md R73). -/
inductive OpClass where
  | gap
  | solid
  | gradient
  | pulse
  | endOp
  deriving DecidableEq, Repr

/-- `Classify(c)` (30_encoding.md R73), total on all 256 byte values. -/
def classify (cfg : Config) (c : Byte) : OpClass :=
  if modeField c = 0b00#2 then .gap
  else if modeField c = 0b01#2 then .solid
  else if modeField c = 0b10#2 then .gradient
  else if cfg.pulseSelects (lenField c) then .pulse
  else .endOp

/-- `NParams(k)` (30_encoding.md R74). -/
def nParams : OpClass → Nat
  | .gap => 0
  | .solid => 1
  | .gradient => 4
  | .pulse => 9
  | .endOp => 0

/-- Why bytes are no opcode. No byte value is illegal (30_encoding.md R76): only bytes that are not
there. -/
inductive Reject where
  /-- No byte at all: there is no control byte. -/
  | noControlByte
  /-- Fewer parameter bytes than the control byte asks for. -/
  | missingParameters
  deriving DecidableEq, Repr

/-- The decoder's answer: an instruction with the bytes that follow it, or a named rejection. -/
inductive Decoded where
  | ok (i : Instr) (rest : List Byte)
  | rejected (why : Reject)
  deriving DecidableEq, Repr

/-- The parameter bytes of a SOLID opcode (30_encoding.md R70 format F1). -/
def decodeSolid (len : BitVec 6) : List Byte → Decoded
  | idx :: rest => .ok (.solid len idx) rest
  | [] => .rejected .missingParameters

/-- The parameter bytes of a GRADIENT opcode (30_encoding.md R70 format F4). -/
def decodeGradient (len : BitVec 6) : List Byte → Decoded
  | idx :: dr :: dg :: db :: rest => .ok (.gradient len idx ⟨dr, dg, db⟩) rest
  | _ => .rejected .missingParameters

/-- The parameter bytes of a PULSE opcode (30_encoding.md R70 format F9). -/
def decodePulse (len : BitVec 6) : List Byte → Decoded
  | sr :: sg :: sb :: dr :: dg :: db :: er :: eg :: eb :: rest =>
    .ok (.pulse len ⟨sr, sg, sb⟩ ⟨dr, dg, db⟩ ⟨er, eg, eb⟩) rest
  | _ => .rejected .missingParameters

/-- The program decoder: one opcode from the front of a byte list (30_encoding.md R70, R73, R74). -/
def decodeProgram (cfg : Config) : List Byte → Decoded
  | [] => .rejected .noControlByte
  | c :: ps =>
    match classify cfg c with
    | .gap => .ok (.gap (lenField c)) ps
    | .solid => decodeSolid (lenField c) ps
    | .gradient => decodeGradient (lenField c) ps
    | .pulse => decodePulse (lenField c) ps
    | .endOp => .ok (.endOp (lenField c)) ps

/-! ## Decoding a command -/

/-- The command decoder (30_encoding.md R81), total on every port word: `00` NOP, `01` INIT,
`10` RENDER, `11` ADVANCE. An operand is the low bits of its argument line, as many as the register
that takes it has (log 13). -/
def decodeCommand (cfg : Config) (w : CommandWord) : Instr :=
  if w.cmd = 0b00#2 then .nop
  else if w.cmd = 0b01#2 then .init (w.arg0 % 2 ^ cfg.curW) (w.arg1 % 2 ^ cfg.npixW)
  else if w.cmd = 0b10#2 then .render
  else .advance (w.arg1 % 2 ^ cfg.stepW)

/-- The decoder of an encoded instruction of either kind. -/
def decode (cfg : Config) : Encoding → Decoded
  | .program bytes => decodeProgram cfg bytes
  | .port w => .ok (decodeCommand cfg w) []

/-! ## Encoding -/

/-- The bytes of a colour or of a delta triple, in opcode order (20_memory.md R53). -/
def Colour.bytes (x : Colour) : List Byte := [x.r, x.g, x.b]

/-- The program bytes of an opcode (30_encoding.md R70 formats, R75 map). A command has none. -/
def programBytes : Instr → List Byte
  | .gap len => [controlByte 0b00#2 len]
  | .solid len idx => [controlByte 0b01#2 len, idx]
  | .gradient len idx d => controlByte 0b10#2 len :: idx :: d.bytes
  | .pulse len st d en => controlByte 0b11#2 len :: (st.bytes ++ d.bytes ++ en.bytes)
  | .endOp len => [controlByte 0b11#2 len]
  | .nop | .init _ _ | .render | .advance _ => []

/-- The encoder: program bytes for an opcode, a port word for a command (30_encoding.md R75, R81). -/
def encode : Instr → Encoding
  | .nop => .port ⟨0b00#2, 0, 0⟩
  | .init plen npix => .port ⟨0b01#2, plen, npix⟩
  | .render => .port ⟨0b10#2, 0, 0⟩
  | .advance steps => .port ⟨0b11#2, 0, steps⟩
  | .gap len => .program (programBytes (.gap len))
  | .solid len idx => .program (programBytes (.solid len idx))
  | .gradient len idx d => .program (programBytes (.gradient len idx d))
  | .pulse len st d en => .program (programBytes (.pulse len st d en))
  | .endOp len => .program (programBytes (.endOp len))

/-! ## Words numbered as spec/opcode_table.json numbers them -/

/-- The first `n` bytes of an instruction whose bits are `w`: byte k is bits 8k+7..8k. -/
def wordBytes : Nat → Nat → List Byte
  | 0, _ => []
  | n + 1, w => BitVec.ofNat 8 w :: wordBytes n (w / 256)

/-- The longest opcode, PULSE, has ten bytes (30_encoding.md R70). -/
def maxOpcodeBytes : Nat := 10

/-- The opcode-table word as bytes of the program stream, every bit above `nbits` zero. -/
def tableBytes (nbits w : Nat) : List Byte := wordBytes maxOpcodeBytes (w % 2 ^ nbits)

/-- The opcode-table word as a command: the table gives a command row the two bits `CMD[1:0]` and no
bits for its arguments, which are then zero. -/
def tableCommand (w : Nat) : CommandWord := ⟨BitVec.ofNat 2 w, 0, 0⟩

/-- The instruction the decoder reads from an opcode-table word, on the default instance. Two bits
are a command code, more are bytes of the program stream (log 18). -/
def decodeTableWord (nbits w : Nat) : Option Instr :=
  if nbits = 2 then some (decodeCommand Config.default (tableCommand w))
  else
    match decodeProgram Config.default (tableBytes nbits w) with
    | .ok i _ => some i
    | .rejected _ => none

end Sys2Proof
end

