-- ==== Sys2Proof/Machine/Assembler.lean ====
section
/-! DEFINITION. The assembly notation, its bytes and its text (spec/30_encoding.md R78 to R80; log 12). -/

namespace Sys2Proof.Machine

/-- A signed delta triple as the notation writes it. -/
structure SignedTriple where
  r : Int
  g : Int
  b : Int
  deriving DecidableEq, Repr

/-- An unsigned triple as the notation writes it. -/
structure UnsignedTriple where
  r : Nat
  g : Nat
  b : Nat
  deriving DecidableEq, Repr

/-- `opcode` of the grammar of 30_encoding.md R78. -/
inductive AsmOp where
  | gap (len : Nat)
  | solid (len idx : Nat)
  | gradient (len idx : Nat) (delta : SignedTriple)
  | pulse (len : Option Nat) (st : UnsignedTriple) (delta : SignedTriple) (en : UnsignedTriple)
  | endOp
  deriving DecidableEq, Repr

/-- Each component in -128..127 (30_encoding.md R78). -/
def SignedTriple.legal (t : SignedTriple) : Bool :=
  decide (-128 ≤ t.r) && decide (t.r ≤ 127) && decide (-128 ≤ t.g) && decide (t.g ≤ 127) &&
    decide (-128 ≤ t.b) && decide (t.b ≤ 127)

/-- Each component in 0..255 (30_encoding.md R78). -/
def UnsignedTriple.legal (t : UnsignedTriple) : Bool :=
  decide (t.r ≤ 255) && decide (t.g ≤ 255) && decide (t.b ≤ 255)

/-- The ranges of the grammar's comments (30_encoding.md R78), for the default `PULSE_SEL`. -/
def AsmOp.legal : AsmOp → Bool
  | .gap len => decide (1 ≤ len) && decide (len ≤ 64)
  | .solid len idx => decide (1 ≤ len) && decide (len ≤ 64) && decide (idx ≤ 255)
  | .gradient len idx delta =>
    decide (1 ≤ len) && decide (len ≤ 64) && decide (idx ≤ 255) && delta.legal
  | .pulse len st delta en =>
    decide (1 ≤ len.getD 1) && decide (len.getD 1 ≤ 32) && st.legal && delta.legal && en.legal
  | .endOp => true

/-- A signed value stored as `v mod 256` (30_encoding.md R79). -/
def SignedTriple.bytes (t : SignedTriple) : List Byte :=
  [BitVec.ofInt 8 t.r, BitVec.ofInt 8 t.g, BitVec.ofInt 8 t.b]

/-- An unsigned triple as bytes. -/
def UnsignedTriple.bytes (t : UnsignedTriple) : List Byte :=
  [BitVec.ofNat 8 t.r, BitVec.ofNat 8 t.g, BitVec.ofNat 8 t.b]

/-- The L field of a written length, `n - 1` (30_encoding.md R79). -/
def asmLen (n : Nat) : Byte := BitVec.ofNat 8 (n - 1)

/-- Assembly to bytes (30_encoding.md R79), with the canonical END `0xFF` and a PULSE without `len`
at `0xC0`. -/
def AsmOp.bytes : AsmOp → List Byte
  | .gap len => [0x00#8 ||| asmLen len]
  | .solid len idx => [0x40#8 ||| asmLen len, BitVec.ofNat 8 idx]
  | .gradient len idx delta => (0x80#8 ||| asmLen len) :: BitVec.ofNat 8 idx :: delta.bytes
  | .pulse len st delta en =>
    (0xC0#8 ||| asmLen (len.getD 1)) :: (st.bytes ++ delta.bytes ++ en.bytes)
  | .endOp => [0xFF#8]

/-- A program: its opcodes in order, the first at offset 0 (30_encoding.md R78). -/
def assemble (p : List AsmOp) : List Byte := p.flatMap AsmOp.bytes

/-- `(a,b,c)` of signed numbers. -/
def SignedTriple.text (t : SignedTriple) : String :=
  "(" ++ toString t.r ++ "," ++ toString t.g ++ "," ++ toString t.b ++ ")"

/-- `(a,b,c)` of unsigned numbers. -/
def UnsignedTriple.text (t : UnsignedTriple) : String :=
  "(" ++ toString t.r ++ "," ++ toString t.g ++ "," ++ toString t.b ++ ")"

/-- An opcode in the notation of 30_encoding.md R78. -/
def AsmOp.text : AsmOp → String
  | .gap len => "GAP len=" ++ toString len
  | .solid len idx => "SOLID len=" ++ toString len ++ " idx=" ++ toString idx
  | .gradient len idx delta =>
    "GRADIENT len=" ++ toString len ++ " idx=" ++ toString idx ++ " delta=" ++ delta.text
  | .pulse len st delta en =>
    "PULSE" ++ (match len with | none => "" | some n => " len=" ++ toString n) ++
      " start=" ++ st.text ++ " delta=" ++ delta.text ++ " end=" ++ en.text
  | .endOp => "END"

/-- A program in the notation of 30_encoding.md R78: `[op, op, …]`. -/
def asmText (p : List AsmOp) : String :=
  "[" ++ String.intercalate ", " (p.map AsmOp.text) ++ "]"

/-- A colour's bytes as the notation writes them. -/
def unsignedTriple (c : Colour) : UnsignedTriple := ⟨c.r.toNat, c.g.toNat, c.b.toNat⟩

/-- Delta bytes as the notation writes them: signed (00_scope.md R8). -/
def signedTriple (c : Colour) : SignedTriple := ⟨sext8 c.r, sext8 c.g, sext8 c.b⟩

/-- The disassembler: a program opcode in the notation; every END byte is `END`
(30_encoding.md R79). A command has no assembly notation. -/
def disassemble : Instr → Option AsmOp
  | .gap len => some (.gap (len.toNat + 1))
  | .solid len idx => some (.solid (len.toNat + 1) idx.toNat)
  | .gradient len idx d => some (.gradient (len.toNat + 1) idx.toNat (signedTriple d))
  | .pulse len st d en =>
    some (.pulse (some (len.toNat + 1)) (unsignedTriple st) (signedTriple d) (unsignedTriple en))
  | .endOp _ => some .endOp
  | .nop => none
  | .init _ _ => none
  | .render => none
  | .advance _ => none

/-! ## Reading the notation -/

/-- A token of the text: letters, a number with its count of digits, any other character, blanks. -/
inductive Token where
  | word (cs : List Char)
  | num (digits value : Nat)
  | sym (c : Char)
  | blank
  deriving DecidableEq, Repr

/-- One character in front of the tokens of what follows it; a letter or a digit joins the word or the
number it touches. -/
def lexChar (c : Char) (ts : List Token) : List Token :=
  if c.isDigit then
    match ts with
    | .num k v :: rest => .num (k + 1) ((c.toNat - '0'.toNat) * 10 ^ k + v) :: rest
    | _ => .num 1 (c.toNat - '0'.toNat) :: ts
  else if c.isAlpha then
    match ts with
    | .word cs :: rest => .word (c :: cs) :: rest
    | _ => .word [c] :: ts
  else if c.isWhitespace then .blank :: ts
  else .sym c :: ts

/-- The tokens of a text, blanks dropped (log 12). -/
def lex (text : List Char) : List Token :=
  (text.foldr lexChar []).filter fun t => decide (t ≠ .blank)

/-- What reading a part of the grammar answers: the part and the tokens after it. -/
abbrev Reading (α : Type) := Option (α × List Token)

/-- `SINT` of the grammar of 30_encoding.md R78, with its optional sign. -/
def readSigned : List Token → Reading Int
  | .num _ v :: r => some (v, r)
  | .sym '+' :: .num _ v :: r => some (v, r)
  | .sym '-' :: .num _ v :: r => some (-v, r)
  | _ => none

/-- `name=INT`. -/
def readField (name : List Char) : List Token → Reading Nat
  | .word cs :: .sym '=' :: .num _ v :: r => if cs = name then some (v, r) else none
  | _ => none

/-- `name=(INT,INT,INT)`. -/
def readUnsignedTriple (name : List Char) : List Token → Reading UnsignedTriple
  | .word cs :: .sym '=' :: .sym '(' :: .num _ a :: .sym ',' :: .num _ b :: .sym ',' :: .num _ c ::
      .sym ')' :: r => if cs = name then some (⟨a, b, c⟩, r) else none
  | _ => none

/-- `, SINT` of a triple. -/
def readNextSigned : List Token → Reading Int
  | .sym ',' :: r => readSigned r
  | _ => none

/-- `delta=(SINT,SINT,SINT)`. -/
def readDelta : List Token → Reading SignedTriple
  | .word cs :: .sym '=' :: .sym '(' :: r =>
    if cs = ['d', 'e', 'l', 't', 'a'] then
      (readSigned r).bind fun a => (readNextSigned a.2).bind fun b =>
        (readNextSigned b.2).bind fun c =>
          match c.2 with
          | .sym ')' :: r => some (⟨a.1, b.1, c.1⟩, r)
          | _ => none
    else none
  | _ => none

/-- `start delta end` of a PULSE. -/
def readPulse (len : Option Nat) (ts : List Token) : Reading AsmOp :=
  (readUnsignedTriple ['s', 't', 'a', 'r', 't'] ts).bind fun st =>
    (readDelta st.2).bind fun d =>
      (readUnsignedTriple ['e', 'n', 'd'] d.2).map fun en => (.pulse len st.1 d.1 en.1, en.2)

/-- `opcode` of the grammar of 30_encoding.md R78. -/
def readOpcode : List Token → Reading AsmOp
  | .word cs :: r =>
    if cs = ['E', 'N', 'D'] then some (.endOp, r)
    else if cs = ['G', 'A', 'P'] then
      (readField ['l', 'e', 'n'] r).map fun len => (.gap len.1, len.2)
    else if cs = ['S', 'O', 'L', 'I', 'D'] then
      (readField ['l', 'e', 'n'] r).bind fun len =>
        (readField ['i', 'd', 'x'] len.2).map fun idx => (.solid len.1 idx.1, idx.2)
    else if cs = ['G', 'R', 'A', 'D', 'I', 'E', 'N', 'T'] then
      (readField ['l', 'e', 'n'] r).bind fun len => (readField ['i', 'd', 'x'] len.2).bind fun idx =>
        (readDelta idx.2).map fun d => (.gradient len.1 idx.1 d.1, d.2)
    else if cs = ['P', 'U', 'L', 'S', 'E'] then
      match readField ['l', 'e', 'n'] r with
      | some len => readPulse (some len.1) len.2
      | none => readPulse none r
    else none
  | _ => none

/-- `opcode (',' opcode)* ']'`, at most `fuel` opcodes. -/
def readOpcodes : Nat → List Token → Option (List AsmOp)
  | 0, _ => none
  | fuel + 1, ts =>
    (readOpcode ts).bind fun op =>
      match op.2 with
      | [.sym ']'] => some [op.1]
      | .sym ',' :: r => (readOpcodes fuel r).map (op.1 :: ·)
      | _ => none

/-- `program` of the grammar of 30_encoding.md R78: each opcode takes a token, so the tokens are fuel
enough. -/
def readAsm (text : List Char) : Option (List AsmOp) :=
  match lex text with
  | .sym '[' :: ts => readOpcodes ts.length ts
  | _ => none

/-- Assembly text to bytes, where it is in the grammar and every number in its range
(30_encoding.md R78, R79). -/
def assembleText (text : String) : Option (List Byte) :=
  (readAsm text.toList).bind fun p =>
    if p.all AsmOp.legal then some (assemble p) else none

end Sys2Proof.Machine
end

