-- ==== Sys2Proof/Machine/State.lean ====
section
/-! DEFINITION. The state of the machine: every register of spec/10_state.md R20, the two memories it reads,
the observation TX, the instance parameters, and the moves the host will make. -/

namespace Sys2Proof.Machine

/-- MODE (10_state.md R23). -/
inductive Mode where
  | gap
  | solid
  | gradient
  | pulse
  deriving DecidableEq, Repr

/-- DIR (10_state.md R27): forward from the start bound to the end bound, or reverse. -/
inductive Dir where
  | forward
  | reverse
  deriving DecidableEq, Repr

/-- PHASE (10_state.md R31). -/
inductive Phase where
  | uninit
  | ready
  | rendering
  | stepping
  | faulted
  deriving DecidableEq, Repr

/-- FAULTCODE (10_state.md R32, 60_exceptions.md R146). `noFault` is the spec's NONE. -/
inductive FaultCode where
  | noFault
  | notInit
  | noEnd
  | truncated
  | emptyLoop
  | palIndex
  deriving DecidableEq, Repr

/-- An event of the output stream TX at the colour level (44_serializer.md R135). -/
inductive Event where
  | color (c : Colour)
  | idle
  deriving DecidableEq, Repr

/-- One move of the host (log 7). -/
inductive HostMove where
  /-- A word on the command port (43_commands_frame.md R120). -/
  | command (w : CommandWord)
  /-- A byte of PROG is written (20_memory.md R61). -/
  | writeProg (off : Nat) (b : Byte)
  /-- A byte of PAL is written (20_memory.md R61); byte `3*i + k` is channel k of entry i (R52). -/
  | writePal (addr : Nat) (b : Byte)
  /-- The host lets one step of the core pass. -/
  | wait
  /-- The host asserts hardware reset (70_reset_and_hazards.md R165, R166). -/
  | reset
  deriving DecidableEq, Repr

/-- A memory: the listed bytes, addresses strictly rising, none equal to what an unlisted address
reads as. -/
abbrev Memory := List Host.Cell

/-- The whole machine. The registers are those of 10_state.md R20 and no others. -/
structure State where
  /-- The instance parameters (10_state.md R34); written by nothing (log 1). -/
  cfg : Config
  /-- PROG, the program space (20_memory.md R50). -/
  prog : Memory
  /-- PAL, the palette space as bytes (20_memory.md R50, R52). -/
  pal : Memory
  /-- CUR_R, CUR_G, CUR_B (10_state.md R21). -/
  cur : Colour
  /-- D_R, D_G, D_B (10_state.md R24). -/
  delta : Colour
  /-- S_R, S_G, S_B (10_state.md R25). -/
  startBound : Colour
  /-- E_R, E_G, E_B (10_state.md R25). -/
  endBound : Colour
  /-- REM (10_state.md R22). -/
  rem : BitVec 6
  /-- MODE (10_state.md R23). -/
  mode : Mode
  /-- DIR (10_state.md R27). -/
  dir : Dir
  /-- CURSOR, an offset into PROG (10_state.md R26; log 3). -/
  cursor : Nat
  /-- PLEN (10_state.md R28; log 3). -/
  plen : Nat
  /-- NPIX (10_state.md R29; log 3). -/
  npix : Nat
  /-- CNT (10_state.md R30; log 3). -/
  cnt : Nat
  /-- PHASE (10_state.md R31). -/
  phase : Phase
  /-- FAULTCODE (10_state.md R32). -/
  faultCode : FaultCode
  /-- FAULTADDR (10_state.md R32; log 3). -/
  faultAddr : Nat
  /-- TX, the events since reset, oldest first (10_state.md R36). -/
  tx : List Event
  /-- The moves the host has still to make, the next one first (log 7). -/
  host : List HostMove
  deriving DecidableEq, Repr

/-- Why the model stops. The spec's own faults are states (60_exceptions.md R145, R147), not these. -/
inductive Fault where
  /-- Raised by a host write to a byte that PROG or PAL does not have (20_memory.md R50, R56). Safe:
  the model stops where the spec says nothing exists (log 14). -/
  | noSuchAddress
  deriving DecidableEq, Repr

/-- Why the model gives no meaning. -/
inductive Refusal where
  /-- Raised by an arm of `exec` for an instruction not modelled yet. Safe: nothing is claimed of
  it. No arm raises it now. -/
  | notModelled (mnemonic : String)
  deriving DecidableEq, Repr

/-- The machine right after reset, on the default instance: PHASE, FAULTCODE, FAULTADDR and TX as
10_state.md R38 gives them; every register R38 calls unspecified at the value log 4 names; PROG and
PAL with nothing listed; the host silent. -/
def State.reset : State :=
  { cfg := Config.default, prog := [], pal := [], cur := Colour.black, delta := Colour.black,
    startBound := Colour.black, endBound := Colour.black, rem := 0, mode := .gap, dir := .forward,
    cursor := 0, plen := 0, npix := 0, cnt := 0, phase := .uninit, faultCode := .noFault,
    faultAddr := 0, tx := [], host := [] }

end Sys2Proof.Machine
end

