-- ==== Sys2Proof/Machine/Ops.lean ====
section
/-! DEFINITION. The named operations over the memories and the registers, fault entry and its exits. -/

namespace Sys2Proof.Machine

/-! ## Memories -/

/-- What a byte of PROG or PAL that nothing has written reads as (log 5). -/
def unlistedByte : Byte := 0x00#8

/-- Read one byte. -/
def Memory.read : Memory → Nat → Byte
  | [], _ => unlistedByte
  | (k, c) :: m, a => if a = k then c else Memory.read m a

/-- A byte in front of a memory, left out where it is what an unlisted address reads as. -/
def Memory.put (a : Nat) (b : Byte) (m : Memory) : Memory :=
  if b = unlistedByte then m else (a, b) :: m

/-- Write one byte, keeping the canonical form. -/
def Memory.write : Memory → Nat → Byte → Memory
  | [], a, b => Memory.put a b []
  | (k, c) :: m, a, b =>
    if a < k then Memory.put a b ((k, c) :: m)
    else if a = k then Memory.put a b m
    else (k, c) :: Memory.write m a b

/-- The canonical form, for addresses from `lo` on: strictly rising, no entry an unlisted address
would read as. -/
def Memory.wfFrom : Nat → Memory → Bool
  | _, [] => true
  | lo, (k, c) :: m => decide (lo ≤ k) && decide (c ≠ unlistedByte) && Memory.wfFrom (k + 1) m

/-- The canonical form of a memory. -/
def Memory.wf (m : Memory) : Bool := Memory.wfFrom 0 m

/-- Write bytes at consecutive addresses. -/
def Memory.writeBytes : Memory → Nat → List Byte → Memory
  | m, _, [] => m
  | m, a, b :: bs => Memory.writeBytes (m.write a b) (a + 1) bs

/-! ## The read primitives -/

/-- `ProgRead(o)` (20_memory.md R51). Its precondition `o < PLEN` is the caller's check. -/
def State.progRead (s : State) (o : Nat) : Byte := Memory.read s.prog o

/-- `PalRead(i)` (20_memory.md R52): three byte reads at 3*i, 3*i+1, 3*i+2. -/
def State.palRead (s : State) (i : Nat) : Colour :=
  ⟨Memory.read s.pal (3 * i), Memory.read s.pal (3 * i + 1), Memory.read s.pal (3 * i + 2)⟩

/-- The `k` program bytes from offset `o`. -/
def State.progBytes (s : State) : Nat → Nat → List Byte
  | _, 0 => []
  | o, k + 1 => s.progRead o :: s.progBytes (o + 1) k

/-! ## Register writes -/

/-- `Emit(ev)`: append to TX (10_state.md R36). -/
def State.emit (s : State) (e : Event) : State := { s with tx := s.tx ++ [e] }

/-- The writes common to every load (40_decoder.md R90): MODE, REM, CUR and the new CURSOR. -/
def State.loadRun (s : State) (m : Mode) (len : BitVec 6) (c : Colour) (next : Nat) : State :=
  { s with mode := m, rem := len, cur := c, cursor := next }

/-- D <- the delta bytes (10_state.md R24). -/
def State.setDelta (s : State) (d : Colour) : State := { s with delta := d }

/-- S and E <- the bounds, DIR <- forward (42_pulse.md R110). -/
def State.setPulse (s : State) (st en : Colour) : State :=
  { s with startBound := st, endBound := en, dir := .forward }

/-- CUR <- c. -/
def State.setCur (s : State) (c : Colour) : State := { s with cur := c }

/-- DIR <- d. -/
def State.setDir (s : State) (d : Dir) : State := { s with dir := d }

/-- REM <- n. -/
def State.setRem (s : State) (n : BitVec 6) : State := { s with rem := n }

/-- CURSOR <- o, the spec's `pc <- target` (00_scope.md R9). -/
def State.setCursor (s : State) (o : Nat) : State := { s with cursor := o }

/-- CNT <- n. -/
def State.setCnt (s : State) (n : Nat) : State := { s with cnt := n }

/-- PHASE <- p. -/
def State.setPhase (s : State) (p : Phase) : State := { s with phase := p }

/-- The first two lines of INIT (43_commands_frame.md R121): PLEN and NPIX latched, the fault
registers cleared. -/
def State.bindProgram (s : State) (plen npix : Nat) : State :=
  { s with plen := plen, npix := npix, faultCode := .noFault, faultAddr := 0 }

/-- What is left of the host's moves. -/
def State.setHost (s : State) (h : List HostMove) : State := { s with host := h }

/-- PROG <- m, by the host (20_memory.md R61). -/
def State.setProg (s : State) (m : Memory) : State := { s with prog := m }

/-- PAL <- m, by the host (20_memory.md R61). -/
def State.setPal (s : State) (m : Memory) : State := { s with pal := m }

/-! ## Faults: entry and exit -/

/-- Fault entry (60_exceptions.md R147 (b)): FAULTCODE, FAULTADDR and PHASE, and nothing else. It is
applied to the state BEFORE the operation that raises the fault, which is how that operation's
writes are discarded (R147 (a), 40_decoder.md R94). -/
def State.faultEntry (s : State) (code : FaultCode) (addr : Nat) : State :=
  { s with phase := .faulted, faultCode := code, faultAddr := addr }

/-- Hardware reset of the instance in state `s` (70_reset_and_hazards.md R165, R166): the registers
and TX as after power-on, nothing of them carried through. PROG, PAL, the parameters and the host
are outside the core and stay (log 10). With INIT, the only way out of FAULTED
(60_exceptions.md R150). -/
def State.hardReset (s : State) : State :=
  { State.reset with cfg := s.cfg, prog := s.prog, pal := s.pal, host := s.host }

/-- What an operation that may raise a fault answers: the state with its writes made, or the fault
with none of them. -/
inductive LoadResult where
  | loaded (s : State)
  | raised (code : FaultCode) (addr : Nat)
  deriving DecidableEq, Repr

/-- The end of an operation begun in `s`: its writes, or fault entry on `s` (00_scope.md R9 `raise`,
60_exceptions.md R147). -/
def LoadResult.settle (s : State) : LoadResult → State
  | .loaded t => t
  | .raised code addr => s.faultEntry code addr

/-- The core is busy exactly when PHASE is RENDERING or STEPPING (10_state.md R31). -/
def Phase.busy : Phase → Bool
  | .rendering | .stepping => true
  | .uninit | .ready | .faulted => false

/-- The phases in which a program is bound and the core can run it (10_state.md R37). -/
def Phase.running : Phase → Bool
  | .ready | .rendering | .stepping => true
  | .uninit | .faulted => false

/-- The numeric fault codes of the table of 60_exceptions.md R146. -/
def FaultCode.number : FaultCode → Nat
  | .noFault => 0
  | .notInit => 1
  | .noEnd => 2
  | .truncated => 3
  | .emptyLoop => 4
  | .palIndex => 5

end Sys2Proof.Machine
end

