-- ==== Sys2Proof/Machine/Operands.lean ====
section
/-! DEFINITION. Fetching an opcode with its parameter bytes, the checks of a load, and the channel
arithmetic of the GRADIENT step. -/

namespace Sys2Proof.Machine

/-- The bounds checks of a load of an opcode with `n` parameter bytes at offset `o`
(40_decoder.md R90 steps 1 and 2, R92), on unbounded integers; `k` is what follows. -/
def checkBounds (s : State) (o n : Nat) (k : LoadResult) : LoadResult :=
  if s.plen ≤ o then .raised .noEnd o
  else if s.plen < o + 1 + n then .raised .truncated o
  else k

/-- The palette index check (40_decoder.md R90 step 3, R93); `o` is the offset of the control byte. -/
def checkIndex (s : State) (o : Nat) (idx : Byte) (k : LoadResult) : LoadResult :=
  if s.cfg.palSize ≤ idx.toNat then .raised .palIndex (o + 1) else k

/-- What fetching an opcode answers. -/
inductive Fetched where
  | opcode (i : Instr)
  | raised (code : FaultCode) (addr : Nat)
  deriving DecidableEq, Repr

/-- Fetch and decode the opcode at offset `o` in the order of 40_decoder.md R90: the control byte's
bound, its class, the bound of the parameter bytes, then the bytes themselves. -/
def fetchOpcode (s : State) (o : Nat) : Fetched :=
  if s.plen ≤ o then .raised .noEnd o
  else if s.plen < o + 1 + nParams (classify s.cfg (s.progRead o)) then .raised .truncated o
  else
    match decodeProgram s.cfg (s.progBytes o (1 + nParams (classify s.cfg (s.progRead o)))) with
    | .ok i _ => .opcode i
    | .rejected _ => .raised .truncated o

/-- One channel of the GRADIENT step: `(CUR_c + sext8(D_c)) mod 256` (41_run_modes.md R102, R105),
the exact integer sum narrowed to a byte. -/
def channelAdd (c d : Byte) : Byte := BitVec.ofInt 8 ((c.toNat : Int) + sext8 d)

/-- The GRADIENT step on all three channels, with no carry between them (41_run_modes.md R102). -/
def Colour.addDelta (c d : Colour) : Colour :=
  ⟨channelAdd c.r d.r, channelAdd c.g d.g, channelAdd c.b d.b⟩

end Sys2Proof.Machine
end

