-- ==== Sys2Proof/Machine/Flags.lean ====
section
/-! DEFINITION. The one flag DIR and what decides it: the oscillator's candidate, its crossing test, its
clamp target (spec/42_pulse.md R111 to R114). -/

namespace Sys2Proof.Machine

/-- The candidate of one channel, an exact integer: plus the signed delta forward, minus it in
reverse (42_pulse.md R112). -/
def candidate (dir : Dir) (c d : Byte) : Int :=
  match dir with
  | .forward => (c.toNat : Int) + sext8 d
  | .reverse => (c.toNat : Int) - sext8 d

/-- The crossing test of one channel: strictly outside the closed interval between the two bounds
(42_pulse.md R113). -/
def crossed (cand : Int) (st en : Byte) : Bool :=
  decide (cand > max (st.toNat : Int) en.toNat) || decide (cand < min (st.toNat : Int) en.toNat)

/-- The candidate of a channel of the state. -/
def State.candidate (s : State) (c : Channel) : Int :=
  Machine.candidate s.dir (s.cur.channel c) (s.delta.channel c)

/-- Has this channel crossed in this step (42_pulse.md R111)? -/
def State.channelCrossed (s : State) (c : Channel) : Bool :=
  crossed (s.candidate c) (s.startBound.channel c) (s.endBound.channel c)

/-- Does the step reverse: has any channel crossed (42_pulse.md R114)? -/
def State.reverses (s : State) : Bool :=
  s.channelCrossed .r || s.channelCrossed .g || s.channelCrossed .b

/-- The toggled direction flag (42_pulse.md R114). -/
def Dir.flip : Dir → Dir
  | .forward => .reverse
  | .reverse => .forward

/-- The bound being approached, chosen by DIR alone (42_pulse.md R114). -/
def State.clampTarget (s : State) : Colour :=
  match s.dir with
  | .forward => s.endBound
  | .reverse => s.startBound

/-- The candidate colour, stored when nothing crosses; each candidate then lies between two bytes
(42_pulse.md R116 (a)), so narrowing loses nothing. -/
def State.candidateColour (s : State) : Colour :=
  ⟨BitVec.ofInt 8 (s.candidate .r), BitVec.ofInt 8 (s.candidate .g), BitVec.ofInt 8 (s.candidate .b)⟩

end Sys2Proof.Machine
end

