-- ==== Sys2Proof/Machine/Runs.lean ====
section
/-! DEFINITION. GAP, SOLID and GRADIENT: the load part at an offset, the meaning (the load at CURSOR), and
the step part (spec/41_run_modes.md R100 to R102). -/

namespace Sys2Proof.Machine

/-- `LoadGap(L)` at offset `o` (41_run_modes.md R100). -/
def loadGap (len : BitVec 6) (o : Nat) (s : State) : LoadResult :=
  checkBounds s o 0 (.loaded (s.loadRun .gap len Colour.black (o + 1)))

/-- `LoadSolid(L, o)` (41_run_modes.md R101), the palette read once. -/
def loadSolid (len : BitVec 6) (idx : Byte) (o : Nat) (s : State) : LoadResult :=
  checkBounds s o 1 (checkIndex s o idx
    (.loaded (s.loadRun .solid len (s.palRead idx.toNat) (o + 2))))

/-- `LoadGradient(L, o)` (41_run_modes.md R102). -/
def loadGradient (len : BitVec 6) (idx : Byte) (d : Colour) (o : Nat) (s : State) : LoadResult :=
  checkBounds s o 4 (checkIndex s o idx
    (.loaded ((s.loadRun .gradient len (s.palRead idx.toNat) (o + 5)).setDelta d)))

/-- GAP: the load of `LoadNext` with this opcode at CURSOR (41_run_modes.md R100, 40_decoder.md R90;
log 11). -/
def execGap (len : BitVec 6) (s : State) : Host.Outcome State Fault Refusal :=
  .next ((loadGap len s.cursor s).settle s)

/-- SOLID: the load of `LoadNext` with this opcode at CURSOR (41_run_modes.md R101; log 11). -/
def execSolid (len : BitVec 6) (idx : Byte) (s : State) : Host.Outcome State Fault Refusal :=
  .next ((loadSolid len idx s.cursor s).settle s)

/-- GRADIENT: the load of `LoadNext` with this opcode at CURSOR (41_run_modes.md R102; log 11). -/
def execGradient (len : BitVec 6) (idx : Byte) (d : Colour) (s : State) :
    Host.Outcome State Fault Refusal :=
  .next ((loadGradient len idx d s.cursor s).settle s)

/-- `StepGap()` (41_run_modes.md R100); it runs only with REM > 0. -/
def stepGap (s : State) : State := s.setRem (s.rem - 1)

/-- `StepSolid()` (41_run_modes.md R101); it runs only with REM > 0. -/
def stepSolid (s : State) : State := s.setRem (s.rem - 1)

/-- `StepGradient()` (41_run_modes.md R102); it runs only with REM > 0. -/
def stepGradient (s : State) : State :=
  (s.setCur (Colour.addDelta s.cur s.delta)).setRem (s.rem - 1)

end Sys2Proof.Machine
end

