-- ==== Sys2Proof/Machine/Pulse.lean ====
section
/-! DEFINITION. PULSE: the load part, the meaning and the oscillator step (spec/42_pulse.md R110 to R115). -/

namespace Sys2Proof.Machine

/-- `LoadPulse(L, o)` (42_pulse.md R110): no palette, no check that relates the nine bytes. -/
def loadPulse (len : BitVec 6) (st d en : Colour) (o : Nat) (s : State) : LoadResult :=
  checkBounds s o 9
    (.loaded (((s.loadRun .pulse len st (o + 10)).setDelta d).setPulse st en))

/-- PULSE: the load of `LoadNext` with this opcode at CURSOR (42_pulse.md R110; log 11). -/
def execPulse (len : BitVec 6) (st d en : Colour) (s : State) : Host.Outcome State Fault Refusal :=
  .next ((loadPulse len st d en s.cursor s).settle s)

/-- `PulseStep()` (42_pulse.md R111, R114): on a crossing all channels jump to the bound being
approached and DIR toggles; otherwise the candidates are stored. -/
def pulseStep (s : State) : State :=
  if s.reverses then (s.setCur s.clampTarget).setDir s.dir.flip else s.setCur s.candidateColour

end Sys2Proof.Machine
end

