-- ==== Sys2Proof/Machine/Decoder.lean ====
section
/-! DEFINITION. END, the load of the next opcode, and the validation walk (spec/40_decoder.md R90 to R96). -/

namespace Sys2Proof.Machine

/-- The load of a decoded opcode at offset `o` (40_decoder.md R90 step 4). END here is an END met at
program start: EMPTY_LOOP (40_decoder.md R91). A command is no program opcode and is never decoded
from program bytes; it loads nothing. -/
def loadAt (i : Instr) (o : Nat) (s : State) : LoadResult :=
  match i with
  | .gap len => loadGap len o s
  | .solid len idx => loadSolid len idx o s
  | .gradient len idx d => loadGradient len idx d o s
  | .pulse len st d en => loadPulse len st d en o s
  | .endOp _ => .raised .emptyLoop 0
  | .nop => .loaded s
  | .init _ _ => .loaded s
  | .render => .loaded s
  | .advance _ => .loaded s

/-- The restart of END (40_decoder.md R91): decode and load the opcode at offset 0 instead. -/
def loadRestart (s : State) : LoadResult :=
  match fetchOpcode s 0 with
  | .raised code addr => .raised code addr
  | .opcode i => loadAt i 0 s

/-- END met at CURSOR (40_decoder.md R90 step 1, R91): EMPTY_LOOP at offset 0, else the restart. -/
def loadEnd (s : State) : LoadResult :=
  checkBounds s s.cursor 0
    (if s.cursor = 0 then .raised .emptyLoop 0 else loadRestart s)

/-- END: the load of `LoadNext` with this opcode at CURSOR; the L field is ignored
(40_decoder.md R91; log 11). -/
def execEnd (_len : BitVec 6) (s : State) : Host.Outcome State Fault Refusal :=
  .next ((loadEnd s).settle s)

/-- `LoadNext()` (40_decoder.md R90): decode the opcode at CURSOR and load it. -/
def loadNext (s : State) : LoadResult :=
  match fetchOpcode s s.cursor with
  | .raised code addr => .raised code addr
  | .opcode (.endOp _) => loadEnd s
  | .opcode i => loadAt i s.cursor s

/-- The verdict of the validation walk on a decoded opcode at offset `o`; `go` is the walk from the
offset after it (40_decoder.md R95). -/
def validateOpcode (s : State) (o : Nat) (i : Instr) (go : Option (FaultCode × Nat)) :
    Option (FaultCode × Nat) :=
  match i with
  | .gap _ => go
  | .solid _ idx => if s.cfg.palSize ≤ idx.toNat then some (.palIndex, o + 1) else go
  | .gradient _ idx _ => if s.cfg.palSize ≤ idx.toNat then some (.palIndex, o + 1) else go
  | .pulse _ _ _ _ => none
  | .endOp _ => if o = 0 then some (.emptyLoop, 0) else none
  | .nop => go
  | .init _ _ => go
  | .render => go
  | .advance _ => go

/-- The validation walk from offset `o`, at most `fuel` opcodes long. `none` is the spec's OK. Each
opcode has at least one byte, so PLEN + 1 is fuel enough for any program (log 20). -/
def validateFrom (s : State) : Nat → Nat → Option (FaultCode × Nat)
  | 0, o => some (.noEnd, o)
  | fuel + 1, o =>
    match fetchOpcode s o with
    | .raised code addr => some (code, addr)
    | .opcode i => validateOpcode s o i (validateFrom s fuel (o + i.size))

/-- `Validate()` (40_decoder.md R95): the walk from offset 0. -/
def validate (s : State) : Option (FaultCode × Nat) := validateFrom s (s.plen + 1) 0

end Sys2Proof.Machine
end

