-- ==== Sys2Proof/Machine/Commands.lean ====
section
/-! DEFINITION. The commands NOP, INIT, RENDER and ADVANCE (spec/43_commands_frame.md R120 to R128). RENDER
and ADVANCE start the work; the pixel steps that follow are steps of their own (log 9). -/

namespace Sys2Proof.Machine

/-- NOP: nothing, in every phase (43_commands_frame.md R128). -/
def execNop (s : State) : Host.Outcome State Fault Refusal := .next s

/-- INIT after the latch, with the verdict of `Validate` (43_commands_frame.md R121): fault entry, or
CURSOR <- 0, one `LoadNext`, READY. That `LoadNext` cannot raise a fault (40_decoder.md R95; log 19). -/
def initLoad (s : State) : Option (FaultCode × Nat) → State
  | some (code, addr) => s.faultEntry code addr
  | none =>
    match loadNext (s.setCursor 0) with
    | .loaded t => t.setPhase .ready
    | .raised code addr => s.faultEntry code addr

/-- INIT where it is accepted (43_commands_frame.md R121). -/
def initAccepted (plen npix : Nat) (s : State) : State :=
  initLoad (s.bindProgram plen npix) (validate (s.bindProgram plen npix))

/-- INIT (43_commands_frame.md R120, R121): accepted in UNINIT, READY and FAULTED; while busy it is
not accepted and nothing happens (log 8). -/
def execInit (plen npix : Nat) (s : State) : Host.Outcome State Fault Refusal :=
  match s.phase with
  | .uninit => .next (initAccepted plen npix s)
  | .ready => .next (initAccepted plen npix s)
  | .faulted => .next (initAccepted plen npix s)
  | .rendering => .next s
  | .stepping => .next s

/-- RENDER or ADVANCE by phase (43_commands_frame.md R120): NOT_INIT in UNINIT, the work begun in
READY, no effect in FAULTED, not accepted while busy (log 8). -/
def startWork (busyPhase : Phase) (count : Nat) (s : State) : State :=
  match s.phase with
  | .uninit => s.faultEntry .notInit 0
  | .ready => (s.setCnt count).setPhase busyPhase
  | .faulted => s
  | .rendering => s
  | .stepping => s

/-- RENDER (43_commands_frame.md R122): CNT <- NPIX, PHASE <- RENDERING. -/
def execRender (s : State) : Host.Outcome State Fault Refusal :=
  .next (startWork .rendering s.npix s)

/-- ADVANCE (43_commands_frame.md R125): CNT <- steps, PHASE <- STEPPING. -/
def execAdvance (steps : Nat) (s : State) : Host.Outcome State Fault Refusal :=
  .next (startWork .stepping steps s)

end Sys2Proof.Machine
end

