-- ==== Sys2Proof/Machine/Dispatch.lean ====
section
/-! DEFINITION. The dispatch: one arm per constructor of Instr. -/

namespace Sys2Proof.Machine

/-- What each instruction does. -/
def exec (i : Instr) (s : State) : Host.Outcome State Fault Refusal :=
  match i with
  | .gap len => Sys2Proof.Machine.execGap len s
  | .solid len idx => Sys2Proof.Machine.execSolid len idx s
  | .gradient len idx d => Sys2Proof.Machine.execGradient len idx d s
  | .pulse len st d en => Sys2Proof.Machine.execPulse len st d en s
  | .endOp len => Sys2Proof.Machine.execEnd len s
  | .nop => Sys2Proof.Machine.execNop s
  | .init plen npix => Sys2Proof.Machine.execInit plen npix s
  | .render => Sys2Proof.Machine.execRender s
  | .advance steps => Sys2Proof.Machine.execAdvance steps s

end Sys2Proof.Machine
end

