-- ==== Sys2Proof/Machine/Frame.lean ====
section
/-! DEFINITION. `Advance` and the steps of the frame-emission controller (spec/41_run_modes.md R103,
43_commands_frame.md R122 to R126). -/

namespace Sys2Proof.Machine

/-- `LoadNext` as a step runs it: the opcode fetched at CURSOR is executed (40_decoder.md R90). -/
def runNextOpcode (s : State) : Host.Outcome State Fault Refusal :=
  match fetchOpcode s s.cursor with
  | .raised code addr => .next (s.faultEntry code addr)
  | .opcode i => exec i s

/-- `Advance()` (41_run_modes.md R103): the oscillator in PULSE, a step part while REM > 0, else the
next opcode. -/
def advance (s : State) : Host.Outcome State Fault Refusal :=
  match s.mode with
  | .pulse => .next (pulseStep s)
  | .gap => if s.rem = 0 then runNextOpcode s else .next (stepGap s)
  | .solid => if s.rem = 0 then runNextOpcode s else .next (stepSolid s)
  | .gradient => if s.rem = 0 then runNextOpcode s else .next (stepGradient s)

/-- The end of a pixel step: CNT <- CNT - 1, unless the `Advance` faulted
(43_commands_frame.md R123, R126; 60_exceptions.md R147 (c)). -/
def countDown (s : State) : State :=
  if s.phase = .faulted then s else s.setCnt (s.cnt - 1)

/-- `countDown` after an `Advance`. -/
def afterAdvance : Host.Outcome State Fault Refusal → Host.Outcome State Fault Refusal
  | .next t => .next (countDown t)
  | .fault r => .fault r
  | .refused r => .refused r

/-- `RenderPixelStep()` (43_commands_frame.md R123): emit the current colour, advance, count. -/
def renderPixelStep (s : State) : Host.Outcome State Fault Refusal :=
  afterAdvance (advance (s.emit (.color s.cur)))

/-- `FrameEnd()` (43_commands_frame.md R124): exactly one Idle, then READY. -/
def frameEnd (s : State) : State := (s.emit .idle).setPhase .ready

/-- The silent step of ADVANCE (43_commands_frame.md R126). -/
def silentStep (s : State) : Host.Outcome State Fault Refusal := afterAdvance (advance s)

/-- One step of the core with no move of the host: the next pixel step of the command in progress,
its end, or nothing (an empty port presents NOP, 30_encoding.md R81). -/
def coreStep (s : State) : Host.Outcome State Fault Refusal :=
  match s.phase with
  | .rendering => if s.cnt = 0 then .next (frameEnd s) else renderPixelStep s
  | .stepping => if s.cnt = 0 then .next (s.setPhase .ready) else silentStep s
  | .uninit => exec .nop s
  | .ready => exec .nop s
  | .faulted => exec .nop s

end Sys2Proof.Machine
end

