-- ==== Sys2Proof/Machine/HostPort.lean ====
section
/-! DEFINITION. The host's moves: commands, writes of PROG and PAL, reset; and the status interface
(spec/43_commands_frame.md R120, 20_memory.md R61, 10_state.md R33). -/

namespace Sys2Proof.Machine

/-- The host writes a byte of PROG (20_memory.md R61; log 6). PROG has the offsets a CURSOR can hold
(log 14). -/
def hostWriteProg (off : Nat) (b : Byte) (s : State) : Host.Outcome State Fault Refusal :=
  if off < 2 ^ s.cfg.curW then .next (s.setProg (Memory.write s.prog off b))
  else .fault .noSuchAddress

/-- The host writes a byte of PAL (20_memory.md R52, R61; log 6, log 14). -/
def hostWritePal (addr : Nat) (b : Byte) (s : State) : Host.Outcome State Fault Refusal :=
  if addr < 3 * s.cfg.palSize then .next (s.setPal (Memory.write s.pal addr b))
  else .fault .noSuchAddress

/-- A step with the host's next move `m` and the moves `rest` after it (log 7). Reset is taken in any
phase (70_reset_and_hazards.md R166). A wait lets the core take one step. Any other move is taken
when the core is not busy; while it is busy the move stays pending and the core goes on
(43_commands_frame.md R120). -/
def takeMove (m : HostMove) (rest : List HostMove) (s : State) :
    Host.Outcome State Fault Refusal :=
  match m with
  | .reset => .next (s.setHost rest).hardReset
  | .wait => coreStep (s.setHost rest)
  | .command w =>
    if s.phase.busy then coreStep s else exec (decodeCommand s.cfg w) (s.setHost rest)
  | .writeProg off b =>
    if s.phase.busy then coreStep s else hostWriteProg off b (s.setHost rest)
  | .writePal addr b =>
    if s.phase.busy then coreStep s else hostWritePal addr b (s.setHost rest)

/-- What the host reads from the status interface (10_state.md R33). -/
structure Status where
  phase : Phase
  faultCode : FaultCode
  faultAddr : Nat
  cur : Colour
  deriving DecidableEq, Repr

/-- A status read, without side effect (10_state.md R33). CUR is defined in READY, RENDERING and
STEPPING; otherwise it is a free value, `draw` being the number of the read (log 15). -/
def State.status (s : State) (draw : Nat) : Status :=
  { phase := s.phase, faultCode := s.faultCode, faultAddr := s.faultAddr,
    cur := if s.phase.running then s.cur else Config.unspecifiedColour draw }

/-- The state in which a program opcode of the given bytes is the next thing `step` runs: the bytes
stand in PROG at CURSOR within PLEN, a silent step is due, no run is active, the host is silent
(log 17). -/
def State.placeOpcode (s : State) (bytes : List Byte) : State :=
  { s with
    prog := Memory.writeBytes s.prog s.cursor bytes
    plen := max s.plen (s.cursor + bytes.length)
    mode := if s.mode = .pulse then .gap else s.mode
    rem := 0
    phase := if s.phase = .rendering then .rendering else .stepping
    cnt := if s.cnt = 0 then 1 else s.cnt
    host := [] }

/-- The state in which a command is the next thing `step` runs: the host presents it to a core that
is not busy (log 17). -/
def State.placeCommand (s : State) (w : CommandWord) : State :=
  { s with
    phase := if s.phase.busy then .ready else s.phase
    host := .command w :: s.host }

end Sys2Proof.Machine
end

