-- ==== Sys2Proof/Machine/Serializer.lean ====
section
/-! DEFINITION. The output serialization sequencer: TX refined to bytes and to bit symbols
(spec/44_serializer.md R135 to R138). -/

namespace Sys2Proof.Machine

/-- TX at the byte level: `Byte(v)` and the idle request (44_serializer.md R136). -/
inductive ByteEvent where
  | byte (v : Byte)
  | idle
  deriving DecidableEq, Repr

/-- TX at the bit level: `Bit(0)`, `Bit(1)` and the idle request (44_serializer.md R137). -/
inductive Symbol where
  | bit (v : Bool)
  | idle
  deriving DecidableEq, Repr

/-- One event as byte events, in wire order (44_serializer.md R136). -/
def Event.byteEvents (order : WireOrder) : Event → List ByteEvent
  | .color c => order.channels.map fun w => .byte (c.channel w)
  | .idle => [.idle]

/-- One byte event as symbols, most significant bit first (44_serializer.md R137). -/
def ByteEvent.symbols : ByteEvent → List Symbol
  | .byte v =>
    [.bit (v.getLsbD 7), .bit (v.getLsbD 6), .bit (v.getLsbD 5), .bit (v.getLsbD 4),
      .bit (v.getLsbD 3), .bit (v.getLsbD 2), .bit (v.getLsbD 1), .bit (v.getLsbD 0)]
  | .idle => [.idle]

/-- A stream of events as byte events. -/
def wireBytes (order : WireOrder) (tx : List Event) : List ByteEvent :=
  tx.flatMap (Event.byteEvents order)

/-- A stream of events as bit symbols. -/
def wireSymbols (order : WireOrder) (tx : List Event) : List Symbol :=
  (wireBytes order tx).flatMap ByteEvent.symbols

/-- What this instance's serializer has been handed since reset, in its own wire order (log 2). -/
def State.wire (s : State) : List Symbol := wireSymbols Config.wireOrder s.tx

end Sys2Proof.Machine
end

