-- ==== Sys2Proof/Machine/Step.lean ====
section
/-! DEFINITION. One step of the machine, and the placing of one instruction for it to run. -/

namespace Sys2Proof.Machine

/-- One step: with the host's next move, or of the core alone where the host is silent. -/
def step (s : State) : Host.Outcome State Fault Refusal :=
  match s.host with
  | [] => coreStep s
  | m :: rest => takeMove m rest s

/-- `s` with the instruction of an opcode-table word placed so that the next step runs it (log 17):
a two-bit word on the command port, any other in PROG at CURSOR. -/
def State.withFetchWord (s : State) (nbits w : Nat) : State :=
  if nbits = 2 then s.placeCommand (tableCommand w) else s.placeOpcode (tableBytes nbits w)

end Sys2Proof.Machine
end

