-- ==== Sys2Proof/Safety.lean ====
section
/-! DEFINITION. What claims about the machine are stated in: the invariant of the registers, the notion of a
bound program, and the big-step forms of spec/43_commands_frame.md R127. -/

namespace Sys2Proof.Machine

/-- The channel `x` lies in the closed interval between its two bounds (42_pulse.md R116 (a)). -/
def within (x st en : Byte) : Prop :=
  min st.toNat en.toNat ≤ x.toNat ∧ x.toNat ≤ max st.toNat en.toNat

/-- CUR lies between S and E on every channel (10_state.md R37 (e)). -/
def State.curWithin (s : State) : Prop :=
  ∀ c : Channel, within (s.cur.channel c) (s.startBound.channel c) (s.endBound.channel c)

/-- What holds between any two steps, whatever the host does: the parts of 10_state.md R37 that need
no constancy of PROG, the fault registers' rule of R32, the widths of R26 to R32, the parameters'
legality (00_scope.md R6), and the canonical form of the memories. -/
structure Inv (s : State) : Prop where
  /-- Parameters are legal (00_scope.md R6). -/
  cfgLegal : s.cfg.legal = true
  /-- PROG is in canonical form. -/
  progWf : Memory.wf s.prog = true
  /-- PAL is in canonical form. -/
  palWf : Memory.wf s.pal = true
  /-- FAULTCODE is not NONE iff PHASE is FAULTED (10_state.md R32, R37 (g)). -/
  faultIff : s.faultCode ≠ .noFault ↔ s.phase = .faulted
  /-- FAULTADDR is 0 while no fault is recorded (10_state.md R32). -/
  addrClear : s.phase ≠ .faulted → s.faultAddr = 0
  /-- CURSOR never exceeds PLEN (10_state.md R26, R37 (b)). -/
  cursorLe : s.phase.running = true → s.cursor ≤ s.plen
  /-- In GAP the colour is black (10_state.md R37 (d)). -/
  gapBlack : s.phase.running = true → s.mode = .gap → s.cur = Colour.black
  /-- In PULSE the colour is between the bounds (10_state.md R37 (e)). -/
  pulseWithin : s.phase.running = true → s.mode = .pulse → s.curWithin
  /-- CURSOR fits CUR_W bits (10_state.md R26). -/
  cursorFits : s.cursor < 2 ^ s.cfg.curW
  /-- PLEN fits CUR_W bits (10_state.md R28). -/
  plenFits : s.plen < 2 ^ s.cfg.curW
  /-- NPIX fits NPIX_W bits (10_state.md R29). -/
  npixFits : s.npix < 2 ^ s.cfg.npixW
  /-- CNT fits CNT_W bits (10_state.md R30). -/
  cntFits : s.cnt < 2 ^ s.cfg.cntW
  /-- FAULTADDR fits CUR_W bits (10_state.md R32). -/
  addrFits : s.faultAddr < 2 ^ s.cfg.curW

/-- The offsets of the linear decode from offset `o` on (10_state.md R37 (b), 20_memory.md R54): each
opcode that fits the program is followed by the one after it; an END, or an opcode that does not fit,
is the last. -/
def opcodeOffsets (s : State) : Nat → Nat → List Nat
  | 0, _ => []
  | fuel + 1, o =>
    match fetchOpcode s o with
    | .raised _ _ => [o]
    | .opcode (.endOp _) => [o]
    | .opcode i => o :: opcodeOffsets s fuel (o + i.size)

/-- A well-formed program is bound and the machine is on its decode path: the launch premise (a) of
70_reset_and_hazards.md R168. -/
structure Bound (s : State) : Prop where
  /-- A program has been accepted (10_state.md R31). -/
  running : s.phase.running = true
  /-- The program in PROG is well formed (40_decoder.md R95). -/
  valid : validate s = none
  /-- CURSOR is an opcode boundary of the linear decode from offset 0 (10_state.md R37 (b)). -/
  boundary : s.cursor ∈ opcodeOffsets s (s.plen + 1) 0
  /-- Unless a PULSE runs, what is decoded next is well formed too (40_decoder.md R95). -/
  tail : s.mode ≠ .pulse → validateFrom s (s.plen + 1) s.cursor = none

/-- The state an outcome leaves when no fault was raised. -/
def unfaulted : Host.Outcome State Fault Refusal → Option State
  | .next t => if t.phase = .faulted then none else some t
  | .fault _ => none
  | .refused _ => none

/-- `adv^k` (43_commands_frame.md R127): k successive `Advance` operations, `none` if one faults. -/
def advanceN : Nat → State → Option State
  | 0, s => some s
  | k + 1, s => (unfaulted (advance s)).bind (advanceN k)

/-- The `Color` events of k pixel steps from `s`: `Color(col(s)), …, Color(col(adv^(k-1) s))`
(43_commands_frame.md R127). -/
def frameColours : Nat → State → List Event
  | 0, _ => []
  | k + 1, s =>
    .color s.cur :: (match unfaulted (advance s) with
      | some t => frameColours k t
      | none => [])

/-- The data registers that 60_exceptions.md R147 names agree. -/
structure SameData (s t : State) : Prop where
  cursor : t.cursor = s.cursor
  mode : t.mode = s.mode
  rem : t.rem = s.rem
  cur : t.cur = s.cur
  delta : t.delta = s.delta
  startBound : t.startBound = s.startBound
  endBound : t.endBound = s.endBound
  dir : t.dir = s.dir

/-- What no load and no `Advance` touches: the memories, the parameters, the host, and the registers
of the command interface (40_decoder.md R90; 41_run_modes.md R103). -/
structure SameRest (s t : State) : Prop where
  cfg : t.cfg = s.cfg
  progReads : ∀ a, Memory.read t.prog a = Memory.read s.prog a
  palReads : ∀ a, Memory.read t.pal a = Memory.read s.pal a
  plen : t.plen = s.plen
  npix : t.npix = s.npix
  cnt : t.cnt = s.cnt
  tx : t.tx = s.tx
  host : t.host = s.host

/-- The fault registers and PHASE agree. -/
structure SameFault (s t : State) : Prop where
  phase : t.phase = s.phase
  faultCode : t.faultCode = s.faultCode
  faultAddr : t.faultAddr = s.faultAddr

/-- Does the host's next move change PROG or PAL (70_reset_and_hazards.md R169)? -/
def HostMove.writesMemory : HostMove → Bool
  | .writeProg _ _ | .writePal _ _ => true
  | .command _ | .wait | .reset => false

/-- Is the host's next move one that waits while the core is busy (43_commands_frame.md R120)? -/
def HostMove.waitsWhileBusy : HostMove → Bool
  | .command _ | .writeProg _ _ | .writePal _ _ => true
  | .wait | .reset => false

/-- The run length of an opcode, `L + 1` (30_encoding.md R72); only GAP, SOLID and GRADIENT have one
that counts. -/
def runLength : Instr → Nat
  | .gap len => len.toNat + 1
  | .solid len _ => len.toNat + 1
  | .gradient len _ _ => len.toNat + 1
  | .pulse _ _ _ _ | .endOp _ | .nop | .init _ _ | .render | .advance _ => 0

/-- Walking from offset `o`, the runs `op_1 .. op_m` before the first END (40_decoder.md R98), or `none`
where a PULSE or an error comes first. -/
def runsFrom (s : State) : Nat → Nat → Option (List Instr)
  | 0, _ => none
  | fuel + 1, o =>
    match fetchOpcode s o with
    | .opcode (.endOp _) => some []
    | .opcode (.gap len) => (runsFrom s fuel (o + 1)).map (.gap len :: ·)
    | .opcode (.solid len idx) => (runsFrom s fuel (o + 2)).map (.solid len idx :: ·)
    | .opcode (.gradient len idx d) => (runsFrom s fuel (o + 5)).map (.gradient len idx d :: ·)
    | .opcode (.pulse _ _ _ _) | .opcode .nop | .opcode (.init _ _) | .opcode .render
    | .opcode (.advance _) => none
    | .raised _ _ => none

/-- The pixels of runs together: `len_1 + ... + len_m`, the `P` of 40_decoder.md R98. -/
def totalLength (ops : List Instr) : Nat := (ops.map runLength).sum

/-- `c` is the k-th colour, counted from 0, of the run that a GAP, SOLID or GRADIENT opcode is under the
palette of `s` (41_run_modes.md R100 to R102); the other instructions are no such run. -/
def isRunColour (s : State) (c : Colour) (k : Nat) : Instr → Prop
  | .gap _ => c = Colour.black
  | .solid _ idx => c = s.palRead idx.toNat
  | .gradient _ idx d => ∀ ch : Channel,
    ((c.channel ch).toNat : Int) =
      ((((s.palRead idx.toNat).channel ch).toNat : Int) + k * sext8 (d.channel ch)) % 256
  | .pulse _ _ _ _ | .endOp _ | .nop | .init _ _ | .render | .advance _ => False

end Sys2Proof.Machine
end

