-- ==== Sys2Proof/Certificates/Slice0/Obligations.lean ====
section
/-! DEFINITION. The statements for the provers. Each docstring names the rules of spec/ it formalises or
rests on. -/

open Sys2Proof Sys2Proof.Machine

/-! ## Encoding -/

/-- 30_encoding.md R70 to R75, R81: every instruction an instance can encode, opcode or command, with
every operand value, is read back from its encoding; an opcode also in front of other bytes. -/
def Obligations.DecodeEncodeAgree : Prop :=
  ∀ (cfg : Config) (i : Instr), i.wf cfg = true →
    decode cfg (encode i) = .ok i [] ∧
      (i.isOpcode = true → ∀ rest : List Byte,
        decodeProgram cfg (programBytes i ++ rest) = .ok i rest)

/-- 30_encoding.md R70 to R75: bytes that decode are the encoding of what they decode to, which the
instance can encode; and two different opcodes never share bytes: where the bytes of one and whatever
follows are the bytes of the other and whatever follows, the two are one opcode. -/
def Obligations.DecodedBytesEncodeBack : Prop :=
  (∀ (cfg : Config) (bs : List Byte) (i : Instr) (rest : List Byte),
    decodeProgram cfg bs = .ok i rest →
      bs = programBytes i ++ rest ∧ i.wf cfg = true ∧ i.isOpcode = true) ∧
  (∀ (cfg : Config) (i j : Instr) (after after' : List Byte),
    i.wf cfg = true → j.wf cfg = true → i.isOpcode = true → j.isOpcode = true →
      programBytes i ++ after = programBytes j ++ after' → i = j ∧ after = after')

/-- 30_encoding.md R77, in both of its forms: by shifts and masks, and by M and the run length. -/
def Obligations.ControlByteRoundTrip : Prop :=
  ∀ c : Byte,
    ((c >>> 6) <<< 6) ||| (c &&& 0x3F#8) = c ∧
      controlByte (modeField c) (lenField c) = c ∧
      (modeField c).toNat = c.toNat / 64 ∧
      ∀ length : Nat, length = (lenField c).toNat + 1 →
        (modeField c).toNat * 64 + (length - 1) = c.toNat

/-- 30_encoding.md R73: the class by the two fields for any PULSE_SEL; for the default PULSE_SEL PULSE
is exactly 0xC0..0xDF and END exactly 0xE0..0xFF; with PULSE_SEL constantly false no byte is PULSE;
GAP, SOLID and GRADIENT do not depend on PULSE_SEL. -/
def Obligations.ClassifyByFields : Prop :=
  (∀ (cfg : Config) (c : Byte),
    (classify cfg c = .gap ↔ modeField c = 0b00#2) ∧
    (classify cfg c = .solid ↔ modeField c = 0b01#2) ∧
    (classify cfg c = .gradient ↔ modeField c = 0b10#2) ∧
    (classify cfg c = .pulse ↔ modeField c = 0b11#2 ∧ cfg.pulseSelects (lenField c) = true) ∧
    (classify cfg c = .endOp ↔ modeField c = 0b11#2 ∧ cfg.pulseSelects (lenField c) = false)) ∧
  (∀ c : Byte,
    (classify Config.default c = .pulse ↔ 0xC0 ≤ c.toNat ∧ c.toNat ≤ 0xDF) ∧
    (classify Config.default c = .endOp ↔ 0xE0 ≤ c.toNat)) ∧
  (∀ (cfg : Config) (c : Byte), (∀ l : BitVec 6, cfg.pulseSelects l = false) →
    classify cfg c ≠ .pulse ∧ (modeField c = 0b11#2 → classify cfg c = .endOp))

/-- 30_encoding.md R75: the match and mask columns of the opcode map, for the default PULSE_SEL; the
rows do not overlap and cover all 256 values (each byte has the one class its row says). -/
def Obligations.OpcodeMapMasks : Prop :=
  ∀ c : Byte,
    (c &&& 0xC0#8 = 0x00#8 ↔ classify Config.default c = .gap) ∧
    (c &&& 0xC0#8 = 0x40#8 ↔ classify Config.default c = .solid) ∧
    (c &&& 0xC0#8 = 0x80#8 ↔ classify Config.default c = .gradient) ∧
    (c &&& 0xE0#8 = 0xC0#8 ↔ classify Config.default c = .pulse) ∧
    (c &&& 0xE0#8 = 0xE0#8 ↔ classify Config.default c = .endOp)

/-- 30_encoding.md R76: no control byte and no parameter byte is illegal. Every byte followed by
enough bytes decodes, on every instance, and the decoder refuses only for want of bytes. -/
def Obligations.NoIllegalBytes : Prop :=
  ∀ (cfg : Config) (bs : List Byte),
    (∀ c ps, bs = c :: ps → nParams (classify cfg c) ≤ ps.length →
      ∃ i rest, decodeProgram cfg bs = .ok i rest ∧
        bs.length = 1 + nParams (classify cfg c) + rest.length) ∧
    (∀ why, decodeProgram cfg bs = .rejected why →
      (why = .noControlByte ∧ bs = []) ∨
      (why = .missingParameters ∧
        ∃ c ps, bs = c :: ps ∧ ps.length < nParams (classify cfg c)))

/-- Sanity: words written out from the tables of 30_encoding.md R75, R79 decode to what they stand
for, one of each opcode. -/
def Obligations.TableWordsDecode : Prop :=
  decodeProgram Config.default [0x05#8] = .ok (.gap 5) [] ∧
  decodeProgram Config.default [0x7F#8, 0xC8#8] = .ok (.solid 63 200) [] ∧
  decodeProgram Config.default [0x80#8, 0x03#8, 0xFF#8, 0x80#8, 0x7F#8] =
    .ok (.gradient 0 3 ⟨0xFF, 0x80, 0x7F⟩) [] ∧
  decodeProgram Config.default
    [0xC0#8, 0x01#8, 0x02#8, 0x03#8, 0xFE#8, 0x00#8, 0x05#8, 0x00#8, 0x02#8, 0x09#8] =
    .ok (.pulse 0 ⟨1, 2, 3⟩ ⟨0xFE, 0, 5⟩ ⟨0, 2, 9⟩) [] ∧
  decodeProgram Config.default [0xFF#8] = .ok (.endOp 63) [] ∧
  decodeTableWord 8 0xE0 = some (.endOp 32)

/-- 30_encoding.md R81: the four command codes, with operands that fit their registers. -/
def Obligations.CommandCodes : Prop :=
  ∀ (cfg : Config) (a b : Nat),
    decodeCommand cfg ⟨0b00#2, a, b⟩ = .nop ∧
    (a < 2 ^ cfg.curW → b < 2 ^ cfg.npixW → decodeCommand cfg ⟨0b01#2, a, b⟩ = .init a b) ∧
    decodeCommand cfg ⟨0b10#2, a, b⟩ = .render ∧
    (b < 2 ^ cfg.stepW → decodeCommand cfg ⟨0b11#2, a, b⟩ = .advance b)

/-- 30_encoding.md R78, R79: for the default PULSE_SEL, the bytes of a legal written opcode decode, in
front of any bytes, to one opcode whose disassembly is what was written (a PULSE without `len` having
length 1). END is written as the byte 0xFF, and every byte 0xE0..0xFF disassembles as END. The text of a
program is read back as that program, and gives its bytes where every number is in its range, else
none. The rule's own example, with its plus sign. That blanks are dropped is the model's choice
(log 12). -/
def Obligations.AssemblyRoundTrip : Prop :=
  (∀ (a : AsmOp) (rest : List Byte), a.legal = true →
    ∃ i, decodeProgram Config.default (a.bytes ++ rest) = .ok i rest ∧
      disassemble i = some (match a with
        | .pulse len st delta en => .pulse (some (len.getD 1)) st delta en
        | a => a)) ∧
  AsmOp.endOp.bytes = [0xFF#8] ∧
  (∀ c : Byte, 0xE0 ≤ c.toNat →
    ∃ i, decodeProgram Config.default [c] = .ok i [] ∧ disassemble i = some .endOp) ∧
  (∀ p : List AsmOp, p ≠ [] →
    readAsm (asmText p).toList = some p ∧
      assembleText (asmText p) =
        if p.all AsmOp.legal = true then some (p.flatMap AsmOp.bytes) else none) ∧
  assembleText "[GRADIENT len=3 idx=0 delta=(+10,0,0), END]" =
    some [0x82#8, 0x00#8, 0x0A#8, 0x00#8, 0x00#8, 0xFF#8]

/-! ## Loads, one by one -/

/-- 41_run_modes.md R100. Encoding: the one byte 00LLLLLL. Load: with its byte inside the program GAP
makes the colour black, and writes nothing but MODE, REM, CUR, CURSOR. Fault: NO_END at or past PLEN.
Step: REM decreases, nothing else; with REM 0 the next opcode. Together: L + 1 black pixels. -/
def Obligations.GapRule : Prop :=
  ∀ (len : BitVec 6) (s : State),
    (∀ rest : List Byte, decodeProgram s.cfg ((0b00#2 ++ len) :: rest) = .ok (.gap len) rest) ∧
    (s.cursor < s.plen →
      exec (.gap len) s = .next
        { s with mode := .gap, rem := len, cur := ⟨0, 0, 0⟩, cursor := s.cursor + 1 }) ∧
    (s.plen ≤ s.cursor →
      exec (.gap len) s = .next
        { s with phase := .faulted, faultCode := .noEnd, faultAddr := s.cursor }) ∧
    (s.mode = .gap → s.rem ≠ 0 → advance s = .next { s with rem := s.rem - 1 }) ∧
    (s.mode = .gap → s.rem = 0 → advance s = runNextOpcode s) ∧
    (s.cursor < s.plen → s.phase ≠ .faulted → ∀ k, k ≤ len.toNat →
      ∃ t u, exec (.gap len) s = .next t ∧ advanceN k t = some u ∧ u.mode = .gap ∧
        u.cur = ⟨0, 0, 0⟩)

/-- 41_run_modes.md R101. Encoding: 01LLLLLL, idx. Load: CUR is the palette colour, and nothing is
written but MODE, REM, CUR, CURSOR. Faults: NO_END, TRUNCATED, PAL_INDEX, in this order. Step: REM
decreases, nothing else (the palette is not read again); with REM 0 the next opcode. The L + 1
consecutive colours are the palette's. -/
def Obligations.SolidRule : Prop :=
  ∀ (len : BitVec 6) (idx : Byte) (s : State),
    (∀ rest : List Byte,
      decodeProgram s.cfg ((0b01#2 ++ len) :: idx :: rest) = .ok (.solid len idx) rest) ∧
    (s.cursor + 2 ≤ s.plen → idx.toNat < s.cfg.palSize →
      exec (.solid len idx) s = .next
        { s with mode := .solid, rem := len, cur := s.palRead idx.toNat, cursor := s.cursor + 2 }) ∧
    (s.plen ≤ s.cursor →
      exec (.solid len idx) s = .next
        { s with phase := .faulted, faultCode := .noEnd, faultAddr := s.cursor }) ∧
    (s.cursor < s.plen → s.plen < s.cursor + 2 →
      exec (.solid len idx) s = .next
        { s with phase := .faulted, faultCode := .truncated, faultAddr := s.cursor }) ∧
    (s.cursor + 2 ≤ s.plen → s.cfg.palSize ≤ idx.toNat →
      exec (.solid len idx) s = .next
        { s with phase := .faulted, faultCode := .palIndex, faultAddr := s.cursor + 1 }) ∧
    (s.mode = .solid → s.rem ≠ 0 → advance s = .next { s with rem := s.rem - 1 }) ∧
    (s.mode = .solid → s.rem = 0 → advance s = runNextOpcode s) ∧
    (s.cursor + 2 ≤ s.plen → idx.toNat < s.cfg.palSize → s.phase ≠ .faulted →
      ∀ k, k ≤ len.toNat →
        ∃ t u, exec (.solid len idx) s = .next t ∧ advanceN k t = some u ∧ u.mode = .solid ∧
          u.cur = s.palRead idx.toNat)

/-- 41_run_modes.md R102. Encoding: 10LLLLLL, idx, dr, dg, db. Load: CUR is the palette colour, D the
delta bytes, and nothing else is written but MODE, REM, CURSOR. Faults: NO_END, TRUNCATED, PAL_INDEX,
in this order. Step: each channel becomes (CUR_c + sext8(D_c)) mod 256, REM decreases, nothing else;
with REM 0 the next opcode, nothing is added. The k-th colour of the run is Palette[i] + k*d per
channel, modulo 256, for k up to L. -/
def Obligations.GradientRule : Prop :=
  ∀ (len : BitVec 6) (idx : Byte) (d : Colour) (s : State),
    (∀ rest : List Byte,
      decodeProgram s.cfg ((0b10#2 ++ len) :: idx :: d.r :: d.g :: d.b :: rest) =
        .ok (.gradient len idx d) rest) ∧
    (s.cursor + 5 ≤ s.plen → idx.toNat < s.cfg.palSize →
      exec (.gradient len idx d) s = .next
        { s with
          mode := .gradient, rem := len, cur := s.palRead idx.toNat, delta := d
          cursor := s.cursor + 5 }) ∧
    (s.plen ≤ s.cursor →
      exec (.gradient len idx d) s = .next
        { s with phase := .faulted, faultCode := .noEnd, faultAddr := s.cursor }) ∧
    (s.cursor < s.plen → s.plen < s.cursor + 5 →
      exec (.gradient len idx d) s = .next
        { s with phase := .faulted, faultCode := .truncated, faultAddr := s.cursor }) ∧
    (s.cursor + 5 ≤ s.plen → s.cfg.palSize ≤ idx.toNat →
      exec (.gradient len idx d) s = .next
        { s with phase := .faulted, faultCode := .palIndex, faultAddr := s.cursor + 1 }) ∧
    (s.mode = .gradient → s.rem ≠ 0 →
      ∃ c : Colour, advance s = .next { s with cur := c, rem := s.rem - 1 } ∧
        ∀ ch : Channel,
          ((c.channel ch).toNat : Int) =
            (((s.cur.channel ch).toNat : Int) + sext8 (s.delta.channel ch)) % 256) ∧
    (s.mode = .gradient → s.rem = 0 → advance s = runNextOpcode s) ∧
    (s.cursor + 5 ≤ s.plen → idx.toNat < s.cfg.palSize → s.phase ≠ .faulted →
      ∀ k, k ≤ len.toNat →
        ∃ t u, exec (.gradient len idx d) s = .next t ∧ advanceN k t = some u ∧
          u.mode = .gradient ∧
          ∀ ch : Channel,
            ((u.cur.channel ch).toNat : Int) =
              ((((s.palRead idx.toNat).channel ch).toNat : Int) + k * sext8 (d.channel ch)) % 256)

/-- 42_pulse.md R110. Encoding: 110LLLLL for the default PULSE_SEL, then the nine bytes. Load: S, D and E
are the nine bytes, CUR is S, DIR forward, REM the L field, and nothing else is written but MODE and
CURSOR, whatever the bytes are. Faults: NO_END, then TRUNCATED where o + 10 > PLEN; no palette check.
While MODE is PULSE an advance is an oscillator step, whatever REM holds: REM is never read. -/
def Obligations.PulseLoadRule : Prop :=
  ∀ (len : BitVec 6) (st d en : Colour) (s : State),
    (∀ (l5 : BitVec 5) (rest : List Byte),
      decodeProgram Config.default
          ((0b110#3 ++ l5) :: st.r :: st.g :: st.b :: d.r :: d.g :: d.b :: en.r :: en.g :: en.b :: rest) =
        .ok (.pulse (0b0#1 ++ l5) st d en) rest) ∧
    (s.cursor + 10 ≤ s.plen →
      exec (.pulse len st d en) s = .next
        { s with
          mode := .pulse, rem := len, cur := st, delta := d, startBound := st, endBound := en
          dir := .forward, cursor := s.cursor + 10 }) ∧
    (s.plen ≤ s.cursor →
      exec (.pulse len st d en) s = .next
        { s with phase := .faulted, faultCode := .noEnd, faultAddr := s.cursor }) ∧
    (s.cursor < s.plen → s.plen < s.cursor + 10 →
      exec (.pulse len st d en) s = .next
        { s with phase := .faulted, faultCode := .truncated, faultAddr := s.cursor }) ∧
    (s.mode = .pulse → ∃ (c : Colour) (dir : Dir), ∀ r : BitVec 6,
      advance { s with rem := r } = .next { s with cur := c, dir := dir, rem := r })

/-- 40_decoder.md R91. END past offset 0 is the opcode at offset 0 run with CURSOR at 0, in the same
load: it emits nothing, spends no step, leaves PHASE, and CURSOR is past that opcode. The L field
plays no part. END at offset 0, or at both places, is EMPTY_LOOP(0) with nothing else changed. -/
def Obligations.EndRestarts : Prop :=
  ∀ (len : BitVec 6) (s : State),
    (s.cursor ≠ 0 → s.cursor < s.plen → ∀ i, fetchOpcode s 0 = .opcode i → (∀ l, i ≠ .endOp l) →
      (∀ l idx, i = .solid l idx → idx.toNat < s.cfg.palSize) →
      (∀ l idx d, i = .gradient l idx d → idx.toNat < s.cfg.palSize) →
      exec (.endOp len) s = exec i { s with cursor := 0 } ∧
        ∃ t, exec (.endOp len) s = .next t ∧ t.phase = s.phase ∧ t.tx = s.tx ∧ t.cursor = i.size) ∧
    (s.cursor = 0 → s.cursor < s.plen →
      exec (.endOp len) s = .next
        { s with phase := .faulted, faultCode := .emptyLoop, faultAddr := 0 }) ∧
    (s.cursor < s.plen → ∀ l, fetchOpcode s 0 = .opcode (.endOp l) →
      exec (.endOp len) s = .next
        { s with phase := .faulted, faultCode := .emptyLoop, faultAddr := 0 }) ∧
    (s.plen ≤ s.cursor →
      exec (.endOp len) s = .next
        { s with phase := .faulted, faultCode := .noEnd, faultAddr := s.cursor })

/-- 40_decoder.md R92, R93, R94. `LoadNext` always answers; the checks in their order and the address of
each, where `o` is CURSOR, or 0 after an END; and a load that faults changes PHASE, FAULTCODE and
FAULTADDR only. -/
def Obligations.LoadNextFaultsInOrder : Prop :=
  ∀ s : State, s.phase ≠ .faulted →
    ∃ t, runNextOpcode s = .next t ∧
      (t.phase = .faulted → SameData s t ∧ SameRest s t) ∧
      (s.plen ≤ s.cursor →
        t = { s with phase := .faulted, faultCode := .noEnd, faultAddr := s.cursor }) ∧
      (s.cursor < s.plen →
        ∀ o, o = (if classify s.cfg (s.progRead s.cursor) = .endOp then 0 else s.cursor) →
        ∀ k, k = classify s.cfg (s.progRead o) →
          (k = .endOp → t = { s with phase := .faulted, faultCode := .emptyLoop, faultAddr := 0 }) ∧
          (k ≠ .endOp → s.plen < o + 1 + nParams k →
            t = { s with phase := .faulted, faultCode := .truncated, faultAddr := o }) ∧
          (k = .solid ∨ k = .gradient → o + 1 + nParams k ≤ s.plen →
            s.cfg.palSize ≤ (s.progRead (o + 1)).toNat →
            t = { s with phase := .faulted, faultCode := .palIndex, faultAddr := o + 1 }) ∧
          (k ≠ .endOp → o + 1 + nParams k ≤ s.plen →
            ((k = .solid ∨ k = .gradient) → (s.progRead (o + 1)).toNat < s.cfg.palSize) →
            t.phase = s.phase ∧ t.cursor = o + 1 + nParams k))

/-- 40_decoder.md R90 with R100, R101, R102, R110 and 30_encoding.md R74: which program byte goes where,
for each opcode at CURSOR (no END first) that passes the checks. -/
def Obligations.LoadNextReadsTheOpcodeBytes : Prop :=
  ∀ (s : State) (o : Nat) (c : Byte), o = s.cursor → c = s.progRead o →
    (classify s.cfg c = .gap → o + 1 ≤ s.plen →
      runNextOpcode s = .next
        { s with mode := .gap, rem := lenField c, cur := ⟨0, 0, 0⟩, cursor := o + 1 }) ∧
    (classify s.cfg c = .solid → o + 2 ≤ s.plen → (s.progRead (o + 1)).toNat < s.cfg.palSize →
      runNextOpcode s = .next
        { s with
          mode := .solid, rem := lenField c, cur := s.palRead (s.progRead (o + 1)).toNat
          cursor := o + 2 }) ∧
    (classify s.cfg c = .gradient → o + 5 ≤ s.plen → (s.progRead (o + 1)).toNat < s.cfg.palSize →
      runNextOpcode s = .next
        { s with
          mode := .gradient, rem := lenField c, cur := s.palRead (s.progRead (o + 1)).toNat
          delta := ⟨s.progRead (o + 2), s.progRead (o + 3), s.progRead (o + 4)⟩
          cursor := o + 5 }) ∧
    (classify s.cfg c = .pulse → o + 10 ≤ s.plen →
      runNextOpcode s = .next
        { s with
          mode := .pulse, rem := lenField c
          cur := ⟨s.progRead (o + 1), s.progRead (o + 2), s.progRead (o + 3)⟩
          startBound := ⟨s.progRead (o + 1), s.progRead (o + 2), s.progRead (o + 3)⟩
          delta := ⟨s.progRead (o + 4), s.progRead (o + 5), s.progRead (o + 6)⟩
          endBound := ⟨s.progRead (o + 7), s.progRead (o + 8), s.progRead (o + 9)⟩
          dir := .forward, cursor := o + 10 })

/-- 40_decoder.md R90, R94; 60_exceptions.md R147: the frame of every program opcode. It leaves the
memories, the parameters, the host, PLEN, NPIX, CNT and TX; without a fault also PHASE and the fault
registers, and D, S, E, DIR unless the opcode owns them. -/
def Obligations.OpcodeFrame : Prop :=
  ∀ (i : Instr) (s t : State), i.isOpcode = true → s.phase ≠ .faulted → exec i s = .next t →
    SameRest s t ∧
      (t.phase = .faulted → SameData s t) ∧
      (t.phase ≠ .faulted →
        SameFault s t ∧
        ((∀ l, i ≠ .endOp l) → (∀ l st d en, i ≠ .pulse l st d en) →
          t.startBound = s.startBound ∧ t.endBound = s.endBound ∧ t.dir = s.dir ∧
            ((∀ l x d, i ≠ .gradient l x d) → t.delta = s.delta)))

/-! ## A step and its instruction -/

/-- 40_decoder.md R90, 41_run_modes.md R103, 43_commands_frame.md R123, R126: while the host is silent, a
pixel step that finds no run active runs exactly the instruction its bytes decode to. RENDERING emits
the colour first; CNT counts down afterwards unless PHASE became FAULTED. -/
def Obligations.StepRunsTheDecodedOpcode : Prop :=
  ∀ (s u : State) (i : Instr) (rest : List Byte),
    s.host = [] → s.cnt ≠ 0 → s.mode ≠ .pulse → s.rem = 0 → s.cursor < s.plen →
    decodeProgram s.cfg (s.progBytes s.cursor (s.plen - s.cursor)) = .ok i rest →
    (s.phase = .stepping ∧ u = s ∨
      s.phase = .rendering ∧ u = { s with tx := s.tx ++ [.color s.cur] }) →
      ∃ t, exec i u = .next t ∧
        step s = .next (if t.phase = .faulted then t else { t with cnt := t.cnt - 1 })

/-- 43_commands_frame.md R120, 30_encoding.md R81: a core that is not busy runs exactly the command the
host presents, decoded from the port, and the command is then no longer presented. -/
def Obligations.StepRunsThePresentedCommand : Prop :=
  ∀ (s : State) (w : CommandWord) (rest : List HostMove),
    s.host = .command w :: rest →
    (s.phase = .uninit ∨ s.phase = .ready ∨ s.phase = .faulted) →
      step s = exec (decodeCommand s.cfg w) { s with host := rest }

/-- 41_run_modes.md R106: after a load of a GAP, SOLID or GRADIENT opcode, REM holding L, the next L
advances are step parts in the same mode at the same CURSOR, REM counting down to 0, and the advance
after them is the next `LoadNext`. -/
def Obligations.RunLengthLaw : Prop :=
  ∀ s : State, s.mode ≠ .pulse → s.phase ≠ .faulted →
    ∀ k, k ≤ s.rem.toNat →
      ∃ u, advanceN k s = some u ∧ u.mode = s.mode ∧ u.cursor = s.cursor ∧
        u.rem.toNat = s.rem.toNat - k ∧
        (k < s.rem.toNat → ∃ v, advance u = .next v ∧ v.rem = u.rem - 1 ∧ v.cursor = u.cursor) ∧
        (k = s.rem.toNat → advance u = runNextOpcode u)

/-! ## The oscillator -/

/-- 42_pulse.md R112: a channel's candidate is the exact sum of CUR and the signed delta, or their
difference in reverse, within its ranges and not modulo 256: 250 + 10 is 260 and past every bound; in
reverse a delta of -128 moves the channel by +128. -/
def Obligations.CandidateNeverWraps : Prop :=
  ∀ (s : State) (ch : Channel),
    (s.dir = .forward →
      s.candidate ch = ((s.cur.channel ch).toNat : Int) + sext8 (s.delta.channel ch) ∧
        -128 ≤ s.candidate ch ∧ s.candidate ch ≤ 383) ∧
    (s.dir = .reverse →
      s.candidate ch = ((s.cur.channel ch).toNat : Int) - sext8 (s.delta.channel ch) ∧
        -127 ≤ s.candidate ch ∧ s.candidate ch ≤ 383) ∧
    (s.dir = .forward → s.cur.channel ch = 250 → s.delta.channel ch = 10 →
      s.candidate ch = 260 ∧ s.channelCrossed ch = true) ∧
    (s.dir = .reverse → s.delta.channel ch = 0x80 →
      s.candidate ch = ((s.cur.channel ch).toNat : Int) + 128)

/-- 42_pulse.md R113: strictly outside the closed interval between the bounds, whichever bound is the
higher, for every channel and both directions; a candidate equal to a bound has not crossed; with
equal bounds a channel at the common value crosses iff its delta is not 0. -/
def Obligations.CrossingIsStrict : Prop :=
  (∀ (s : State) (ch : Channel),
    (s.channelCrossed ch = true ↔
      s.candidate ch > max ((s.startBound.channel ch).toNat : Int) (s.endBound.channel ch).toNat ∨
      s.candidate ch < min ((s.startBound.channel ch).toNat : Int) (s.endBound.channel ch).toNat) ∧
    (s.candidate ch = (s.startBound.channel ch).toNat → s.channelCrossed ch = false) ∧
    (s.candidate ch = (s.endBound.channel ch).toNat → s.channelCrossed ch = false) ∧
    (s.startBound.channel ch = s.endBound.channel ch →
      (s.channelCrossed ch = true ↔ s.candidate ch ≠ (s.startBound.channel ch).toNat)) ∧
    (s.startBound.channel ch = s.endBound.channel ch → s.cur.channel ch = s.startBound.channel ch →
      (s.channelCrossed ch = true ↔ s.delta.channel ch ≠ 0))) ∧
  (∀ (x : Int) (st en : Byte),
    (st.toNat < en.toNat → (crossed x st en = true ↔ x > en.toNat ∨ x < st.toNat)) ∧
    (st.toNat > en.toNat → (crossed x st en = true ↔ x > st.toNat ∨ x < en.toNat)))

/-- 42_pulse.md R114 with R111: if some channel has crossed, all three become the bound chosen by DIR
alone and DIR toggles; if none has, the three candidates are stored and DIR stays. Nothing else
changes, no memory is read, and no fault is possible. -/
def Obligations.PulseClampAndReversal : Prop :=
  ∀ s : State, s.mode = .pulse →
    ((∃ ch, s.channelCrossed ch = true) → s.dir = .forward →
      advance s = .next { s with cur := s.endBound, dir := .reverse }) ∧
    ((∃ ch, s.channelCrossed ch = true) → s.dir = .reverse →
      advance s = .next { s with cur := s.startBound, dir := .forward }) ∧
    ((∀ ch, s.channelCrossed ch = false) →
      ∃ c : Colour, advance s = .next { s with cur := c } ∧
        ∀ ch, ((c.channel ch).toNat : Int) = s.candidate ch)

/-- 42_pulse.md R116 (a): after the load of a PULSE, and after every number of steps from then on, CUR
is between its bounds on every channel; R116 (f): with all deltas 0 it stays the start colour. -/
def Obligations.PulseStaysWithinBounds : Prop :=
  ∀ (len : BitVec 6) (st d en : Colour) (s : State), s.cursor + 10 ≤ s.plen → s.phase ≠ .faulted →
    ∃ t, exec (.pulse len st d en) s = .next t ∧
      ∀ n, ∃ u, advanceN n t = some u ∧ u.curWithin ∧
        (d = ⟨0, 0, 0⟩ → u.cur = st ∧ u.dir = .forward)

/-- 42_pulse.md R115: while a PULSE runs, any number of advances leaves MODE, CURSOR, REM, D, S and E;
and a step of the machine leaves PULSE mode only by an INIT or a reset of the host. -/
def Obligations.PulseNeverCompletes : Prop :=
  (∀ s : State, s.mode = .pulse → s.phase ≠ .faulted → ∀ n,
    ∃ u, advanceN n s = some u ∧ u.mode = .pulse ∧ u.cursor = s.cursor ∧ u.rem = s.rem ∧
      u.delta = s.delta ∧ u.startBound = s.startBound ∧ u.endBound = s.endBound) ∧
  (∀ s t : State, s.mode = .pulse → step s = .next t →
    t.mode = .pulse ∧ t.cursor = s.cursor ∧ t.rem = s.rem ∧ t.startBound = s.startBound ∧
        t.endBound = s.endBound ∧ t.delta = s.delta ∨
      (∃ rest, s.host = .reset :: rest) ∨
      (∃ w rest plen npix, s.host = .command w :: rest ∧ s.phase.busy = false ∧
        decodeCommand s.cfg w = .init plen npix))

/-- 42_pulse.md R116 (e): from the load of a PULSE in which each moving channel moves toward its end
bound and each channel that does not move has equal bounds, with `m` the least number of free steps
of a moving channel, CUR and DIR come back after 2 * (m + 1) steps, and reverse half way, at the end
colour. -/
def Obligations.PulsePeriod : Prop :=
  ∀ (s : State) (m : Nat),
    s.mode = .pulse → s.phase ≠ .faulted → s.dir = .forward → s.cur = s.startBound →
    (∀ ch, sext8 (s.delta.channel ch) = 0 → s.startBound.channel ch = s.endBound.channel ch) →
    (∀ ch, 0 ≤ sext8 (s.delta.channel ch) *
      (((s.endBound.channel ch).toNat : Int) - (s.startBound.channel ch).toNat)) →
    (∀ ch, sext8 (s.delta.channel ch) ≠ 0 →
      m * (sext8 (s.delta.channel ch)).natAbs ≤
        (((s.endBound.channel ch).toNat : Int) - (s.startBound.channel ch).toNat).natAbs) →
    (∃ ch, sext8 (s.delta.channel ch) ≠ 0 ∧
      (((s.endBound.channel ch).toNat : Int) - (s.startBound.channel ch).toNat).natAbs <
        (m + 1) * (sext8 (s.delta.channel ch)).natAbs) →
    (∃ u, advanceN (m + 1) s = some u ∧ u.cur = s.endBound ∧ u.dir = .reverse) ∧
      advanceN (2 * (m + 1)) s = some s

/-! ## Commands -/

/-- 43_commands_frame.md R128: command code 00 is NOP, and NOP changes nothing in any phase. -/
def Obligations.NopDoesNothing : Prop :=
  (∀ (cfg : Config) (a b : Nat), decodeCommand cfg ⟨0b00#2, a, b⟩ = .nop) ∧
    ∀ s : State, exec .nop s = .next s

/-- 43_commands_frame.md R121, 40_decoder.md R95: where the core is not busy and the program now in PROG
is well formed for the operands, INIT answers READY: PLEN and NPIX latched, no fault, the first opcode
run from CURSOR 0 as `exec` runs it, TX, CNT and the memories untouched. -/
def Obligations.InitBindsAndLoads : Prop :=
  ∀ (plen npix : Nat) (s s0 : State),
    s.phase.busy = false →
    s0 = { s with plen := plen, npix := npix, faultCode := .noFault, faultAddr := 0, cursor := 0 } →
    validate s0 = none →
      ∃ i u t, fetchOpcode s0 0 = .opcode i ∧ (∀ l, i ≠ .endOp l) ∧ exec i s0 = .next u ∧
        exec (.init plen npix) s = .next t ∧ t = { u with phase := .ready } ∧
        t.plen = plen ∧ t.npix = npix ∧ t.faultCode = .noFault ∧ t.faultAddr = 0 ∧
        t.cursor = i.size ∧ t.tx = s.tx ∧ t.cnt = s.cnt ∧ t.cfg = s.cfg ∧ t.host = s.host ∧
        (∀ a, Memory.read t.prog a = Memory.read s.prog a) ∧
        (∀ a, Memory.read t.pal a = Memory.read s.pal a)

/-- 43_commands_frame.md R121, 60_exceptions.md R147: where the core is not busy and the validation finds
an error, INIT latches PLEN and NPIX, enters that fault, and writes nothing else. -/
def Obligations.InitRejects : Prop :=
  ∀ (plen npix : Nat) (s s0 : State) (code : FaultCode) (addr : Nat),
    s.phase.busy = false →
    s0 = { s with plen := plen, npix := npix, faultCode := .noFault, faultAddr := 0 } →
    validate s0 = some (code, addr) →
      exec (.init plen npix) s = .next
        { s with
          plen := plen, npix := npix, phase := .faulted, faultCode := code, faultAddr := addr }

/-- 40_decoder.md R95: the verdict of the walk from offset `o` (`none` is OK), one turn at a time, by the
control byte's class; `Validate` is the verdict from 0. -/
def Obligations.ValidateWalksTheProgram : Prop :=
  ∀ (s : State) (verdict : Nat → Option (FaultCode × Nat)),
    (∀ o, verdict o = validateFrom s (s.plen + 1) o) →
      validate s = verdict 0 ∧
      ∀ o k, k = classify s.cfg (s.progRead o) →
        (s.plen ≤ o → verdict o = some (.noEnd, o)) ∧
        (o < s.plen → k = .endOp → verdict o = if o = 0 then some (.emptyLoop, 0) else none) ∧
        (o < s.plen → s.plen < o + 1 + nParams k → verdict o = some (.truncated, o)) ∧
        (o + 1 + nParams k ≤ s.plen → (k = .solid ∨ k = .gradient) →
          s.cfg.palSize ≤ (s.progRead (o + 1)).toNat → verdict o = some (.palIndex, o + 1)) ∧
        (o + 1 + nParams k ≤ s.plen → k = .pulse → verdict o = none) ∧
        (o + 1 + nParams k ≤ s.plen →
          (k = .gap ∨
            (k = .solid ∨ k = .gradient) ∧ (s.progRead (o + 1)).toNat < s.cfg.palSize) →
          verdict o = verdict (o + 1 + nParams k))

/-- 43_commands_frame.md R122: RENDER in READY begins the frame: CNT <- NPIX, PHASE <- RENDERING, and
nothing else (the pixel steps are steps of their own, log 9). -/
def Obligations.RenderBegins : Prop :=
  ∀ s : State, s.phase = .ready →
    exec .render s = .next { s with cnt := s.npix, phase := .rendering }

/-- 43_commands_frame.md R125: ADVANCE in READY begins the steps: CNT <- steps, PHASE <- STEPPING, and
nothing else (the silent steps are steps of their own, log 9). -/
def Obligations.AdvanceBegins : Prop :=
  ∀ (steps : Nat) (s : State), s.phase = .ready →
    exec (.advance steps) s = .next { s with cnt := steps, phase := .stepping }

/-- 43_commands_frame.md R120, 60_exceptions.md R146, R150: RENDER and ADVANCE in UNINIT are NOT_INIT(0)
and write nothing else; in FAULTED they do nothing. That `exec` of RENDER, ADVANCE or INIT while busy
changes nothing is the model's reading of "not accepted" (log 8). -/
def Obligations.CommandsByPhase : Prop :=
  ∀ (steps plen npix : Nat) (s : State),
    (s.phase = .uninit →
      exec .render s =
          .next { s with phase := .faulted, faultCode := .notInit, faultAddr := 0 } ∧
        exec (.advance steps) s =
          .next { s with phase := .faulted, faultCode := .notInit, faultAddr := 0 }) ∧
    (s.phase = .faulted → exec .render s = .next s ∧ exec (.advance steps) s = .next s) ∧
    (s.phase = .rendering ∨ s.phase = .stepping →
      exec .render s = .next s ∧ exec (.advance steps) s = .next s ∧
        exec (.init plen npix) s = .next s)

/-- 43_commands_frame.md R121, R122, R125, R128; 10_state.md R33, R34: no command touches the memories,
the parameters, TX or the host's moves; NOP, RENDER and ADVANCE touch no data register, PLEN or
NPIX either. -/
def Obligations.CommandFrame : Prop :=
  ∀ (i : Instr) (s t : State), i.isOpcode = false → exec i s = .next t →
    t.cfg = s.cfg ∧ t.tx = s.tx ∧ t.host = s.host ∧
      (∀ a, Memory.read t.prog a = Memory.read s.prog a) ∧
      (∀ a, Memory.read t.pal a = Memory.read s.pal a) ∧
      ((∀ p n, i ≠ .init p n) → SameData s t ∧ t.plen = s.plen ∧ t.npix = s.npix)

/-! ## Pixel steps and frames -/

/-- 43_commands_frame.md R123: while RENDERING with CNT > 0 the Color event of the current colour is
appended before `Advance` runs. If that `Advance` raises nothing, CNT counts down; if it faults, the
event is out, CNT stays, and the step ends there. -/
def Obligations.RenderPixelStepRule : Prop :=
  ∀ s e : State, s.host = [] → s.phase = .rendering → s.cnt ≠ 0 →
    e = { s with tx := s.tx ++ [.color s.cur] } →
      ∃ t, advance e = .next t ∧ t.tx = e.tx ∧ t.cnt = s.cnt ∧
        (t.phase ≠ .faulted → step s = .next { t with cnt := s.cnt - 1 }) ∧
        (t.phase = .faulted → step s = .next t)

/-- 43_commands_frame.md R126: while STEPPING with CNT > 0 a step is `Advance`, then CNT - 1; on a fault
PHASE is FAULTED and CNT stays; nothing is emitted. -/
def Obligations.SilentStepRule : Prop :=
  ∀ s : State, s.host = [] → s.phase = .stepping → s.cnt ≠ 0 →
    ∃ t, advance s = .next t ∧ t.tx = s.tx ∧ t.cnt = s.cnt ∧
      (t.phase ≠ .faulted → step s = .next { t with cnt := s.cnt - 1 }) ∧
      (t.phase = .faulted → step s = .next t)

/-- 43_commands_frame.md R124, R125: with CNT = 0 a frame ends with exactly one Idle and READY, an
ADVANCE with READY and no event; nothing else changes. That the serializer completes the Idle is an
assumption (44_serializer.md R139, log 16). -/
def Obligations.FrameEndRule : Prop :=
  ∀ s : State, s.host = [] → s.cnt = 0 →
    (s.phase = .rendering → step s = .next { s with tx := s.tx ++ [.idle], phase := .ready }) ∧
    (s.phase = .stepping → step s = .next { s with phase := .ready })

/-- 43_commands_frame.md R127: from a READY state, no fault arising, RENDER appends the colours of
`s, adv^1 s, …, adv^(N-1) s` and then Idle, N = NPIX, and ends READY in adv^N s; ADVANCE k appends
nothing and ends READY in adv^k s. Exactly N colours are emitted. That the run is one step to accept the
command, one for each pixel step and one to end is the model's choice (log 9), and that the serializer
takes every event, so that the frame ends, is an assumption (44_serializer.md R139, log 16). -/
def Obligations.BigStepForms : Prop :=
  (∀ (s t : State) (a b : Nat),
    s.phase = .ready → s.host = [.command ⟨0b10#2, a, b⟩] → advanceN s.npix s = some t →
      Host.Core.run core (s.npix + 2) s = .next
          { t with
            tx := s.tx ++ frameColours s.npix s ++ [.idle], cnt := 0, phase := .ready, host := [] } ∧
        (frameColours s.npix s).length = s.npix ∧
        (∀ e ∈ frameColours s.npix s, ∃ c, e = .color c)) ∧
  (∀ (s t : State) (a k : Nat),
    s.phase = .ready → s.host = [.command ⟨0b11#2, a, k⟩] → k < 2 ^ s.cfg.stepW →
    advanceN k s = some t →
      Host.Core.run core (k + 2) s = .next
        { t with tx := s.tx, cnt := 0, phase := .ready, host := [] })

/-- 43_commands_frame.md R125: ADVANCE a followed by ADVANCE b leaves the state of ADVANCE (a + b), when
a + b fits STEP_W bits, no fault arising; that accepting and ending take one step each is the model's
choice (log 9). -/
def Obligations.AdvanceAdds : Prop :=
  ∀ (s : State) (a b : Nat), s.phase = .ready → a + b < 2 ^ s.cfg.stepW →
    (advanceN (a + b) s).isSome = true →
      Host.Core.run core ((a + 2) + (b + 2))
          { s with host := [.command ⟨0b11#2, 0, a⟩, .command ⟨0b11#2, 0, b⟩] } =
        Host.Core.run core ((a + b) + 2) { s with host := [.command ⟨0b11#2, 0, a + b⟩] }

/-- 43_commands_frame.md R120, 70_reset_and_hazards.md R168: every command completes: with the host
silent, a busy core leaves RENDERING and STEPPING within CNT + 1 steps, from any state, faults
included, and no step of it stops. It assumes a serializer that completes (70_reset_and_hazards.md R168
(c), 44_serializer.md R139), which the model reads as one that takes every event at once (log 16); the
bound CNT + 1 counts the model's own steps (log 9). -/
def Obligations.EveryCommandCompletes : Prop :=
  ∀ s : State, s.host = [] → s.phase.busy = true →
    ∃ t, Host.Core.run core (s.cnt + 1) s = .next t ∧ (t.phase = .ready ∨ t.phase = .faulted)

/-! ## The whole machine -/

/-- The invariant `Inv` (10_state.md R32, R37; 20_memory.md R50) holds right after reset. -/
def Obligations.ResetMeetsTheInvariant : Prop := Inv State.reset

/-- 10_state.md R26, R32, R37; 42_pulse.md R116: from every state that meets the invariant, whatever the
host's next move, a step that answers a next state keeps it. -/
def Obligations.StepKeepsTheInvariant : Prop :=
  ∀ s t : State, Inv s → step s = .next t → Inv t

/-- 40_decoder.md R95: a program that INIT accepts is bound: the launch premise holds of the state INIT
leaves. -/
def Obligations.AcceptedInitIsBound : Prop :=
  ∀ (plen npix : Nat) (s t : State), s.phase.busy = false →
    exec (.init plen npix) s = .next t → t.phase = .ready → Bound t

/-- 40_decoder.md R95, 70_reset_and_hazards.md R168: while a well-formed program is bound and the host
does not write PROG or PAL, every step answers a next state, and the next state is bound too, unless
the host's move is a reset or an INIT: no later `LoadNext` can raise any fault. CURSOR stays on an
opcode boundary of the linear decode (10_state.md R37 (b)). -/
def Obligations.BoundProgramNeverFaults : Prop :=
  ∀ s : State, Bound s → (∀ m rest, s.host = m :: rest → m.writesMemory = false) →
    ∃ t, step s = .next t ∧
      (Bound t ∧ t.phase ≠ .faulted ∧ t.faultCode = s.faultCode ∨
        (∃ rest, s.host = .reset :: rest) ∨
        (∃ w rest plen npix, s.host = .command w :: rest ∧ s.phase.busy = false ∧
          decodeCommand s.cfg w = .init plen npix))

/-- 60_exceptions.md R150: a faulted core keeps its fault, its data registers and TX through every step
but a reset (to UNINIT) and an INIT, which ends READY with the fault cleared or FAULTED anew. -/
def Obligations.FaultedUntilInitOrReset : Prop :=
  ∀ s t : State, s.phase = .faulted → step s = .next t →
    (SameFault s t ∧ SameData s t ∧ t.tx = s.tx) ∨
      (∃ rest, s.host = .reset :: rest ∧ t.phase = .uninit) ∨
      (∃ w rest plen npix, s.host = .command w :: rest ∧
        decodeCommand s.cfg w = .init plen npix ∧
        (t.phase = .ready ∧ t.faultCode = .noFault ∧ t.faultAddr = 0 ∨ t.phase = .faulted))

/-- 43_commands_frame.md R120: while the core is busy a command is not accepted: the step is the core's
own, the same as with a silent host. The rest is the model's choice, no rule of the spec: that the
command stays pending (log 8), and that a write of the host presented then is not taken either and
stays pending (log 6); 70_reset_and_hazards.md R170 only forbids the host to present them. -/
def Obligations.BusyCoreTakesNoMove : Prop :=
  ∀ (s : State) (m : HostMove) (rest : List HostMove),
    s.phase.busy = true → s.host = m :: rest → m.waitsWhileBusy = true →
      ∃ t, step s = .next { t with host := m :: rest } ∧ step { s with host := [] } = .next t ∧
        t.host = []

/-- 10_state.md R31: the transitions of PHASE, one step at a time, with what makes each. -/
def Obligations.PhaseTransitions : Prop :=
  ∀ s t : State, step s = .next t → t.phase ≠ s.phase →
    (∃ rest, s.host = .reset :: rest ∧ t.phase = .uninit) ∨
    (∃ w rest p n, s.host = .command w :: rest ∧ decodeCommand s.cfg w = .init p n ∧
      s.phase.busy = false ∧ (t.phase = .ready ∨ t.phase = .faulted)) ∨
    (∃ w rest, s.host = .command w :: rest ∧ decodeCommand s.cfg w = .render ∧
      (s.phase = .ready ∧ t.phase = .rendering ∨ s.phase = .uninit ∧ t.phase = .faulted)) ∨
    (∃ w rest k, s.host = .command w :: rest ∧ decodeCommand s.cfg w = .advance k ∧
      (s.phase = .ready ∧ t.phase = .stepping ∨ s.phase = .uninit ∧ t.phase = .faulted)) ∨
    (s.phase.busy = true ∧ (t.phase = .ready ∧ s.cnt = 0 ∨ t.phase = .faulted ∧ s.cnt ≠ 0))

/-- 20_memory.md R50, R55, R60, R61; 10_state.md R34: no step changes a parameter; no step changes a byte
of PROG or PAL but the host's own write, and that changes the one byte it names. The model's choices,
no rules of the spec: that a hardware reset leaves PROG and PAL (log 10), and that no write lands while
the core is busy (log 6). -/
def Obligations.CoreWritesNoMemory : Prop :=
  ∀ s t : State, step s = .next t →
    t.cfg = s.cfg ∧
    (∀ a, Memory.read t.prog a ≠ Memory.read s.prog a →
      s.phase.busy = false ∧ ∃ b rest, s.host = .writeProg a b :: rest) ∧
    (∀ a, Memory.read t.pal a ≠ Memory.read s.pal a →
      s.phase.busy = false ∧ ∃ b rest, s.host = .writePal a b :: rest)

/-- 10_state.md R36, 44_serializer.md R135, R138: but for a reset, a step appends at most one event to
TX: a Color, which is CUR, only while RENDERING with CNT > 0, or Idle, only where a frame ends. -/
def Obligations.TxIsAppendOnly : Prop :=
  ∀ s t : State, step s = .next t → (∀ rest, s.host ≠ .reset :: rest) →
    t.tx = s.tx ∧ s.phase ≠ .rendering ∨
    (t.tx = s.tx ++ [.color s.cur] ∧ s.phase = .rendering ∧ s.cnt ≠ 0) ∨
    (t.tx = s.tx ++ [.idle] ∧ s.phase = .rendering ∧ s.cnt = 0 ∧ t.phase = .ready)

/-- 43_commands_frame.md R129: while the core is not busy, nothing but an INIT (or a reset) changes a data
register. -/
def Obligations.DataChangesOnlyByCommands : Prop :=
  ∀ s t : State, s.phase.busy = false → step s = .next t →
    SameData s t ∨ (∃ rest, s.host = .reset :: rest) ∨
      (∃ w rest p n, s.host = .command w :: rest ∧ decodeCommand s.cfg w = .init p n)

/-- 70_reset_and_hazards.md R165: hardware reset leaves PHASE = UNINIT, FAULTCODE = NONE, FAULTADDR = 0
and TX empty, from every state of the instance; so does the state after power-on. Nothing of the core's
registers is carried through: two states of one instance, with one host and the same memories, are
the same after it (that the unspecified registers are then alike is the model's choice, log 4, and
that the memories stay, log 10; no value of theirs is named). -/
def Obligations.ResetValues : Prop :=
  (State.reset.phase = .uninit ∧ State.reset.faultCode = .noFault ∧ State.reset.faultAddr = 0 ∧
    State.reset.tx = []) ∧
  ∀ s : State,
    s.hardReset.phase = .uninit ∧ s.hardReset.faultCode = .noFault ∧ s.hardReset.faultAddr = 0 ∧
      s.hardReset.tx = [] ∧
      ∀ u : State, u.cfg = s.cfg → u.prog = s.prog → u.pal = s.pal → u.host = s.host →
        u.hardReset = s.hardReset

/-- 70_reset_and_hazards.md R166: reset is taken in any phase, RENDERING included, without an event; that
PROG, PAL and the parameters stay is the model's choice (log 10). -/
def Obligations.ResetInAnyPhase : Prop :=
  ∀ (s : State) (rest : List HostMove), s.host = .reset :: rest →
    ∃ t, step s = .next t ∧ t.phase = .uninit ∧ t.faultCode = .noFault ∧ t.faultAddr = 0 ∧
      t.tx = [] ∧ t.host = rest ∧ t.cfg = s.cfg ∧
      (∀ a, Memory.read t.prog a = Memory.read s.prog a) ∧
      (∀ a, Memory.read t.pal a = Memory.read s.pal a)

/-- 10_state.md R33: a status read gives PHASE, FAULTCODE, FAULTADDR at any time, and CUR in READY,
RENDERING and STEPPING; nothing is said of CUR in the other phases. -/
def Obligations.StatusRead : Prop :=
  ∀ (s : State) (draw : Nat),
    (s.status draw).phase = s.phase ∧ (s.status draw).faultCode = s.faultCode ∧
      (s.status draw).faultAddr = s.faultAddr ∧
      (s.phase = .ready ∨ s.phase = .rendering ∨ s.phase = .stepping →
        (s.status draw).cur = s.cur)

/-- 60_exceptions.md R146: the numeric fault codes. -/
def Obligations.FaultNumbers : Prop :=
  FaultCode.noFault.number = 0 ∧ FaultCode.notInit.number = 1 ∧ FaultCode.noEnd.number = 2 ∧
    FaultCode.truncated.number = 3 ∧ FaultCode.emptyLoop.number = 4 ∧ FaultCode.palIndex.number = 5

/-- 20_memory.md R51, R52, R61: a byte the host writes is what is read there afterwards, every other byte
reads as before, the memory stays canonical, and no register changes; a palette entry whose three
bytes are written is read as that colour. -/
def Obligations.HostWritesAreRead : Prop :=
  (∀ (s : State) (off : Nat) (b : Byte) (rest : List HostMove),
    s.phase.busy = false → Memory.wf s.prog = true → off < 2 ^ s.cfg.curW →
    s.host = .writeProg off b :: rest →
      ∃ m, step s = .next { s with prog := m, host := rest } ∧ Memory.wf m = true ∧
        ∀ a, Memory.read m a = if a = off then b else Memory.read s.prog a) ∧
  (∀ (s : State) (addr : Nat) (b : Byte) (rest : List HostMove),
    s.phase.busy = false → Memory.wf s.pal = true → addr < 3 * s.cfg.palSize →
    s.host = .writePal addr b :: rest →
      ∃ m, step s = .next { s with pal := m, host := rest } ∧ Memory.wf m = true ∧
        ∀ a, Memory.read m a = if a = addr then b else Memory.read s.pal a) ∧
  (∀ (s : State) (i : Nat) (c : Colour) (rest : List HostMove),
    s.phase.busy = false → Memory.wf s.pal = true → i < s.cfg.palSize →
    s.host = .writePal (3 * i) c.r :: .writePal (3 * i + 1) c.g :: .writePal (3 * i + 2) c.b :: rest →
      ∃ t, Host.Core.run core 3 s = .next t ∧ t.palRead i = c ∧
        ∀ j, j ≠ i → t.palRead j = s.palRead j)

/-- The model's choice (log 14), from 20_memory.md R50, R56: a host write to a byte that PROG or PAL does
not have, and nothing else, stops a step. -/
def Obligations.OnlyMissingBytesStop : Prop :=
  ∀ s : State,
    (∃ t, step s = .next t) ↔
      ¬ (s.phase.busy = false ∧
        ((∃ off b rest, s.host = .writeProg off b :: rest ∧ 2 ^ s.cfg.curW ≤ off) ∨
         (∃ addr b rest, s.host = .writePal addr b :: rest ∧ 3 * s.cfg.palSize ≤ addr)))

/-- 20_memory.md R51, R60, 40_decoder.md R92: decoding never reads past PLEN. Whatever stands at or past
PLEN, `Validate` gives the same verdict and a load does the same to the registers. -/
def Obligations.NothingReadPastPlen : Prop :=
  ∀ (s : State) (m : Memory), (∀ a, a < s.plen → Memory.read m a = Memory.read s.prog a) →
    validate { s with prog := m } = validate s ∧
      ∀ t, runNextOpcode s = .next t → runNextOpcode { s with prog := m } = .next { t with prog := m }

/-- 40_decoder.md R98: let a well-formed program have no PULSE before its first END, `ops` be its runs
`op_1 .. op_m`, P the sum of their lengths, and `s` the state after INIT. Then for every k the
registers CURSOR, MODE, REM and CUR after k + P advances are those after k; so are S, E and DIR, which
no such run writes, and D from the first GRADIENT on. And the m-th colour of run `op_j` is the one
read after the runs before it and m more advances. -/
def Obligations.ProgramsArePeriodic : Prop :=
  ∀ (s0 s : State) (plen npix : Nat) (ops : List Instr),
    s0.phase.busy = false → exec (.init plen npix) s0 = .next s → s.phase = .ready →
    runsFrom s (s.plen + 1) 0 = some ops →
      (∀ k, ∃ t u, advanceN k s = some t ∧ advanceN (k + totalLength ops) s = some u ∧
        u.cursor = t.cursor ∧ u.mode = t.mode ∧ u.rem = t.rem ∧ u.cur = t.cur ∧
        u.startBound = t.startBound ∧ u.endBound = t.endBound ∧ u.dir = t.dir ∧
        ∀ j len idx d, ops[j]? = some (.gradient len idx d) → totalLength (ops.take j) ≤ k →
          u.delta = t.delta) ∧
      (∀ j i m, ops[j]? = some i → m < runLength i →
        ∃ t, advanceN (totalLength (ops.take j) + m) s = some t ∧ isRunColour s t.cur m i)

/-! ## Serialization -/

/-- 44_serializer.md R136: a Color event is the three channel bytes in the instance's wire order, each of
the six orders named; a stream of events is those of its events in order, nothing between, before or
after: n colours are exactly 3 * n bytes. The rule's two examples. -/
def Obligations.WireByteOrder : Prop :=
  (∀ c : Colour,
    wireBytes .rgb [.color c] = [.byte c.r, .byte c.g, .byte c.b] ∧
    wireBytes .rbg [.color c] = [.byte c.r, .byte c.b, .byte c.g] ∧
    wireBytes .grb [.color c] = [.byte c.g, .byte c.r, .byte c.b] ∧
    wireBytes .gbr [.color c] = [.byte c.g, .byte c.b, .byte c.r] ∧
    wireBytes .brg [.color c] = [.byte c.b, .byte c.r, .byte c.g] ∧
    wireBytes .bgr [.color c] = [.byte c.b, .byte c.g, .byte c.r]) ∧
  (∀ (order : WireOrder) (a b : List Event),
    wireBytes order (a ++ b) = wireBytes order a ++ wireBytes order b) ∧
  (∀ (order : WireOrder) (cs : List Colour),
    (wireBytes order (cs.map .color)).length = 3 * cs.length) ∧
  wireBytes .rgb [.color ⟨10, 20, 30⟩] = [.byte 0x0A, .byte 0x14, .byte 0x1E] ∧
  wireBytes .grb [.color ⟨10, 20, 30⟩] = [.byte 0x14, .byte 0x0A, .byte 0x1E]

/-- 44_serializer.md R137: a byte is its eight bits, bit 7 first; a frame of N pixels is 24 * N bit
symbols followed by one idle request. The rule's example. -/
def Obligations.WireBitOrder : Prop :=
  (∀ (v : Byte) (k : Nat), k < 8 →
    (ByteEvent.byte v).symbols.length = 8 ∧
      (ByteEvent.byte v).symbols[k]? = some (.bit (v.getLsbD (7 - k)))) ∧
  (∀ (order : WireOrder) (cs : List Colour),
    ∃ bits : List Bool, bits.length = 24 * cs.length ∧
      wireSymbols order (cs.map .color ++ [.idle]) = bits.map .bit ++ [.idle]) ∧
  (ByteEvent.byte 0x0A).symbols =
    [.bit false, .bit false, .bit false, .bit false, .bit true, .bit false, .bit true, .bit false]
end

