-- ==== Sys2Proof/Laws/State.lean ====
section
/-! SUPPORT. One lemma per field per register update, each true by rfl. -/

namespace Sys2Proof.Machine.State

section
variable (s : State) (e : Event)

@[simp] theorem emit_cfg : (s.emit e).cfg = s.cfg := rfl
@[simp] theorem emit_prog : (s.emit e).prog = s.prog := rfl
@[simp] theorem emit_pal : (s.emit e).pal = s.pal := rfl
@[simp] theorem emit_cur : (s.emit e).cur = s.cur := rfl
@[simp] theorem emit_delta : (s.emit e).delta = s.delta := rfl
@[simp] theorem emit_startBound : (s.emit e).startBound = s.startBound := rfl
@[simp] theorem emit_endBound : (s.emit e).endBound = s.endBound := rfl
@[simp] theorem emit_rem : (s.emit e).rem = s.rem := rfl
@[simp] theorem emit_mode : (s.emit e).mode = s.mode := rfl
@[simp] theorem emit_dir : (s.emit e).dir = s.dir := rfl
@[simp] theorem emit_cursor : (s.emit e).cursor = s.cursor := rfl
@[simp] theorem emit_plen : (s.emit e).plen = s.plen := rfl
@[simp] theorem emit_npix : (s.emit e).npix = s.npix := rfl
@[simp] theorem emit_cnt : (s.emit e).cnt = s.cnt := rfl
@[simp] theorem emit_phase : (s.emit e).phase = s.phase := rfl
@[simp] theorem emit_faultCode : (s.emit e).faultCode = s.faultCode := rfl
@[simp] theorem emit_faultAddr : (s.emit e).faultAddr = s.faultAddr := rfl
@[simp] theorem emit_tx : (s.emit e).tx = s.tx ++ [e] := rfl
@[simp] theorem emit_host : (s.emit e).host = s.host := rfl
end

section
variable (s : State) (m : Mode) (l : BitVec 6) (c : Colour) (o : Nat)

@[simp] theorem loadRun_cfg : (s.loadRun m l c o).cfg = s.cfg := rfl
@[simp] theorem loadRun_prog : (s.loadRun m l c o).prog = s.prog := rfl
@[simp] theorem loadRun_pal : (s.loadRun m l c o).pal = s.pal := rfl
@[simp] theorem loadRun_cur : (s.loadRun m l c o).cur = c := rfl
@[simp] theorem loadRun_delta : (s.loadRun m l c o).delta = s.delta := rfl
@[simp] theorem loadRun_startBound : (s.loadRun m l c o).startBound = s.startBound := rfl
@[simp] theorem loadRun_endBound : (s.loadRun m l c o).endBound = s.endBound := rfl
@[simp] theorem loadRun_rem : (s.loadRun m l c o).rem = l := rfl
@[simp] theorem loadRun_mode : (s.loadRun m l c o).mode = m := rfl
@[simp] theorem loadRun_dir : (s.loadRun m l c o).dir = s.dir := rfl
@[simp] theorem loadRun_cursor : (s.loadRun m l c o).cursor = o := rfl
@[simp] theorem loadRun_plen : (s.loadRun m l c o).plen = s.plen := rfl
@[simp] theorem loadRun_npix : (s.loadRun m l c o).npix = s.npix := rfl
@[simp] theorem loadRun_cnt : (s.loadRun m l c o).cnt = s.cnt := rfl
@[simp] theorem loadRun_phase : (s.loadRun m l c o).phase = s.phase := rfl
@[simp] theorem loadRun_faultCode : (s.loadRun m l c o).faultCode = s.faultCode := rfl
@[simp] theorem loadRun_faultAddr : (s.loadRun m l c o).faultAddr = s.faultAddr := rfl
@[simp] theorem loadRun_tx : (s.loadRun m l c o).tx = s.tx := rfl
@[simp] theorem loadRun_host : (s.loadRun m l c o).host = s.host := rfl
end

section
variable (s : State) (d : Colour)

@[simp] theorem setDelta_cfg : (s.setDelta d).cfg = s.cfg := rfl
@[simp] theorem setDelta_prog : (s.setDelta d).prog = s.prog := rfl
@[simp] theorem setDelta_pal : (s.setDelta d).pal = s.pal := rfl
@[simp] theorem setDelta_cur : (s.setDelta d).cur = s.cur := rfl
@[simp] theorem setDelta_delta : (s.setDelta d).delta = d := rfl
@[simp] theorem setDelta_startBound : (s.setDelta d).startBound = s.startBound := rfl
@[simp] theorem setDelta_endBound : (s.setDelta d).endBound = s.endBound := rfl
@[simp] theorem setDelta_rem : (s.setDelta d).rem = s.rem := rfl
@[simp] theorem setDelta_mode : (s.setDelta d).mode = s.mode := rfl
@[simp] theorem setDelta_dir : (s.setDelta d).dir = s.dir := rfl
@[simp] theorem setDelta_cursor : (s.setDelta d).cursor = s.cursor := rfl
@[simp] theorem setDelta_plen : (s.setDelta d).plen = s.plen := rfl
@[simp] theorem setDelta_npix : (s.setDelta d).npix = s.npix := rfl
@[simp] theorem setDelta_cnt : (s.setDelta d).cnt = s.cnt := rfl
@[simp] theorem setDelta_phase : (s.setDelta d).phase = s.phase := rfl
@[simp] theorem setDelta_faultCode : (s.setDelta d).faultCode = s.faultCode := rfl
@[simp] theorem setDelta_faultAddr : (s.setDelta d).faultAddr = s.faultAddr := rfl
@[simp] theorem setDelta_tx : (s.setDelta d).tx = s.tx := rfl
@[simp] theorem setDelta_host : (s.setDelta d).host = s.host := rfl
end

section
variable (s : State) (a b : Colour)

@[simp] theorem setPulse_cfg : (s.setPulse a b).cfg = s.cfg := rfl
@[simp] theorem setPulse_prog : (s.setPulse a b).prog = s.prog := rfl
@[simp] theorem setPulse_pal : (s.setPulse a b).pal = s.pal := rfl
@[simp] theorem setPulse_cur : (s.setPulse a b).cur = s.cur := rfl
@[simp] theorem setPulse_delta : (s.setPulse a b).delta = s.delta := rfl
@[simp] theorem setPulse_startBound : (s.setPulse a b).startBound = a := rfl
@[simp] theorem setPulse_endBound : (s.setPulse a b).endBound = b := rfl
@[simp] theorem setPulse_rem : (s.setPulse a b).rem = s.rem := rfl
@[simp] theorem setPulse_mode : (s.setPulse a b).mode = s.mode := rfl
@[simp] theorem setPulse_dir : (s.setPulse a b).dir = .forward := rfl
@[simp] theorem setPulse_cursor : (s.setPulse a b).cursor = s.cursor := rfl
@[simp] theorem setPulse_plen : (s.setPulse a b).plen = s.plen := rfl
@[simp] theorem setPulse_npix : (s.setPulse a b).npix = s.npix := rfl
@[simp] theorem setPulse_cnt : (s.setPulse a b).cnt = s.cnt := rfl
@[simp] theorem setPulse_phase : (s.setPulse a b).phase = s.phase := rfl
@[simp] theorem setPulse_faultCode : (s.setPulse a b).faultCode = s.faultCode := rfl
@[simp] theorem setPulse_faultAddr : (s.setPulse a b).faultAddr = s.faultAddr := rfl
@[simp] theorem setPulse_tx : (s.setPulse a b).tx = s.tx := rfl
@[simp] theorem setPulse_host : (s.setPulse a b).host = s.host := rfl
end

section
variable (s : State) (c : Colour)

@[simp] theorem setCur_cfg : (s.setCur c).cfg = s.cfg := rfl
@[simp] theorem setCur_prog : (s.setCur c).prog = s.prog := rfl
@[simp] theorem setCur_pal : (s.setCur c).pal = s.pal := rfl
@[simp] theorem setCur_cur : (s.setCur c).cur = c := rfl
@[simp] theorem setCur_delta : (s.setCur c).delta = s.delta := rfl
@[simp] theorem setCur_startBound : (s.setCur c).startBound = s.startBound := rfl
@[simp] theorem setCur_endBound : (s.setCur c).endBound = s.endBound := rfl
@[simp] theorem setCur_rem : (s.setCur c).rem = s.rem := rfl
@[simp] theorem setCur_mode : (s.setCur c).mode = s.mode := rfl
@[simp] theorem setCur_dir : (s.setCur c).dir = s.dir := rfl
@[simp] theorem setCur_cursor : (s.setCur c).cursor = s.cursor := rfl
@[simp] theorem setCur_plen : (s.setCur c).plen = s.plen := rfl
@[simp] theorem setCur_npix : (s.setCur c).npix = s.npix := rfl
@[simp] theorem setCur_cnt : (s.setCur c).cnt = s.cnt := rfl
@[simp] theorem setCur_phase : (s.setCur c).phase = s.phase := rfl
@[simp] theorem setCur_faultCode : (s.setCur c).faultCode = s.faultCode := rfl
@[simp] theorem setCur_faultAddr : (s.setCur c).faultAddr = s.faultAddr := rfl
@[simp] theorem setCur_tx : (s.setCur c).tx = s.tx := rfl
@[simp] theorem setCur_host : (s.setCur c).host = s.host := rfl
end

section
variable (s : State) (d : Dir)

@[simp] theorem setDir_cfg : (s.setDir d).cfg = s.cfg := rfl
@[simp] theorem setDir_prog : (s.setDir d).prog = s.prog := rfl
@[simp] theorem setDir_pal : (s.setDir d).pal = s.pal := rfl
@[simp] theorem setDir_cur : (s.setDir d).cur = s.cur := rfl
@[simp] theorem setDir_delta : (s.setDir d).delta = s.delta := rfl
@[simp] theorem setDir_startBound : (s.setDir d).startBound = s.startBound := rfl
@[simp] theorem setDir_endBound : (s.setDir d).endBound = s.endBound := rfl
@[simp] theorem setDir_rem : (s.setDir d).rem = s.rem := rfl
@[simp] theorem setDir_mode : (s.setDir d).mode = s.mode := rfl
@[simp] theorem setDir_dir : (s.setDir d).dir = d := rfl
@[simp] theorem setDir_cursor : (s.setDir d).cursor = s.cursor := rfl
@[simp] theorem setDir_plen : (s.setDir d).plen = s.plen := rfl
@[simp] theorem setDir_npix : (s.setDir d).npix = s.npix := rfl
@[simp] theorem setDir_cnt : (s.setDir d).cnt = s.cnt := rfl
@[simp] theorem setDir_phase : (s.setDir d).phase = s.phase := rfl
@[simp] theorem setDir_faultCode : (s.setDir d).faultCode = s.faultCode := rfl
@[simp] theorem setDir_faultAddr : (s.setDir d).faultAddr = s.faultAddr := rfl
@[simp] theorem setDir_tx : (s.setDir d).tx = s.tx := rfl
@[simp] theorem setDir_host : (s.setDir d).host = s.host := rfl
end

section
variable (s : State) (n : BitVec 6)

@[simp] theorem setRem_cfg : (s.setRem n).cfg = s.cfg := rfl
@[simp] theorem setRem_prog : (s.setRem n).prog = s.prog := rfl
@[simp] theorem setRem_pal : (s.setRem n).pal = s.pal := rfl
@[simp] theorem setRem_cur : (s.setRem n).cur = s.cur := rfl
@[simp] theorem setRem_delta : (s.setRem n).delta = s.delta := rfl
@[simp] theorem setRem_startBound : (s.setRem n).startBound = s.startBound := rfl
@[simp] theorem setRem_endBound : (s.setRem n).endBound = s.endBound := rfl
@[simp] theorem setRem_rem : (s.setRem n).rem = n := rfl
@[simp] theorem setRem_mode : (s.setRem n).mode = s.mode := rfl
@[simp] theorem setRem_dir : (s.setRem n).dir = s.dir := rfl
@[simp] theorem setRem_cursor : (s.setRem n).cursor = s.cursor := rfl
@[simp] theorem setRem_plen : (s.setRem n).plen = s.plen := rfl
@[simp] theorem setRem_npix : (s.setRem n).npix = s.npix := rfl
@[simp] theorem setRem_cnt : (s.setRem n).cnt = s.cnt := rfl
@[simp] theorem setRem_phase : (s.setRem n).phase = s.phase := rfl
@[simp] theorem setRem_faultCode : (s.setRem n).faultCode = s.faultCode := rfl
@[simp] theorem setRem_faultAddr : (s.setRem n).faultAddr = s.faultAddr := rfl
@[simp] theorem setRem_tx : (s.setRem n).tx = s.tx := rfl
@[simp] theorem setRem_host : (s.setRem n).host = s.host := rfl
end

section
variable (s : State) (o : Nat)

@[simp] theorem setCursor_cfg : (s.setCursor o).cfg = s.cfg := rfl
@[simp] theorem setCursor_prog : (s.setCursor o).prog = s.prog := rfl
@[simp] theorem setCursor_pal : (s.setCursor o).pal = s.pal := rfl
@[simp] theorem setCursor_cur : (s.setCursor o).cur = s.cur := rfl
@[simp] theorem setCursor_delta : (s.setCursor o).delta = s.delta := rfl
@[simp] theorem setCursor_startBound : (s.setCursor o).startBound = s.startBound := rfl
@[simp] theorem setCursor_endBound : (s.setCursor o).endBound = s.endBound := rfl
@[simp] theorem setCursor_rem : (s.setCursor o).rem = s.rem := rfl
@[simp] theorem setCursor_mode : (s.setCursor o).mode = s.mode := rfl
@[simp] theorem setCursor_dir : (s.setCursor o).dir = s.dir := rfl
@[simp] theorem setCursor_cursor : (s.setCursor o).cursor = o := rfl
@[simp] theorem setCursor_plen : (s.setCursor o).plen = s.plen := rfl
@[simp] theorem setCursor_npix : (s.setCursor o).npix = s.npix := rfl
@[simp] theorem setCursor_cnt : (s.setCursor o).cnt = s.cnt := rfl
@[simp] theorem setCursor_phase : (s.setCursor o).phase = s.phase := rfl
@[simp] theorem setCursor_faultCode : (s.setCursor o).faultCode = s.faultCode := rfl
@[simp] theorem setCursor_faultAddr : (s.setCursor o).faultAddr = s.faultAddr := rfl
@[simp] theorem setCursor_tx : (s.setCursor o).tx = s.tx := rfl
@[simp] theorem setCursor_host : (s.setCursor o).host = s.host := rfl
end

section
variable (s : State) (n : Nat)

@[simp] theorem setCnt_cfg : (s.setCnt n).cfg = s.cfg := rfl
@[simp] theorem setCnt_prog : (s.setCnt n).prog = s.prog := rfl
@[simp] theorem setCnt_pal : (s.setCnt n).pal = s.pal := rfl
@[simp] theorem setCnt_cur : (s.setCnt n).cur = s.cur := rfl
@[simp] theorem setCnt_delta : (s.setCnt n).delta = s.delta := rfl
@[simp] theorem setCnt_startBound : (s.setCnt n).startBound = s.startBound := rfl
@[simp] theorem setCnt_endBound : (s.setCnt n).endBound = s.endBound := rfl
@[simp] theorem setCnt_rem : (s.setCnt n).rem = s.rem := rfl
@[simp] theorem setCnt_mode : (s.setCnt n).mode = s.mode := rfl
@[simp] theorem setCnt_dir : (s.setCnt n).dir = s.dir := rfl
@[simp] theorem setCnt_cursor : (s.setCnt n).cursor = s.cursor := rfl
@[simp] theorem setCnt_plen : (s.setCnt n).plen = s.plen := rfl
@[simp] theorem setCnt_npix : (s.setCnt n).npix = s.npix := rfl
@[simp] theorem setCnt_cnt : (s.setCnt n).cnt = n := rfl
@[simp] theorem setCnt_phase : (s.setCnt n).phase = s.phase := rfl
@[simp] theorem setCnt_faultCode : (s.setCnt n).faultCode = s.faultCode := rfl
@[simp] theorem setCnt_faultAddr : (s.setCnt n).faultAddr = s.faultAddr := rfl
@[simp] theorem setCnt_tx : (s.setCnt n).tx = s.tx := rfl
@[simp] theorem setCnt_host : (s.setCnt n).host = s.host := rfl
end

section
variable (s : State) (p : Phase)

@[simp] theorem setPhase_cfg : (s.setPhase p).cfg = s.cfg := rfl
@[simp] theorem setPhase_prog : (s.setPhase p).prog = s.prog := rfl
@[simp] theorem setPhase_pal : (s.setPhase p).pal = s.pal := rfl
@[simp] theorem setPhase_cur : (s.setPhase p).cur = s.cur := rfl
@[simp] theorem setPhase_delta : (s.setPhase p).delta = s.delta := rfl
@[simp] theorem setPhase_startBound : (s.setPhase p).startBound = s.startBound := rfl
@[simp] theorem setPhase_endBound : (s.setPhase p).endBound = s.endBound := rfl
@[simp] theorem setPhase_rem : (s.setPhase p).rem = s.rem := rfl
@[simp] theorem setPhase_mode : (s.setPhase p).mode = s.mode := rfl
@[simp] theorem setPhase_dir : (s.setPhase p).dir = s.dir := rfl
@[simp] theorem setPhase_cursor : (s.setPhase p).cursor = s.cursor := rfl
@[simp] theorem setPhase_plen : (s.setPhase p).plen = s.plen := rfl
@[simp] theorem setPhase_npix : (s.setPhase p).npix = s.npix := rfl
@[simp] theorem setPhase_cnt : (s.setPhase p).cnt = s.cnt := rfl
@[simp] theorem setPhase_phase : (s.setPhase p).phase = p := rfl
@[simp] theorem setPhase_faultCode : (s.setPhase p).faultCode = s.faultCode := rfl
@[simp] theorem setPhase_faultAddr : (s.setPhase p).faultAddr = s.faultAddr := rfl
@[simp] theorem setPhase_tx : (s.setPhase p).tx = s.tx := rfl
@[simp] theorem setPhase_host : (s.setPhase p).host = s.host := rfl
end

section
variable (s : State) (p n : Nat)

@[simp] theorem bindProgram_cfg : (s.bindProgram p n).cfg = s.cfg := rfl
@[simp] theorem bindProgram_prog : (s.bindProgram p n).prog = s.prog := rfl
@[simp] theorem bindProgram_pal : (s.bindProgram p n).pal = s.pal := rfl
@[simp] theorem bindProgram_cur : (s.bindProgram p n).cur = s.cur := rfl
@[simp] theorem bindProgram_delta : (s.bindProgram p n).delta = s.delta := rfl
@[simp] theorem bindProgram_startBound : (s.bindProgram p n).startBound = s.startBound := rfl
@[simp] theorem bindProgram_endBound : (s.bindProgram p n).endBound = s.endBound := rfl
@[simp] theorem bindProgram_rem : (s.bindProgram p n).rem = s.rem := rfl
@[simp] theorem bindProgram_mode : (s.bindProgram p n).mode = s.mode := rfl
@[simp] theorem bindProgram_dir : (s.bindProgram p n).dir = s.dir := rfl
@[simp] theorem bindProgram_cursor : (s.bindProgram p n).cursor = s.cursor := rfl
@[simp] theorem bindProgram_plen : (s.bindProgram p n).plen = p := rfl
@[simp] theorem bindProgram_npix : (s.bindProgram p n).npix = n := rfl
@[simp] theorem bindProgram_cnt : (s.bindProgram p n).cnt = s.cnt := rfl
@[simp] theorem bindProgram_phase : (s.bindProgram p n).phase = s.phase := rfl
@[simp] theorem bindProgram_faultCode : (s.bindProgram p n).faultCode = .noFault := rfl
@[simp] theorem bindProgram_faultAddr : (s.bindProgram p n).faultAddr = 0 := rfl
@[simp] theorem bindProgram_tx : (s.bindProgram p n).tx = s.tx := rfl
@[simp] theorem bindProgram_host : (s.bindProgram p n).host = s.host := rfl
end

section
variable (s : State) (h : List HostMove)

@[simp] theorem setHost_cfg : (s.setHost h).cfg = s.cfg := rfl
@[simp] theorem setHost_prog : (s.setHost h).prog = s.prog := rfl
@[simp] theorem setHost_pal : (s.setHost h).pal = s.pal := rfl
@[simp] theorem setHost_cur : (s.setHost h).cur = s.cur := rfl
@[simp] theorem setHost_delta : (s.setHost h).delta = s.delta := rfl
@[simp] theorem setHost_startBound : (s.setHost h).startBound = s.startBound := rfl
@[simp] theorem setHost_endBound : (s.setHost h).endBound = s.endBound := rfl
@[simp] theorem setHost_rem : (s.setHost h).rem = s.rem := rfl
@[simp] theorem setHost_mode : (s.setHost h).mode = s.mode := rfl
@[simp] theorem setHost_dir : (s.setHost h).dir = s.dir := rfl
@[simp] theorem setHost_cursor : (s.setHost h).cursor = s.cursor := rfl
@[simp] theorem setHost_plen : (s.setHost h).plen = s.plen := rfl
@[simp] theorem setHost_npix : (s.setHost h).npix = s.npix := rfl
@[simp] theorem setHost_cnt : (s.setHost h).cnt = s.cnt := rfl
@[simp] theorem setHost_phase : (s.setHost h).phase = s.phase := rfl
@[simp] theorem setHost_faultCode : (s.setHost h).faultCode = s.faultCode := rfl
@[simp] theorem setHost_faultAddr : (s.setHost h).faultAddr = s.faultAddr := rfl
@[simp] theorem setHost_tx : (s.setHost h).tx = s.tx := rfl
@[simp] theorem setHost_host : (s.setHost h).host = h := rfl
end

section
variable (s : State) (m : Memory)

@[simp] theorem setProg_cfg : (s.setProg m).cfg = s.cfg := rfl
@[simp] theorem setProg_prog : (s.setProg m).prog = m := rfl
@[simp] theorem setProg_pal : (s.setProg m).pal = s.pal := rfl
@[simp] theorem setProg_cur : (s.setProg m).cur = s.cur := rfl
@[simp] theorem setProg_delta : (s.setProg m).delta = s.delta := rfl
@[simp] theorem setProg_startBound : (s.setProg m).startBound = s.startBound := rfl
@[simp] theorem setProg_endBound : (s.setProg m).endBound = s.endBound := rfl
@[simp] theorem setProg_rem : (s.setProg m).rem = s.rem := rfl
@[simp] theorem setProg_mode : (s.setProg m).mode = s.mode := rfl
@[simp] theorem setProg_dir : (s.setProg m).dir = s.dir := rfl
@[simp] theorem setProg_cursor : (s.setProg m).cursor = s.cursor := rfl
@[simp] theorem setProg_plen : (s.setProg m).plen = s.plen := rfl
@[simp] theorem setProg_npix : (s.setProg m).npix = s.npix := rfl
@[simp] theorem setProg_cnt : (s.setProg m).cnt = s.cnt := rfl
@[simp] theorem setProg_phase : (s.setProg m).phase = s.phase := rfl
@[simp] theorem setProg_faultCode : (s.setProg m).faultCode = s.faultCode := rfl
@[simp] theorem setProg_faultAddr : (s.setProg m).faultAddr = s.faultAddr := rfl
@[simp] theorem setProg_tx : (s.setProg m).tx = s.tx := rfl
@[simp] theorem setProg_host : (s.setProg m).host = s.host := rfl
end

section
variable (s : State) (m : Memory)

@[simp] theorem setPal_cfg : (s.setPal m).cfg = s.cfg := rfl
@[simp] theorem setPal_prog : (s.setPal m).prog = s.prog := rfl
@[simp] theorem setPal_pal : (s.setPal m).pal = m := rfl
@[simp] theorem setPal_cur : (s.setPal m).cur = s.cur := rfl
@[simp] theorem setPal_delta : (s.setPal m).delta = s.delta := rfl
@[simp] theorem setPal_startBound : (s.setPal m).startBound = s.startBound := rfl
@[simp] theorem setPal_endBound : (s.setPal m).endBound = s.endBound := rfl
@[simp] theorem setPal_rem : (s.setPal m).rem = s.rem := rfl
@[simp] theorem setPal_mode : (s.setPal m).mode = s.mode := rfl
@[simp] theorem setPal_dir : (s.setPal m).dir = s.dir := rfl
@[simp] theorem setPal_cursor : (s.setPal m).cursor = s.cursor := rfl
@[simp] theorem setPal_plen : (s.setPal m).plen = s.plen := rfl
@[simp] theorem setPal_npix : (s.setPal m).npix = s.npix := rfl
@[simp] theorem setPal_cnt : (s.setPal m).cnt = s.cnt := rfl
@[simp] theorem setPal_phase : (s.setPal m).phase = s.phase := rfl
@[simp] theorem setPal_faultCode : (s.setPal m).faultCode = s.faultCode := rfl
@[simp] theorem setPal_faultAddr : (s.setPal m).faultAddr = s.faultAddr := rfl
@[simp] theorem setPal_tx : (s.setPal m).tx = s.tx := rfl
@[simp] theorem setPal_host : (s.setPal m).host = s.host := rfl
end

section
variable (s : State) (c : FaultCode) (a : Nat)

@[simp] theorem faultEntry_cfg : (s.faultEntry c a).cfg = s.cfg := rfl
@[simp] theorem faultEntry_prog : (s.faultEntry c a).prog = s.prog := rfl
@[simp] theorem faultEntry_pal : (s.faultEntry c a).pal = s.pal := rfl
@[simp] theorem faultEntry_cur : (s.faultEntry c a).cur = s.cur := rfl
@[simp] theorem faultEntry_delta : (s.faultEntry c a).delta = s.delta := rfl
@[simp] theorem faultEntry_startBound : (s.faultEntry c a).startBound = s.startBound := rfl
@[simp] theorem faultEntry_endBound : (s.faultEntry c a).endBound = s.endBound := rfl
@[simp] theorem faultEntry_rem : (s.faultEntry c a).rem = s.rem := rfl
@[simp] theorem faultEntry_mode : (s.faultEntry c a).mode = s.mode := rfl
@[simp] theorem faultEntry_dir : (s.faultEntry c a).dir = s.dir := rfl
@[simp] theorem faultEntry_cursor : (s.faultEntry c a).cursor = s.cursor := rfl
@[simp] theorem faultEntry_plen : (s.faultEntry c a).plen = s.plen := rfl
@[simp] theorem faultEntry_npix : (s.faultEntry c a).npix = s.npix := rfl
@[simp] theorem faultEntry_cnt : (s.faultEntry c a).cnt = s.cnt := rfl
@[simp] theorem faultEntry_phase : (s.faultEntry c a).phase = .faulted := rfl
@[simp] theorem faultEntry_faultCode : (s.faultEntry c a).faultCode = c := rfl
@[simp] theorem faultEntry_faultAddr : (s.faultEntry c a).faultAddr = a := rfl
@[simp] theorem faultEntry_tx : (s.faultEntry c a).tx = s.tx := rfl
@[simp] theorem faultEntry_host : (s.faultEntry c a).host = s.host := rfl
end

section
variable (s : State)

@[simp] theorem hardReset_cfg : s.hardReset.cfg = s.cfg := rfl
@[simp] theorem hardReset_prog : s.hardReset.prog = s.prog := rfl
@[simp] theorem hardReset_pal : s.hardReset.pal = s.pal := rfl
@[simp] theorem hardReset_cur : s.hardReset.cur = Colour.black := rfl
@[simp] theorem hardReset_delta : s.hardReset.delta = Colour.black := rfl
@[simp] theorem hardReset_startBound : s.hardReset.startBound = Colour.black := rfl
@[simp] theorem hardReset_endBound : s.hardReset.endBound = Colour.black := rfl
@[simp] theorem hardReset_rem : s.hardReset.rem = 0 := rfl
@[simp] theorem hardReset_mode : s.hardReset.mode = .gap := rfl
@[simp] theorem hardReset_dir : s.hardReset.dir = .forward := rfl
@[simp] theorem hardReset_cursor : s.hardReset.cursor = 0 := rfl
@[simp] theorem hardReset_plen : s.hardReset.plen = 0 := rfl
@[simp] theorem hardReset_npix : s.hardReset.npix = 0 := rfl
@[simp] theorem hardReset_cnt : s.hardReset.cnt = 0 := rfl
@[simp] theorem hardReset_phase : s.hardReset.phase = .uninit := rfl
@[simp] theorem hardReset_faultCode : s.hardReset.faultCode = .noFault := rfl
@[simp] theorem hardReset_faultAddr : s.hardReset.faultAddr = 0 := rfl
@[simp] theorem hardReset_tx : s.hardReset.tx = [] := rfl
@[simp] theorem hardReset_host : s.hardReset.host = s.host := rfl
end

end Sys2Proof.Machine.State
end

