-- ==== Sys2Proof/Laws/Arith.lean ====
section
/-! SUPPORT. The signed reading of a byte, the GRADIENT addition, and the oscillator's arithmetic. -/

namespace Sys2Proof.Machine

/-- `sext8` is the two's-complement reading (00_scope.md R8). -/
theorem sext8_eq_toInt (b : Byte) : sext8 b = b.toInt := by
  unfold sext8
  rw [BitVec.toInt_eq_toNat_cond]
  have := b.isLt
  split <;> split <;> omega

theorem sext8_range (b : Byte) : -128 ≤ sext8 b ∧ sext8 b ≤ 127 := by
  unfold sext8
  have := b.isLt
  split <;> omega

/-- The signed reading of the delta is immaterial to GRADIENT (41_run_modes.md R105): the sum is the
8-bit addition. -/
theorem channelAdd_eq (c d : Byte) : channelAdd c d = c + d := by
  unfold channelAdd
  rw [sext8_eq_toInt]
  apply BitVec.eq_of_toInt_eq
  rw [BitVec.toInt_ofInt, BitVec.toInt_add]
  have hc : (c.toNat : Int) = c.toInt ∨ (c.toNat : Int) = c.toInt + 256 := by
    rw [BitVec.toInt_eq_toNat_cond]
    split <;> omega
  rcases hc with h | h
  · rw [h]
  · rw [h, show c.toInt + 256 + d.toInt = c.toInt + d.toInt + (2 ^ 8 : Nat) by push_cast; omega]
    exact Int.add_bmod_right _ _

theorem addDelta_eq (c d : Colour) : Colour.addDelta c d = ⟨c.r + d.r, c.g + d.g, c.b + d.b⟩ := by
  simp [Colour.addDelta, channelAdd_eq]

/-- A candidate that has not crossed lies between two bytes: it is a byte. -/
theorem not_crossed_iff (x : Int) (st en : Byte) :
    crossed x st en = false ↔
      min (st.toNat : Int) en.toNat ≤ x ∧ x ≤ max (st.toNat : Int) en.toNat := by
  simp only [crossed, Bool.or_eq_false_iff, decide_eq_false_iff_not, not_lt, gt_iff_lt]
  exact and_comm

theorem toNat_ofInt_byte {x : Int} (h0 : 0 ≤ x) (h1 : x < 256) :
    ((BitVec.ofInt 8 x).toNat : Int) = x := by
  rw [BitVec.toNat_ofInt]
  omega

/-- An uncrossed candidate is stored exactly, within the bounds (42_pulse.md R116 (a)). -/
theorem within_of_not_crossed {x : Int} {st en : Byte} (h : crossed x st en = false) :
    ((BitVec.ofInt 8 x).toNat : Int) = x ∧ within (BitVec.ofInt 8 x) st en := by
  rw [not_crossed_iff] at h
  have h1 := st.isLt
  have h2 := en.isLt
  have hx : ((BitVec.ofInt 8 x).toNat : Int) = x := toNat_ofInt_byte (by omega) (by omega)
  refine ⟨hx, ?_⟩
  unfold within
  omega

theorem within_start (st en : Byte) : within st st en := by
  unfold within; omega

theorem within_end (st en : Byte) : within en st en := by
  unfold within; omega

theorem reverses_eq_false {s : State} (h : s.reverses = false) (c : Channel) :
    s.channelCrossed c = false := by
  simp only [State.reverses, Bool.or_eq_false_iff] at h
  cases c
  · exact h.1.1
  · exact h.1.2
  · exact h.2

theorem candidateColour_channel (s : State) (c : Channel) :
    s.candidateColour.channel c = BitVec.ofInt 8 (s.candidate c) := by
  cases c <;> rfl

/-- What an oscillator step can do (42_pulse.md R111, R114): jump to the bound approached and toggle,
or store the candidates. -/
theorem pulseStep_cases (s : State) :
    (s.reverses = true ∧ pulseStep s = (s.setCur s.clampTarget).setDir s.dir.flip) ∨
    (s.reverses = false ∧ pulseStep s = s.setCur s.candidateColour) := by
  unfold pulseStep
  cases h : s.reverses
  · exact .inr ⟨rfl, by simp⟩
  · exact .inl ⟨rfl, by simp⟩

/-- An oscillator step writes CUR and DIR only. -/
theorem pulseStep_eq (s : State) :
    ∃ c d, pulseStep s = (s.setCur c).setDir d := by
  rcases pulseStep_cases s with ⟨_, h⟩ | ⟨_, h⟩
  · exact ⟨_, _, h⟩
  · exact ⟨s.candidateColour, s.dir, h⟩

/-- After an oscillator step CUR is within the bounds, whatever it was before
(42_pulse.md R116 (a)). -/
theorem pulseStep_curWithin (s : State) : (pulseStep s).curWithin := by
  rcases pulseStep_cases s with ⟨_, h⟩ | ⟨hr, h⟩
  · rw [h]
    intro c
    simp only [State.setDir_cur, State.setCur_cur, State.setDir_startBound, State.setCur_startBound,
      State.setDir_endBound, State.setCur_endBound, State.clampTarget]
    cases s.dir
    · exact within_end _ _
    · exact within_start _ _
  · rw [h]
    intro c
    simp only [State.setCur_cur, State.setCur_startBound, State.setCur_endBound,
      candidateColour_channel]
    exact (within_of_not_crossed (reverses_eq_false hr c)).2

end Sys2Proof.Machine
end

