-- ==== Sys2Proof/Laws/Assembly.lean ====
section
/-! SUPPORT. How the reader of assembly text splits a text: numbers, appended pieces, signed numbers. -/

namespace Sys2Proof.Machine

theorem lex_append (a b : String) (ts : List Token) :
    (a ++ b).toList.foldr lexChar ts = a.toList.foldr lexChar (b.toList.foldr lexChar ts) := by
  rw [String.toList_append, List.foldr_append]

theorem ofDigitChars_add (l : List Char) (a : Nat) :
    Nat.ofDigitChars 10 l a = a * 10 ^ l.length + Nat.ofDigitChars 10 l 0 := by
  induction l generalizing a with
  | nil => simp [Nat.ofDigitChars]
  | cons c l ih =>
    rw [Nat.ofDigitChars_cons, ih, Nat.ofDigitChars_cons, ih (10 * 0 + _), List.length_cons, pow_succ]
    ring

/-- Digits in front of no number are one number. -/
theorem lex_digits {ts : List Token} (hts : ∀ k v r, ts ≠ .num k v :: r) {l : List Char}
    (h : ∀ c ∈ l, c.isDigit = true) (hl : l ≠ []) :
    l.foldr lexChar ts = .num l.length (Nat.ofDigitChars 10 l 0) :: ts := by
  induction l with
  | nil => exact absurd rfl hl
  | cons c l ih =>
    have hc := h c (.head _)
    rw [List.foldr_cons, Nat.ofDigitChars_cons, ofDigitChars_add, Nat.mul_zero, Nat.zero_add]
    by_cases hn : l = []
    · subst hn
      simp only [List.foldr_nil, lexChar, hc, if_true]
      simp [Nat.ofDigitChars]
    · rw [ih (fun d hd => h d (.tail _ hd)) hn]
      simp [lexChar, hc]

/-- The text of a number is read as that number. -/
theorem lex_nat (n : Nat) {ts : List Token} (hts : ∀ k v r, ts ≠ .num k v :: r) :
    (toString n).toList.foldr lexChar ts = .num (Nat.toDigits 10 n).length n :: ts := by
  have h := lex_digits hts (l := Nat.toDigits 10 n)
    (fun c hc => Nat.isDigit_of_mem_toDigits (by decide) (by decide) hc) Nat.toDigits_ne_nil
  rw [Nat.ofDigitChars_toDigits (by decide) (by decide)] at h
  rw [← h, show (toString n).toList = Nat.toDigits 10 n from Nat.toList_repr]

/-- The tokens a signed number is written in. -/
def signedTokens : Int → List Token
  | .ofNat n => [.num (Nat.toDigits 10 n).length n]
  | .negSucc n => [.sym '-', .num (Nat.toDigits 10 (n + 1)).length (n + 1)]

/-- The text of a signed number, and what `readSigned` makes of its tokens. -/
theorem lex_int (z : Int) {ts : List Token} (hts : ∀ k v r, ts ≠ .num k v :: r) :
    (toString z).toList.foldr lexChar ts = signedTokens z ++ ts := by
  cases z with
  | ofNat n => exact lex_nat n hts
  | negSucc n =>
    show ("-" ++ toString (n + 1)).toList.foldr lexChar ts = _
    rw [lex_append, lex_nat _ hts]
    rfl

theorem readSigned_signedTokens (z : Int) (ts : List Token) :
    readSigned (signedTokens z ++ ts) = some (z, ts) := by
  cases z <;> rfl

end Sys2Proof.Machine
end

