-- ==== Sys2Proof/Laws/Encoding.lean ====
section
/-! SUPPORT. The decoder and the encoder: fields, one lemma per format, what the decoder can answer. -/

namespace Sys2Proof

theorem modeField_controlByte (m : BitVec 2) (l : BitVec 6) : modeField (controlByte m l) = m := by
  revert m l; decide

theorem lenField_controlByte (m : BitVec 2) (l : BitVec 6) : lenField (controlByte m l) = l := by
  revert m l; decide

theorem controlByte_fields (c : Byte) : controlByte (modeField c) (lenField c) = c := by
  revert c; decide

theorem modeField_cases (c : Byte) :
    modeField c = 0b00#2 ∨ modeField c = 0b01#2 ∨ modeField c = 0b10#2 ∨ modeField c = 0b11#2 := by
  revert c; decide

/-- `Classify` of a control byte built from its fields (30_encoding.md R73). -/
theorem classify_controlByte (cfg : Config) (m : BitVec 2) (l : BitVec 6) :
    classify cfg (controlByte m l) =
      if m = 0b00#2 then .gap else if m = 0b01#2 then .solid else if m = 0b10#2 then .gradient
      else if cfg.pulseSelects l then .pulse else .endOp := by
  unfold classify
  rw [modeField_controlByte, lenField_controlByte]

/-- What `Classify` says of the fields (30_encoding.md R73), class by class. -/
theorem classify_spec (cfg : Config) (c : Byte) :
    match classify cfg c with
    | .gap => modeField c = 0b00#2
    | .solid => modeField c = 0b01#2
    | .gradient => modeField c = 0b10#2
    | .pulse => modeField c = 0b11#2 ∧ cfg.pulseSelects (lenField c) = true
    | .endOp => modeField c = 0b11#2 ∧ cfg.pulseSelects (lenField c) = false := by
  unfold classify
  rcases modeField_cases c with h | h | h | h <;> rw [h]
  · simp
  · simp
  · simp
  · cases cfg.pulseSelects (lenField c) <;> simp

theorem decodeProgram_gap (cfg : Config) (l : BitVec 6) (rest : List Byte) :
    decodeProgram cfg (programBytes (.gap l) ++ rest) = .ok (.gap l) rest := by
  simp [decodeProgram, programBytes, classify_controlByte, lenField_controlByte]

theorem decodeProgram_solid (cfg : Config) (l : BitVec 6) (idx : Byte) (rest : List Byte) :
    decodeProgram cfg (programBytes (.solid l idx) ++ rest) = .ok (.solid l idx) rest := by
  simp [decodeProgram, programBytes, classify_controlByte, lenField_controlByte, decodeSolid]

theorem decodeProgram_gradient (cfg : Config) (l : BitVec 6) (idx : Byte) (d : Colour)
    (rest : List Byte) :
    decodeProgram cfg (programBytes (.gradient l idx d) ++ rest) = .ok (.gradient l idx d) rest := by
  simp [decodeProgram, programBytes, classify_controlByte, lenField_controlByte, decodeGradient,
    Colour.bytes]

theorem decodeProgram_pulse (cfg : Config) (l : BitVec 6) (st d en : Colour) (rest : List Byte)
    (h : cfg.pulseSelects l = true) :
    decodeProgram cfg (programBytes (.pulse l st d en) ++ rest) = .ok (.pulse l st d en) rest := by
  simp [decodeProgram, programBytes, classify_controlByte, lenField_controlByte, decodePulse,
    Colour.bytes, h]

theorem decodeProgram_endOp (cfg : Config) (l : BitVec 6) (rest : List Byte)
    (h : cfg.pulseSelects l = false) :
    decodeProgram cfg (programBytes (.endOp l) ++ rest) = .ok (.endOp l) rest := by
  simp [decodeProgram, programBytes, classify_controlByte, lenField_controlByte, h]

/-- What the program decoder can answer `ok` with: one opcode of its class, its fields, its bytes. -/
theorem decodeProgram_cases {cfg : Config} {bs : List Byte} {i : Instr} {rest : List Byte}
    (h : decodeProgram cfg bs = .ok i rest) :
    ∃ c ps, bs = c :: ps ∧
      ((classify cfg c = .gap ∧ i = .gap (lenField c) ∧ rest = ps) ∨
       (classify cfg c = .solid ∧ ∃ idx, ps = idx :: rest ∧ i = .solid (lenField c) idx) ∨
       (classify cfg c = .gradient ∧ ∃ idx dr dg db, ps = idx :: dr :: dg :: db :: rest ∧
          i = .gradient (lenField c) idx ⟨dr, dg, db⟩) ∨
       (classify cfg c = .pulse ∧ ∃ sr sg sb dr dg db er eg eb,
          ps = sr :: sg :: sb :: dr :: dg :: db :: er :: eg :: eb :: rest ∧
          i = .pulse (lenField c) ⟨sr, sg, sb⟩ ⟨dr, dg, db⟩ ⟨er, eg, eb⟩) ∨
       (classify cfg c = .endOp ∧ i = .endOp (lenField c) ∧ rest = ps)) := by
  match bs with
  | [] => simp [decodeProgram] at h
  | c :: ps =>
    refine ⟨c, ps, rfl, ?_⟩
    unfold decodeProgram at h
    cases hc : classify cfg c <;> simp only [hc] at h
    · obtain ⟨rfl, rfl⟩ := Decoded.ok.inj h
      exact .inl ⟨rfl, rfl, rfl⟩
    · unfold decodeSolid at h
      split at h
      · obtain ⟨rfl, rfl⟩ := Decoded.ok.inj h
        exact .inr (.inl ⟨rfl, _, rfl, rfl⟩)
      · cases h
    · unfold decodeGradient at h
      split at h
      · obtain ⟨rfl, rfl⟩ := Decoded.ok.inj h
        exact .inr (.inr (.inl ⟨rfl, _, _, _, _, rfl, rfl⟩))
      · cases h
    · unfold decodePulse at h
      split at h
      · obtain ⟨rfl, rfl⟩ := Decoded.ok.inj h
        exact .inr (.inr (.inr (.inl ⟨rfl, _, _, _, _, _, _, _, _, _, rfl, rfl⟩)))
      · cases h
    · obtain ⟨rfl, rfl⟩ := Decoded.ok.inj h
      exact .inr (.inr (.inr (.inr ⟨rfl, rfl, rfl⟩)))

/-- A decoded instruction is a program opcode of `size` bytes (30_encoding.md R70). -/
theorem decodeProgram_size {cfg : Config} {bs : List Byte} {i : Instr} {rest : List Byte}
    (h : decodeProgram cfg bs = .ok i rest) :
    i.isOpcode = true ∧ bs.length = i.size + rest.length := by
  obtain ⟨c, ps, rfl, hc⟩ := decodeProgram_cases h
  clear h
  rcases hc with ⟨_, rfl, rfl⟩ | ⟨_, _, rfl, rfl⟩ | ⟨_, _, _, _, _, rfl, rfl⟩ |
    ⟨_, _, _, _, _, _, _, _, _, _, rfl, rfl⟩ | ⟨_, rfl, rfl⟩ <;>
    refine ⟨rfl, ?_⟩ <;> simp only [List.length_cons, Instr.size] <;> omega

/-- A program opcode has at least one byte. -/
theorem size_pos {i : Instr} (h : i.isOpcode = true) : 1 ≤ i.size := by
  cases i <;> simp_all [Instr.size, Instr.isOpcode]

/-- Every byte list as long as the class asks decodes (30_encoding.md R76). -/
theorem decodeProgram_total (cfg : Config) (c : Byte) (ps : List Byte)
    (h : nParams (classify cfg c) ≤ ps.length) :
    ∃ i rest, decodeProgram cfg (c :: ps) = .ok i rest ∧
      i.size = 1 + nParams (classify cfg c) := by
  cases hc : classify cfg c <;> rw [hc] at h <;> simp only [nParams] at h
  · exact ⟨.gap (lenField c), ps, by simp only [decodeProgram, hc], rfl⟩
  · match ps, h with
    | idx :: rest, _ => exact ⟨.solid (lenField c) idx, rest, by simp only [decodeProgram, hc, decodeSolid], rfl⟩
  · match ps, h with
    | idx :: dr :: dg :: db :: rest, _ =>
      exact ⟨.gradient (lenField c) idx ⟨dr, dg, db⟩, rest,
        by simp only [decodeProgram, hc, decodeGradient], rfl⟩
  · match ps, h with
    | sr :: sg :: sb :: dr :: dg :: db :: er :: eg :: eb :: rest, _ =>
      exact ⟨.pulse (lenField c) ⟨sr, sg, sb⟩ ⟨dr, dg, db⟩ ⟨er, eg, eb⟩, rest,
        by simp only [decodeProgram, hc, decodePulse], rfl⟩
  · exact ⟨.endOp (lenField c), ps, by simp only [decodeProgram, hc], rfl⟩

/-- The commands: what the port decoder answers is well formed. -/
theorem decodeCommand_wf (cfg : Config) (w : CommandWord) :
    (decodeCommand cfg w).wf cfg = true := by
  unfold decodeCommand
  split
  · rfl
  · split
    · simp [Instr.wf, Nat.mod_lt]
    · split
      · rfl
      · simp [Instr.wf, Nat.mod_lt]

/-- And it is a command. -/
theorem decodeCommand_not_opcode (cfg : Config) (w : CommandWord) :
    (decodeCommand cfg w).isOpcode = false := by
  unfold decodeCommand
  split
  · rfl
  · split
    · rfl
    · split <;> rfl

end Sys2Proof
end

