-- ==== Sys2Proof/Laws/Loads.lean ====
section
/-! SUPPORT. What fetching an opcode, a load, and the validation walk can do: one lemma per shared
operation, cited instead of unfolding it. -/

namespace Sys2Proof.Machine

/-! ## Program bytes -/

theorem progBytes_length (s : State) (o k : Nat) : (s.progBytes o k).length = k := by
  induction k generalizing o with
  | zero => rfl
  | succ k ih => simp [State.progBytes, ih]

theorem progBytes_append (s : State) (o k j : Nat) :
    s.progBytes o (k + j) = s.progBytes o k ++ s.progBytes (o + k) j := by
  induction k generalizing o with
  | zero => simp [State.progBytes]
  | succ k ih =>
    rw [show k + 1 + j = (k + j) + 1 by omega, State.progBytes, ih, State.progBytes,
      show o + 1 + k = o + (k + 1) by omega, List.cons_append]

theorem progBytes_congr {s t : State} (hp : t.prog = s.prog) (o k : Nat) :
    t.progBytes o k = s.progBytes o k := by
  induction k generalizing o with
  | zero => rfl
  | succ k ih => rw [State.progBytes, State.progBytes, ih, State.progRead, State.progRead, hp]

/-! ## Fetch -/

/-- All that a fetch can answer (40_decoder.md R90 steps 1 and 2, R92). -/
theorem fetchOpcode_cases (s : State) (o : Nat) :
    (s.plen ≤ o ∧ fetchOpcode s o = .raised .noEnd o) ∨
    (o < s.plen ∧ s.plen < o + 1 + nParams (classify s.cfg (s.progRead o)) ∧
      fetchOpcode s o = .raised .truncated o) ∨
    (∃ i, o + i.size ≤ s.plen ∧ i.size = 1 + nParams (classify s.cfg (s.progRead o)) ∧
      i.isOpcode = true ∧ decodeProgram s.cfg (s.progBytes o i.size) = .ok i [] ∧
      fetchOpcode s o = .opcode i) := by
  unfold fetchOpcode
  split
  · exact .inl ⟨‹_›, rfl⟩
  · split
    · exact .inr (.inl ⟨by omega, ‹_›, rfl⟩)
    · obtain ⟨i, rest, hd, hs⟩ := decodeProgram_total s.cfg (s.progRead o)
        (s.progBytes (o + 1) (nParams (classify s.cfg (s.progRead o))))
        (Nat.le_of_eq (progBytes_length _ _ _).symm)
      have hb : s.progBytes o (1 + nParams (classify s.cfg (s.progRead o))) =
          s.progRead o :: s.progBytes (o + 1) (nParams (classify s.cfg (s.progRead o))) := by
        rw [Nat.add_comm]; rfl
      rw [← hb] at hd
      obtain ⟨ho, hl⟩ := decodeProgram_size hd
      rw [progBytes_length, hs] at hl
      obtain rfl : rest = [] := List.length_eq_zero_iff.mp (by omega)
      refine .inr (.inr ⟨i, by omega, hs, ho, by rw [hs]; exact hd, ?_⟩)
      rw [hd]

/-- A fetched opcode lies inside the program and is what its bytes decode to. -/
theorem fetchOpcode_opcode {s : State} {o : Nat} {i : Instr} (h : fetchOpcode s o = .opcode i) :
    i.isOpcode = true ∧ o + i.size ≤ s.plen ∧ 1 ≤ i.size ∧
      decodeProgram s.cfg (s.progBytes o i.size) = .ok i [] := by
  rcases fetchOpcode_cases s o with ⟨_, h'⟩ | ⟨_, _, h'⟩ | ⟨j, hj, _, ho, hd, h'⟩ <;>
    rw [h'] at h <;> cases h
  exact ⟨ho, hj, size_pos ho, hd⟩

/-- A fetch that raises names the offset it looked at (40_decoder.md R92). -/
theorem fetchOpcode_raised {s : State} {o : Nat} {c : FaultCode} {a : Nat}
    (h : fetchOpcode s o = .raised c a) :
    a = o ∧ ((c = .noEnd ∧ s.plen ≤ o) ∨ (c = .truncated ∧ o < s.plen)) := by
  rcases fetchOpcode_cases s o with ⟨hp, h'⟩ | ⟨hp, _, h'⟩ | ⟨_, _, _, _, _, h'⟩ <;>
    rw [h'] at h <;> cases h
  · exact ⟨rfl, .inl ⟨rfl, hp⟩⟩
  · exact ⟨rfl, .inr ⟨rfl, hp⟩⟩

/-- A fetch reads PROG, PLEN and the parameters only (40_decoder.md R90). -/
theorem fetchOpcode_congr {s t : State} (hc : t.cfg = s.cfg) (hp : t.prog = s.prog)
    (hl : t.plen = s.plen) (o : Nat) : fetchOpcode t o = fetchOpcode s o := by
  have hb : t.progBytes o = s.progBytes o := funext fun k => progBytes_congr hp o k
  have hr : t.progRead o = s.progRead o := by rw [State.progRead, State.progRead, hp]
  rw [fetchOpcode, hb, hr, hc, hl, fetchOpcode]

/-- The decoder never looks past the opcode it decodes. -/
theorem decodeProgram_append {cfg : Config} {bs : List Byte} {i : Instr} {rest : List Byte}
    (h : decodeProgram cfg bs = .ok i rest) (more : List Byte) :
    decodeProgram cfg (bs ++ more) = .ok i (rest ++ more) := by
  obtain ⟨c, ps, rfl, hc⟩ := decodeProgram_cases h
  clear h
  rcases hc with ⟨hk, rfl, rfl⟩ | ⟨hk, _, rfl, rfl⟩ | ⟨hk, _, _, _, _, rfl, rfl⟩ |
    ⟨hk, _, _, _, _, _, _, _, _, _, rfl, rfl⟩ | ⟨hk, rfl, rfl⟩ <;>
    simp only [List.cons_append, decodeProgram, hk, decodeSolid, decodeGradient, decodePulse]

/-- If the bytes from `o` to the program's end decode to `i`, the fetch answers `i`. -/
theorem fetchOpcode_of_decode {s : State} {o : Nat} {i : Instr} {rest : List Byte}
    (ho : o < s.plen) (h : decodeProgram s.cfg (s.progBytes o (s.plen - o)) = .ok i rest) :
    fetchOpcode s o = .opcode i := by
  rcases fetchOpcode_cases s o with ⟨hp, _⟩ | ⟨_, hp, _⟩ | ⟨j, hj, _, _, hd, h'⟩
  · omega
  · exfalso
    have hb : s.progBytes o (s.plen - o) = s.progRead o :: s.progBytes (o + 1) (s.plen - o - 1) := by
      conv => lhs; rw [show s.plen - o = (s.plen - o - 1) + 1 by omega]
      rfl
    rw [hb] at h
    have hlen := (decodeProgram_size h).2
    obtain ⟨c, ps, hcp, hc⟩ := decodeProgram_cases h
    obtain ⟨rfl, rfl⟩ := List.cons.inj hcp
    simp only [List.length_cons, progBytes_length] at hlen
    rcases hc with ⟨hk, rfl, _⟩ | ⟨hk, _, _, rfl⟩ | ⟨hk, _, _, _, _, _, rfl⟩ |
      ⟨hk, _, _, _, _, _, _, _, _, _, _, rfl⟩ | ⟨hk, rfl, _⟩ <;>
      simp only [hk, nParams, Instr.size] at hp hlen <;> omega
  · have hs := progBytes_append s o j.size (s.plen - o - j.size)
    rw [show j.size + (s.plen - o - j.size) = s.plen - o by omega] at hs
    rw [hs, decodeProgram_append hd] at h
    rw [h', (Decoded.ok.inj h).1]

/-! ## Loads -/

/-- All that the bounds checks can answer (40_decoder.md R92). -/
theorem checkBounds_cases (s : State) (o n : Nat) (k : LoadResult) :
    (s.plen ≤ o ∧ checkBounds s o n k = .raised .noEnd o) ∨
    (o < s.plen ∧ s.plen < o + 1 + n ∧ checkBounds s o n k = .raised .truncated o) ∨
    (o + 1 + n ≤ s.plen ∧ checkBounds s o n k = k) := by
  unfold checkBounds
  split
  · exact .inl ⟨‹_›, rfl⟩
  · split
    · exact .inr (.inl ⟨by omega, ‹_›, rfl⟩)
    · exact .inr (.inr ⟨by omega, rfl⟩)

theorem checkBounds_inside {s : State} {o n : Nat} (k : LoadResult) (h : o + 1 + n ≤ s.plen) :
    checkBounds s o n k = k := by
  rw [checkBounds, if_neg (by omega), if_neg (by omega)]

theorem checkIndex_cases (s : State) (o : Nat) (idx : Byte) (k : LoadResult) :
    (s.cfg.palSize ≤ idx.toNat ∧ checkIndex s o idx k = .raised .palIndex (o + 1)) ∨
    (idx.toNat < s.cfg.palSize ∧ checkIndex s o idx k = k) := by
  unfold checkIndex
  split
  · exact .inl ⟨‹_›, rfl⟩
  · exact .inr ⟨by omega, rfl⟩

theorem checkIndex_inside {s : State} {o : Nat} {idx : Byte} (k : LoadResult)
    (h : idx.toNat < s.cfg.palSize) : checkIndex s o idx k = k := by
  rw [checkIndex, if_neg (by omega)]

/-- What a load that raises nothing writes, opcode by opcode (41_run_modes.md R100 to R102,
42_pulse.md R110). -/
def loadedState (i : Instr) (o : Nat) (s : State) : State :=
  match i with
  | .gap len => s.loadRun .gap len Colour.black (o + 1)
  | .solid len idx => s.loadRun .solid len (s.palRead idx.toNat) (o + 2)
  | .gradient len idx d => (s.loadRun .gradient len (s.palRead idx.toNat) (o + 5)).setDelta d
  | .pulse len st d en => ((s.loadRun .pulse len st (o + 10)).setDelta d).setPulse st en
  | .endOp _ | .nop | .init _ _ | .render | .advance _ => s

/-- Does the palette have the opcode's index (40_decoder.md R93)? -/
def indexOk (s : State) : Instr → Prop
  | .solid _ idx => idx.toNat < s.cfg.palSize
  | .gradient _ idx _ => idx.toNat < s.cfg.palSize
  | .gap _ | .pulse _ _ _ _ | .endOp _ | .nop | .init _ _ | .render | .advance _ => True

/-- Is it one of the four opcodes that load a run (all but END)? -/
def loadsRun : Instr → Bool
  | .gap _ | .solid _ _ | .gradient _ _ _ | .pulse _ _ _ _ => true
  | .endOp _ | .nop | .init _ _ | .render | .advance _ => false

/-- All that the load of a run can do: a fault in the order of 40_decoder.md R94, or the load. -/
theorem loadAt_cases {i : Instr} (hi : loadsRun i = true) (o : Nat) (s : State) :
    (s.plen ≤ o ∧ loadAt i o s = .raised .noEnd o) ∨
    (o < s.plen ∧ s.plen < o + i.size ∧ loadAt i o s = .raised .truncated o) ∨
    (o + i.size ≤ s.plen ∧ ¬ indexOk s i ∧ loadAt i o s = .raised .palIndex (o + 1)) ∨
    (o + i.size ≤ s.plen ∧ indexOk s i ∧ loadAt i o s = .loaded (loadedState i o s)) := by
  cases i <;> simp only [loadsRun, Bool.false_eq_true] at hi <;>
    simp only [loadAt, loadGap, loadSolid, loadGradient, loadPulse, Instr.size, indexOk, loadedState]
  case gap len =>
    rcases checkBounds_cases s o 0 (.loaded (s.loadRun .gap len Colour.black (o + 1))) with
      ⟨h, e⟩ | ⟨h, h', e⟩ | ⟨h, e⟩
    · exact .inl ⟨h, e⟩
    · omega
    · exact .inr (.inr (.inr ⟨by omega, trivial, e⟩))
  case solid len idx =>
    rcases checkBounds_cases s o 1 (checkIndex s o idx
      (.loaded (s.loadRun .solid len (s.palRead idx.toNat) (o + 2)))) with
      ⟨h, e⟩ | ⟨h, h', e⟩ | ⟨h, e⟩
    · exact .inl ⟨h, e⟩
    · exact .inr (.inl ⟨h, by omega, e⟩)
    · rcases checkIndex_cases s o idx (.loaded (s.loadRun .solid len (s.palRead idx.toNat) (o + 2)))
        with ⟨hx, e'⟩ | ⟨hx, e'⟩
      · exact .inr (.inr (.inl ⟨by omega, by omega, e.trans e'⟩))
      · exact .inr (.inr (.inr ⟨by omega, hx, e.trans e'⟩))
  case gradient len idx d =>
    rcases checkBounds_cases s o 4 (checkIndex s o idx
      (.loaded ((s.loadRun .gradient len (s.palRead idx.toNat) (o + 5)).setDelta d))) with
      ⟨h, e⟩ | ⟨h, h', e⟩ | ⟨h, e⟩
    · exact .inl ⟨h, e⟩
    · exact .inr (.inl ⟨h, by omega, e⟩)
    · rcases checkIndex_cases s o idx
        (.loaded ((s.loadRun .gradient len (s.palRead idx.toNat) (o + 5)).setDelta d))
        with ⟨hx, e'⟩ | ⟨hx, e'⟩
      · exact .inr (.inr (.inl ⟨by omega, by omega, e.trans e'⟩))
      · exact .inr (.inr (.inr ⟨by omega, hx, e.trans e'⟩))
  case pulse len st d en =>
    rcases checkBounds_cases s o 9
      (.loaded (((s.loadRun .pulse len st (o + 10)).setDelta d).setPulse st en)) with
      ⟨h, e⟩ | ⟨h, h', e⟩ | ⟨h, e⟩
    · exact .inl ⟨h, e⟩
    · exact .inr (.inl ⟨h, by omega, e⟩)
    · exact .inr (.inr (.inr ⟨by omega, trivial, e⟩))

/-- What an opcode met at CURSOR loads: END restarts, any other opcode loads where it stands. -/
def opcodeLoad (i : Instr) (s : State) : LoadResult :=
  match i with
  | .endOp _ => loadEnd s
  | i => loadAt i s.cursor s

/-- `exec` of a program opcode is its load at CURSOR, or fault entry. -/
theorem exec_opcode {i : Instr} (hi : i.isOpcode = true) (s : State) :
    exec i s = .next ((opcodeLoad i s).settle s) := by
  cases i <;> first | rfl | simp [Instr.isOpcode] at hi

/-- `LoadNext` is the fetch at CURSOR and the opcode's load (40_decoder.md R90). -/
theorem loadNext_eq (s : State) :
    loadNext s =
      match fetchOpcode s s.cursor with
      | .raised c a => .raised c a
      | .opcode i => opcodeLoad i s := by
  unfold loadNext
  cases fetchOpcode s s.cursor with
  | raised c a => rfl
  | opcode i => cases i <;> rfl

/-- A step that runs `LoadNext` settles it (60_exceptions.md R147). -/
theorem runNextOpcode_eq (s : State) : runNextOpcode s = .next ((loadNext s).settle s) := by
  rw [loadNext_eq, runNextOpcode]
  cases h : fetchOpcode s s.cursor with
  | raised c a => rfl
  | opcode i => exact exec_opcode (fetchOpcode_opcode h).1 s

/-- A fetched opcode is END or loads a run. -/
theorem loadsRun_or_end {i : Instr} (h : i.isOpcode = true) :
    loadsRun i = true ∨ ∃ l, i = .endOp l := by
  cases i <;> simp_all [Instr.isOpcode, loadsRun]

/-- All that a restart can do once a control byte is known to be there (40_decoder.md R91). -/
theorem loadRestart_cases (s : State) :
    (∃ c a, loadRestart s = .raised c a ∧ (c = .noEnd ∨ c = .truncated ∨ c = .emptyLoop ∨
      c = .palIndex) ∧ a ≤ max 1 s.plen) ∨
    (∃ i, loadsRun i = true ∧ fetchOpcode s 0 = .opcode i ∧ indexOk s i ∧ i.size ≤ s.plen ∧
      loadRestart s = .loaded (loadedState i 0 s)) := by
  unfold loadRestart
  cases h : fetchOpcode s 0 with
  | raised c a =>
    obtain ⟨rfl, hc⟩ := fetchOpcode_raised h
    refine .inl ⟨c, 0, rfl, ?_, Nat.zero_le _⟩
    rcases hc with ⟨rfl, _⟩ | ⟨rfl, _⟩ <;> simp
  | opcode i =>
    rcases loadsRun_or_end (fetchOpcode_opcode h).1 with hi | ⟨l, rfl⟩
    · rcases loadAt_cases hi 0 s with ⟨_, e⟩ | ⟨_, _, e⟩ | ⟨_, _, e⟩ | ⟨hl, hx, e⟩
      · exact .inl ⟨_, _, e, .inl rfl, Nat.zero_le _⟩
      · exact .inl ⟨_, _, e, .inr (.inl rfl), Nat.zero_le _⟩
      · exact .inl ⟨_, _, e, .inr (.inr (.inr rfl)), by omega⟩
      · exact .inr ⟨i, hi, rfl, hx, by omega, e⟩
    · exact .inl ⟨_, _, rfl, .inr (.inr (.inl rfl)), Nat.zero_le _⟩

/-- All that `LoadNext` can do when it raises nothing: the opcode at CURSOR, or after an END the one
at 0, is loaded (40_decoder.md R90, R91). -/
theorem loadNext_loaded {s t : State} (h : loadNext s = .loaded t) :
    ∃ i o, loadsRun i = true ∧ fetchOpcode s o = .opcode i ∧ indexOk s i ∧ o + i.size ≤ s.plen ∧
      t = loadedState i o s ∧
      (o = s.cursor ∨ (o = 0 ∧ s.cursor ≠ 0 ∧ ∃ l, fetchOpcode s s.cursor = .opcode (.endOp l))) := by
  rw [loadNext_eq] at h
  cases hf : fetchOpcode s s.cursor with
  | raised c a => rw [hf] at h; cases h
  | opcode i =>
    rw [hf] at h
    rcases loadsRun_or_end (fetchOpcode_opcode hf).1 with hi | ⟨l, rfl⟩
    · have e : opcodeLoad i s = loadAt i s.cursor s := by cases i <;> first | rfl | cases hi
      simp only [e] at h
      rcases loadAt_cases hi s.cursor s with ⟨_, e⟩ | ⟨_, _, e⟩ | ⟨_, _, e⟩ | ⟨hl, hx, e⟩ <;>
        rw [e] at h <;> cases h
      exact ⟨i, s.cursor, hi, hf, hx, hl, rfl, .inl rfl⟩
    · simp only [opcodeLoad, loadEnd] at h
      rcases checkBounds_cases s s.cursor 0
        (if s.cursor = 0 then .raised .emptyLoop 0 else loadRestart s) with
        ⟨_, e⟩ | ⟨_, _, e⟩ | ⟨_, e⟩ <;> rw [e] at h
      · cases h
      · cases h
      · split at h
        · cases h
        · rcases loadRestart_cases s with ⟨_, _, e, _⟩ | ⟨i, hi, hf0, hx, hl, e⟩ <;> rw [e] at h <;>
            cases h
          exact ⟨i, 0, hi, hf0, hx, by omega, rfl, .inr ⟨rfl, ‹_›, l, rfl⟩⟩

/-! ## What a load leaves alone -/

/-- Everything but the eight data registers agrees. -/
structure SameControl (s t : State) : Prop where
  cfg : t.cfg = s.cfg
  prog : t.prog = s.prog
  pal : t.pal = s.pal
  plen : t.plen = s.plen
  npix : t.npix = s.npix
  cnt : t.cnt = s.cnt
  phase : t.phase = s.phase
  faultCode : t.faultCode = s.faultCode
  faultAddr : t.faultAddr = s.faultAddr
  tx : t.tx = s.tx
  host : t.host = s.host

theorem SameControl.refl (s : State) : SameControl s s :=
  ⟨rfl, rfl, rfl, rfl, rfl, rfl, rfl, rfl, rfl, rfl, rfl⟩

theorem SameControl.rest {s t : State} (h : SameControl s t) : SameRest s t :=
  ⟨h.cfg, fun _ => by rw [h.prog], fun _ => by rw [h.pal], h.plen, h.npix, h.cnt, h.tx, h.host⟩

theorem SameControl.fault {s t : State} (h : SameControl s t) : SameFault s t :=
  ⟨h.phase, h.faultCode, h.faultAddr⟩

/-- A load touches data registers only (40_decoder.md R90). -/
theorem loadedState_control (i : Instr) (o : Nat) (s : State) : SameControl s (loadedState i o s) := by
  cases i <;> exact ⟨rfl, rfl, rfl, rfl, rfl, rfl, rfl, rfl, rfl, rfl, rfl⟩

theorem loadedState_cursor {i : Instr} (hi : loadsRun i = true) (o : Nat) (s : State) :
    (loadedState i o s).cursor = o + i.size := by
  cases i <;> first | rfl | cases hi

/-- Fault entry touches PHASE, FAULTCODE and FAULTADDR only (60_exceptions.md R147). -/
theorem faultEntry_frame (s : State) (c : FaultCode) (a : Nat) :
    SameData s (s.faultEntry c a) ∧ SameRest s (s.faultEntry c a) :=
  ⟨⟨rfl, rfl, rfl, rfl, rfl, rfl, rfl, rfl⟩,
    ⟨rfl, fun _ => rfl, fun _ => rfl, rfl, rfl, rfl, rfl, rfl⟩⟩

/-! ## The validation walk -/

/-- The walk reads PROG, PLEN and the parameters only (40_decoder.md R95). -/
theorem validateFrom_congr {s t : State} (hc : t.cfg = s.cfg) (hp : t.prog = s.prog)
    (hl : t.plen = s.plen) (fuel o : Nat) : validateFrom t fuel o = validateFrom s fuel o := by
  induction fuel generalizing o with
  | zero => rfl
  | succ fuel ih =>
    simp only [validateFrom, fetchOpcode_congr hc hp hl]
    cases fetchOpcode s o with
    | raised => rfl
    | opcode i =>
      simp only [ih]
      cases i <;> simp [validateOpcode, hc]

theorem validate_congr {s t : State} (hc : t.cfg = s.cfg) (hp : t.prog = s.prog)
    (hl : t.plen = s.plen) : validate t = validate s := by
  rw [validate, validate, hl, validateFrom_congr hc hp hl]

/-- More fuel than the bytes that are left changes nothing. -/
theorem validateFrom_fuel {s : State} {fuel o : Nat} (h : s.plen + 1 ≤ fuel + o) :
    validateFrom s (fuel + 1) o = validateFrom s fuel o := by
  induction fuel generalizing o with
  | zero =>
    simp only [validateFrom]
    rw [show fetchOpcode s o = .raised .noEnd o by
      unfold fetchOpcode; rw [if_pos (by omega)]]
  | succ fuel ih =>
    rw [validateFrom, validateFrom]
    cases hf : fetchOpcode s o with
    | raised => rfl
    | opcode i =>
      have := (fetchOpcode_opcode hf).2.2.1
      simp only
      rw [ih (by omega)]

theorem validateFrom_enough {s : State} {fuel fuel' o : Nat} (h : s.plen + 1 ≤ fuel + o)
    (h' : fuel ≤ fuel') : validateFrom s fuel' o = validateFrom s fuel o := by
  obtain ⟨k, rfl⟩ := Nat.exists_eq_add_of_le h'
  induction k with
  | zero => rfl
  | succ k ih => rw [← Nat.add_assoc, validateFrom_fuel (by omega), ih (by omega)]

/-- One turn of the walk, free of fuel: 40_decoder.md R95's loop body. -/
theorem validateFrom_step (s : State) (o : Nat) :
    validateFrom s (s.plen + 1) o =
      match fetchOpcode s o with
      | .raised c a => some (c, a)
      | .opcode i => validateOpcode s o i (validateFrom s (s.plen + 1) (o + i.size)) := by
  conv => lhs; rw [validateFrom]
  cases hf : fetchOpcode s o with
  | raised => rfl
  | opcode i =>
    have := (fetchOpcode_opcode hf).2.2.1
    simp only
    rw [validateFrom_enough (fuel := s.plen) (by omega) (Nat.le_succ _)]

/-- Where the walk finds nothing wrong, the fetch does not either, and the opcode's index is legal;
unless it is a PULSE or an END the walk goes on after it. -/
theorem validateFrom_none {s : State} {o : Nat} (h : validateFrom s (s.plen + 1) o = none) :
    ∃ i, fetchOpcode s o = .opcode i ∧ indexOk s i ∧
      ((∃ l, i = .endOp l ∧ o ≠ 0) ∨
       (loadsRun i = true ∧
        ((∃ l st d en, i = .pulse l st d en) ∨ validateFrom s (s.plen + 1) (o + i.size) = none))) := by
  rw [validateFrom_step] at h
  cases hf : fetchOpcode s o with
  | raised c a => rw [hf] at h; cases h
  | opcode i =>
    rw [hf] at h
    refine ⟨i, rfl, ?_⟩
    have ho := (fetchOpcode_opcode hf).1
    cases i <;> simp only [Instr.isOpcode, Bool.false_eq_true] at ho <;>
      simp only [validateOpcode] at h
    case gap l => exact ⟨trivial, .inr ⟨rfl, .inr h⟩⟩
    case solid l idx =>
      split at h
      · cases h
      · exact ⟨by simp only [indexOk]; omega, .inr ⟨rfl, .inr h⟩⟩
    case gradient l idx d =>
      split at h
      · cases h
      · exact ⟨by simp only [indexOk]; omega, .inr ⟨rfl, .inr h⟩⟩
    case pulse l st d en => exact ⟨trivial, .inr ⟨rfl, .inl ⟨l, st, d, en, rfl⟩⟩⟩
    case endOp l =>
      split at h
      · cases h
      · exact ⟨trivial, .inl ⟨l, rfl, ‹_›⟩⟩

/-- Where the walk from CURSOR and the walk from 0 find nothing wrong, `LoadNext` raises nothing
(40_decoder.md R95). -/
theorem loadNext_of_valid {s : State} (h0 : validateFrom s (s.plen + 1) 0 = none)
    (hc : validateFrom s (s.plen + 1) s.cursor = none) :
    ∃ i o, loadsRun i = true ∧ fetchOpcode s o = .opcode i ∧
      loadNext s = .loaded (loadedState i o s) ∧ validateFrom s (s.plen + 1) o = none ∧
      (o = s.cursor ∨ o = 0) := by
  have run : ∀ {o i}, loadsRun i = true → fetchOpcode s o = .opcode i → indexOk s i →
      loadAt i o s = .loaded (loadedState i o s) := by
    intro o i hi hf hx
    obtain ⟨_, hl, hp, _⟩ := fetchOpcode_opcode hf
    rcases loadAt_cases hi o s with ⟨_, _⟩ | ⟨_, _, _⟩ | ⟨_, hn, _⟩ | ⟨_, _, e⟩
    · omega
    · omega
    · exact absurd hx hn
    · exact e
  obtain ⟨i, hf, hx, hi⟩ := validateFrom_none hc
  rw [loadNext_eq, hf]
  rcases hi with ⟨l, rfl, hne⟩ | ⟨hi, _⟩
  · obtain ⟨j, hfj, hxj, hj⟩ := validateFrom_none h0
    have hb := (fetchOpcode_opcode hf).2.1
    rcases hj with ⟨_, _, h⟩ | ⟨hj, _⟩
    · exact absurd rfl h
    · refine ⟨j, 0, hj, hfj, ?_, h0, .inr rfl⟩
      simp only [opcodeLoad, loadEnd]
      rw [checkBounds_inside _ (by simpa [Instr.size] using hb), if_neg hne, loadRestart, hfj]
      exact run hj hfj hxj
  · refine ⟨i, s.cursor, hi, hf, ?_, hc, .inl rfl⟩
    have e : opcodeLoad i s = loadAt i s.cursor s := by cases i <;> first | rfl | cases hi
    simp only [e]
    exact run hi hf hx

end Sys2Proof.Machine
end

