-- ==== Sys2Proof/Laws/Memory.lean ====
section
/-! SUPPORT. Memories: read after write, and the canonical form is kept. -/

namespace Sys2Proof.Machine.Memory

@[simp] theorem read_nil (a : Nat) : read [] a = unlistedByte := rfl

@[simp] theorem read_cons (k : Nat) (c : Byte) (m : Memory) (a : Nat) :
    read ((k, c) :: m) a = if a = k then c else read m a := rfl

/-- A memory whose addresses start at `lo` reads as unlisted below `lo`. -/
theorem read_below {m : Memory} {lo a : Nat} (h : wfFrom lo m = true) (ha : a < lo) :
    read m a = unlistedByte := by
  induction m generalizing lo with
  | nil => rfl
  | cons e m ih =>
    obtain ⟨k, c⟩ := e
    simp only [wfFrom, Bool.and_eq_true, decide_eq_true_eq] at h
    rw [read_cons, if_neg (by omega)]
    exact ih h.2 (by omega)

theorem wfFrom_mono {m : Memory} {lo lo' : Nat} (h : wfFrom lo m = true) (hl : lo' ≤ lo) :
    wfFrom lo' m = true := by
  cases m with
  | nil => rfl
  | cons e m =>
    obtain ⟨k, c⟩ := e
    simp only [wfFrom, Bool.and_eq_true, decide_eq_true_eq] at h ⊢
    exact ⟨⟨by omega, h.1.2⟩, h.2⟩

theorem wfFrom_of_lt {m : Memory} {lo a k : Nat} {c : Byte} (h : wfFrom lo ((k, c) :: m) = true)
    (ha : a < k) : wfFrom (a + 1) ((k, c) :: m) = true := by
  simp only [wfFrom, Bool.and_eq_true, decide_eq_true_eq] at h ⊢
  exact ⟨⟨ha, h.1.2⟩, h.2⟩

theorem put_wfFrom {m : Memory} {lo a : Nat} (b : Byte) (h : wfFrom (a + 1) m = true)
    (ha : lo ≤ a) : wfFrom lo (put a b m) = true := by
  unfold put
  split
  · exact wfFrom_mono h (by omega)
  · simp only [wfFrom, Bool.and_eq_true, decide_eq_true_eq]
    exact ⟨⟨ha, ‹_›⟩, h⟩

theorem write_wfFrom {m : Memory} {lo a : Nat} (b : Byte) (h : wfFrom lo m = true)
    (ha : lo ≤ a) : wfFrom lo (write m a b) = true := by
  induction m generalizing lo with
  | nil => exact put_wfFrom b rfl ha
  | cons e m ih =>
    obtain ⟨k, c⟩ := e
    have hk := h
    simp only [wfFrom, Bool.and_eq_true, decide_eq_true_eq] at hk
    unfold write
    split
    · exact put_wfFrom b (wfFrom_of_lt h ‹_›) ha
    · split
      · subst_vars
        exact put_wfFrom b hk.2 ha
      · simp only [wfFrom, Bool.and_eq_true, decide_eq_true_eq]
        exact ⟨hk.1, ih hk.2 (by omega)⟩

/-- A write keeps the canonical form. -/
theorem write_wf {m : Memory} (h : wf m = true) (a : Nat) (b : Byte) : wf (write m a b) = true :=
  write_wfFrom b h (Nat.zero_le a)

/-- So do writes at consecutive addresses. -/
theorem writeBytes_wf {m : Memory} (h : wf m = true) (a : Nat) (bs : List Byte) :
    wf (writeBytes m a bs) = true := by
  induction bs generalizing m a with
  | nil => exact h
  | cons b bs ih => exact ih (write_wf h a b) (a + 1)

theorem read_put_other {m : Memory} {a a' : Nat} (b : Byte) (h : a' ≠ a) :
    read (put a b m) a' = read m a' := by
  unfold put
  split
  · rfl
  · rw [read_cons, if_neg h]

/-- A write leaves every other address alone. -/
theorem read_write_other {m : Memory} {a a' : Nat} (b : Byte) (h : a' ≠ a) :
    read (write m a b) a' = read m a' := by
  induction m with
  | nil => exact read_put_other b h
  | cons e m ih =>
    obtain ⟨k, c⟩ := e
    unfold write
    split
    · exact read_put_other b h
    · split
      · subst_vars
        rw [read_put_other b h, read_cons, if_neg h]
      · rw [read_cons, read_cons, ih]

theorem read_put_same {m : Memory} {a : Nat} (b : Byte) (h : wfFrom (a + 1) m = true) :
    read (put a b m) a = b := by
  unfold put
  split
  · rw [read_below h (Nat.lt_succ_self a)]
    exact Eq.symm ‹_›
  · rw [read_cons, if_pos rfl]

theorem read_write_same_from {m : Memory} {lo a : Nat} (b : Byte) (h : wfFrom lo m = true) :
    read (write m a b) a = b := by
  induction m generalizing lo with
  | nil => exact read_put_same b rfl
  | cons e m ih =>
    obtain ⟨k, c⟩ := e
    have hk := h
    simp only [wfFrom, Bool.and_eq_true, decide_eq_true_eq] at hk
    unfold write
    split
    · exact read_put_same b (wfFrom_of_lt h ‹_›)
    · split
      · subst_vars
        exact read_put_same b hk.2
      · rw [read_cons, if_neg (by omega), ih hk.2]

/-- A read after a write to the same address gives the byte written. -/
theorem read_write_same {m : Memory} (h : wf m = true) (a : Nat) (b : Byte) :
    read (write m a b) a = b := read_write_same_from b h

/-- Both at once. -/
theorem read_write {m : Memory} (h : wf m = true) (a a' : Nat) (b : Byte) :
    read (write m a b) a' = if a' = a then b else read m a' := by
  split
  · subst_vars; exact read_write_same h _ b
  · exact read_write_other b ‹_›

theorem read_writeBytes_below {m : Memory} {a a' : Nat} (bs : List Byte) (h : a' < a) :
    read (writeBytes m a bs) a' = read m a' := by
  induction bs generalizing m a with
  | nil => rfl
  | cons b bs ih => rw [writeBytes, ih (by omega), read_write_other b (by omega)]

/-- The bytes written at consecutive addresses read back. -/
theorem read_writeBytes {m : Memory} (h : wf m = true) (a : Nat) (bs : List Byte) (k : Nat)
    (hk : k < bs.length) : read (writeBytes m a bs) (a + k) = bs[k] := by
  induction bs generalizing m a k with
  | nil => simp at hk
  | cons b bs ih =>
    cases k with
    | zero =>
      exact (read_writeBytes_below bs (Nat.lt_succ_self a)).trans (read_write_same h a b)
    | succ k =>
      have := ih (write_wf h a b) (a + 1) k (by simpa using hk)
      rw [writeBytes, show a + (k + 1) = a + 1 + k by omega, this]
      rfl

end Sys2Proof.Machine.Memory
end

