-- ==== Sys2Proof/Laws/Steps.lean ====
section
/-! SUPPORT. What `Advance`, a command, a pixel step and a step of the machine can do: one lemma each, cited
instead of unfolding it. -/

namespace Sys2Proof.Machine

/-! ## Advance -/

/-- The step part of a run (41_run_modes.md R100 to R102), or the oscillator's. -/
def runStep (s : State) : State :=
  match s.mode with
  | .gap => stepGap s
  | .solid => stepSolid s
  | .gradient => stepGradient s
  | .pulse => pulseStep s

/-- `Advance` before its fault, if any, is entered (41_run_modes.md R103). -/
def advanceLoad (s : State) : LoadResult :=
  if s.mode ≠ .pulse ∧ s.rem = 0 then loadNext s else .loaded (runStep s)

/-- `Advance` settles `advanceLoad`. -/
theorem advance_eq (s : State) : advance s = .next ((advanceLoad s).settle s) := by
  unfold advance advanceLoad runStep
  cases hm : s.mode <;> simp only [reduceCtorEq, ne_eq, not_false_eq_true, not_true_eq_false,
    true_and, false_and, if_false, LoadResult.settle]
  all_goals split
  all_goals first | exact runNextOpcode_eq s | rfl

theorem runStep_control (s : State) : SameControl s (runStep s) := by
  unfold runStep
  cases s.mode
  · exact ⟨rfl, rfl, rfl, rfl, rfl, rfl, rfl, rfl, rfl, rfl, rfl⟩
  · exact ⟨rfl, rfl, rfl, rfl, rfl, rfl, rfl, rfl, rfl, rfl, rfl⟩
  · exact ⟨rfl, rfl, rfl, rfl, rfl, rfl, rfl, rfl, rfl, rfl, rfl⟩
  · obtain ⟨c, d, h⟩ := pulseStep_eq s
    simp only [h]
    exact ⟨rfl, rfl, rfl, rfl, rfl, rfl, rfl, rfl, rfl, rfl, rfl⟩

/-- What an `Advance` that raises nothing did: a step part, or a load at CURSOR or at 0. -/
theorem advanceLoad_loaded {s t : State} (h : advanceLoad s = .loaded t) :
    ((s.mode = .pulse ∨ s.rem ≠ 0) ∧ t = runStep s) ∨
    (s.mode ≠ .pulse ∧ s.rem = 0 ∧ loadNext s = .loaded t ∧
      ∃ i o, loadsRun i = true ∧ fetchOpcode s o = .opcode i ∧ o + i.size ≤ s.plen ∧
        t = loadedState i o s) := by
  unfold advanceLoad at h
  split at h
  · obtain ⟨i, o, hi, hf, _, hl, ht, _⟩ := loadNext_loaded h
    exact .inr ⟨‹_ ∧ _›.1, ‹_ ∧ _›.2, h, i, o, hi, hf, hl, ht⟩
  · rename_i hn
    cases h
    refine .inl ⟨?_, rfl⟩
    by_cases hm : s.mode = .pulse
    · exact .inl hm
    · exact .inr fun hr => hn ⟨hm, hr⟩

/-- An `Advance` that raises nothing touches data registers only. -/
theorem advanceLoad_control {s t : State} (h : advanceLoad s = .loaded t) : SameControl s t := by
  rcases advanceLoad_loaded h with ⟨_, rfl⟩ | ⟨_, _, _, i, o, _, _, _, rfl⟩
  · exact runStep_control s
  · exact loadedState_control i o s

/-- Every fault of a load or of the walk names an offset up to PLEN (the fault address fits its
register), except a control byte looked for past PLEN, which names CURSOR. -/
theorem loadNext_raised {s : State} {c : FaultCode} {a : Nat} (h : loadNext s = .raised c a) :
    c ≠ .noFault ∧ (a = s.cursor ∨ a ≤ s.plen) := by
  have run : ∀ {i o}, loadsRun i = true → o + 1 ≤ s.plen → loadAt i o s = .raised c a →
      c ≠ .noFault ∧ a ≤ s.plen := by
    intro i o hi ho h
    rcases loadAt_cases hi o s with ⟨_, e⟩ | ⟨_, _, e⟩ | ⟨hl, hx, e⟩ | ⟨_, _, e⟩ <;>
      rw [e] at h <;> cases h
    · exact ⟨by decide, by omega⟩
    · exact ⟨by decide, by omega⟩
    · exact ⟨by decide, by omega⟩
  rw [loadNext_eq] at h
  cases hf : fetchOpcode s s.cursor with
  | raised c' a' =>
    rw [hf] at h
    cases h
    obtain ⟨rfl, hc⟩ := fetchOpcode_raised hf
    rcases hc with ⟨rfl, _⟩ | ⟨rfl, _⟩ <;> exact ⟨by decide, .inl rfl⟩
  | opcode i =>
    rw [hf] at h
    obtain ⟨ho, hp, h1, _⟩ := fetchOpcode_opcode hf
    rcases loadsRun_or_end ho with hi | ⟨l, rfl⟩
    · have e : opcodeLoad i s = loadAt i s.cursor s := by cases i <;> first | rfl | cases hi
      simp only [e] at h
      obtain ⟨hc, ha⟩ := run hi (by omega) h
      exact ⟨hc, .inr ha⟩
    · simp only [opcodeLoad, loadEnd] at h
      rw [checkBounds_inside _ (by simpa [Instr.size] using hp)] at h
      split at h
      · cases h
        exact ⟨by decide, .inr (Nat.zero_le _)⟩
      · rw [loadRestart] at h
        cases hf0 : fetchOpcode s 0 with
        | raised c' a' =>
          rw [hf0] at h
          cases h
          obtain ⟨rfl, hc⟩ := fetchOpcode_raised hf0
          rcases hc with ⟨rfl, _⟩ | ⟨rfl, _⟩ <;> exact ⟨by decide, .inr (Nat.zero_le _)⟩
        | opcode j =>
          rw [hf0] at h
          obtain ⟨hoj, hpj, h1j, _⟩ := fetchOpcode_opcode hf0
          rcases loadsRun_or_end hoj with hj | ⟨l', rfl⟩
          · obtain ⟨hc, ha⟩ := run hj (by omega) h
            exact ⟨hc, .inr ha⟩
          · cases h
            exact ⟨by decide, .inr (Nat.zero_le _)⟩

/-- The address of the walk's verdict is at most PLEN when the walk starts there or before. -/
theorem validateFrom_some {s : State} {fuel o : Nat} {c : FaultCode} {a : Nat}
    (h : validateFrom s fuel o = some (c, a)) (ho : o ≤ s.plen) :
    c ≠ .noFault ∧ a ≤ s.plen := by
  induction fuel generalizing o with
  | zero =>
    simp only [validateFrom, Option.some.injEq, Prod.mk.injEq] at h
    obtain ⟨rfl, rfl⟩ := h
    exact ⟨by decide, ho⟩
  | succ fuel ih =>
    rw [validateFrom] at h
    cases hf : fetchOpcode s o with
    | raised c' a' =>
      rw [hf] at h
      cases h
      obtain ⟨rfl, hc⟩ := fetchOpcode_raised hf
      rcases hc with ⟨rfl, _⟩ | ⟨rfl, _⟩ <;> exact ⟨by decide, ho⟩
    | opcode i =>
      rw [hf] at h
      obtain ⟨hop, hp, _, _⟩ := fetchOpcode_opcode hf
      cases i <;> simp only [Instr.isOpcode, Bool.false_eq_true] at hop <;>
        simp only [validateOpcode] at h
      case gap l => exact ih h hp
      case solid l idx =>
        split at h
        · cases h
          simp only [Instr.size] at hp
          exact ⟨by decide, by omega⟩
        · exact ih h hp
      case gradient l idx d =>
        split at h
        · cases h
          simp only [Instr.size] at hp
          exact ⟨by decide, by omega⟩
        · exact ih h hp
      case pulse l st d en => cases h
      case endOp l =>
        split at h
        · cases h
          exact ⟨by decide, Nat.zero_le _⟩
        · cases h

/-! ## Commands -/

/-- All that INIT can do where it is accepted (43_commands_frame.md R121): the validation's fault, or
the first run loaded and READY. The `LoadNext` after a successful validation raises nothing. -/
theorem initAccepted_cases (plen npix : Nat) (s : State) :
    (∃ c a, validate (s.bindProgram plen npix) = some (c, a) ∧
      initAccepted plen npix s = (s.bindProgram plen npix).faultEntry c a) ∨
    (validate (s.bindProgram plen npix) = none ∧
      ∃ i, loadsRun i = true ∧ fetchOpcode (s.bindProgram plen npix) 0 = .opcode i ∧
        initAccepted plen npix s =
          (loadedState i 0 ((s.bindProgram plen npix).setCursor 0)).setPhase .ready) := by
  unfold initAccepted
  cases hv : validate (s.bindProgram plen npix) with
  | some p => exact .inl ⟨p.1, p.2, rfl, rfl⟩
  | none =>
    refine .inr ⟨rfl, ?_⟩
    have hz : validateFrom ((s.bindProgram plen npix).setCursor 0) (plen + 1) 0 = none := by
      rw [← hv, validate]
      exact validateFrom_congr (s := s.bindProgram plen npix)
        (t := (s.bindProgram plen npix).setCursor 0) rfl rfl rfl _ _
    obtain ⟨i, o, hi, hf, hl, -, ho⟩ := loadNext_of_valid hz hz
    obtain rfl : o = 0 := by rcases ho with h | h <;> exact h
    refine ⟨i, hi, ?_, ?_⟩
    · rw [← hf]
      exact (fetchOpcode_congr (s := s.bindProgram plen npix)
        (t := (s.bindProgram plen npix).setCursor 0) rfl rfl rfl 0).symm
    · simp only [initLoad, hl]

/-- INIT by phase (43_commands_frame.md R120). -/
theorem execInit_eq (plen npix : Nat) (s : State) :
    execInit plen npix s = .next (if s.phase.busy then s else initAccepted plen npix s) := by
  unfold execInit
  cases s.phase <;> rfl

/-- Every meaning answers a next state: the spec's faults are states (60_exceptions.md R145). -/
theorem exec_next (i : Instr) (s : State) : ∃ t, exec i s = .next t := by
  cases i
  case init p n => exact ⟨_, execInit_eq p n s⟩
  all_goals exact ⟨_, rfl⟩

/-! ## Steps -/

/-- The step of the core by phase, with every `Advance` settled (43_commands_frame.md R123 to R126). -/
theorem coreStep_eq (s : State) :
    coreStep s = .next
      (match s.phase with
       | .rendering =>
         if s.cnt = 0 then frameEnd s
         else countDown ((advanceLoad (s.emit (.color s.cur))).settle (s.emit (.color s.cur)))
       | .stepping => if s.cnt = 0 then s.setPhase .ready else countDown ((advanceLoad s).settle s)
       | .uninit | .ready | .faulted => s) := by
  unfold coreStep renderPixelStep silentStep
  simp only [advance_eq, afterAdvance]
  cases s.phase
  · rfl
  · rfl
  · simp only
    split <;> rfl
  · simp only
    split <;> rfl
  · rfl

theorem coreStep_idle {s : State} (h : s.phase.busy = false) : coreStep s = .next s := by
  rw [coreStep_eq]
  cases hp : s.phase <;> simp_all [Phase.busy]

theorem countDown_loaded {s t : State} (hb : s.phase.busy = true) (h : SameControl s t) :
    countDown t = t.setCnt (s.cnt - 1) := by
  rw [countDown, if_neg, h.cnt]
  rw [h.phase]
  intro hf
  rw [hf] at hb
  cases hb

theorem countDown_fault (s : State) (c : FaultCode) (a : Nat) :
    countDown (s.faultEntry c a) = s.faultEntry c a := rfl

/-- The only stop of a step is a host write to a byte that does not exist (log 14). -/
theorem step_cases (s : State) :
    (∃ t, step s = .next t) ∨
    (step s = .fault .noSuchAddress ∧ s.phase.busy = false ∧
      ((∃ off b rest, s.host = .writeProg off b :: rest ∧ 2 ^ s.cfg.curW ≤ off) ∨
       (∃ addr b rest, s.host = .writePal addr b :: rest ∧ 3 * s.cfg.palSize ≤ addr))) := by
  unfold step
  cases hh : s.host with
  | nil => exact .inl ⟨_, coreStep_eq s⟩
  | cons m rest =>
    cases m with
    | reset => exact .inl ⟨_, rfl⟩
    | wait => exact .inl ⟨_, coreStep_eq _⟩
    | command w =>
      simp only [takeMove]
      split
      · exact .inl ⟨_, coreStep_eq s⟩
      · exact .inl (exec_next _ _)
    | writeProg off b =>
      simp only [takeMove]
      split
      · exact .inl ⟨_, coreStep_eq s⟩
      · by_cases hb : off < 2 ^ s.cfg.curW
        · exact .inl ⟨_, by rw [hostWriteProg, State.setHost_cfg, if_pos hb]⟩
        · exact .inr ⟨by rw [hostWriteProg, State.setHost_cfg, if_neg hb], by simpa using ‹¬ s.phase.busy = true›,
            .inl ⟨off, b, rest, rfl, by omega⟩⟩
    | writePal addr b =>
      simp only [takeMove]
      split
      · exact .inl ⟨_, coreStep_eq s⟩
      · by_cases hb : addr < 3 * s.cfg.palSize
        · exact .inl ⟨_, by rw [hostWritePal, State.setHost_cfg, if_pos hb]⟩
        · exact .inr ⟨by rw [hostWritePal, State.setHost_cfg, if_neg hb], by simpa using ‹¬ s.phase.busy = true›,
            .inr ⟨addr, b, rest, rfl, by omega⟩⟩

/-! ## Data and control -/

/-- The control part of `u` with the data registers of `s`. -/
def graft (s u : State) : State :=
  { u with
    cur := s.cur, delta := s.delta, startBound := s.startBound, endBound := s.endBound, rem := s.rem
    mode := s.mode, dir := s.dir, cursor := s.cursor }

/-- A result with its control part replaced. -/
def LoadResult.graft (u : State) : LoadResult → LoadResult
  | .loaded t => .loaded (Machine.graft t u)
  | .raised c a => .raised c a

theorem graft_self (s : State) : graft s s = s := rfl

theorem graft_of_control {s t : State} (h : SameControl s t) : graft t s = t := by
  cases s; cases t
  cases h
  simp_all [graft]

/-- A load depends on data registers, PROG, PAL, PLEN and parameters only. -/
theorem loadAt_graft {s u : State} (hc : u.cfg = s.cfg) (hpal : u.pal = s.pal)
    (hl : u.plen = s.plen) (i : Instr) (o : Nat) :
    loadAt i o (graft s u) = (loadAt i o s).graft u := by
  have h1 : (graft s u).plen = s.plen := hl
  have h2 : (graft s u).cfg = s.cfg := hc
  have h3 : ∀ k, (graft s u).palRead k = s.palRead k := by
    intro k
    show State.palRead _ k = _
    unfold State.palRead
    rw [show (graft s u).pal = s.pal from hpal]
  cases i <;> simp only [loadAt, loadGap, loadSolid, loadGradient, loadPulse, checkBounds, checkIndex,
    h1, h2, h3]
  all_goals try rfl
  all_goals (repeat' split)
  all_goals rfl

theorem loadNext_graft {s u : State} (hc : u.cfg = s.cfg) (hp : u.prog = s.prog)
    (hpal : u.pal = s.pal) (hl : u.plen = s.plen) :
    loadNext (graft s u) = (loadNext s).graft u := by
  have hf : ∀ o, fetchOpcode (graft s u) o = fetchOpcode s o := fetchOpcode_congr hc hp hl
  have hr : loadRestart (graft s u) = (loadRestart s).graft u := by
    rw [loadRestart, loadRestart, hf]
    cases fetchOpcode s 0 with
    | raised => rfl
    | opcode i => exact loadAt_graft hc hpal hl i 0
  rw [loadNext_eq, loadNext_eq, show (graft s u).cursor = s.cursor from rfl, hf]
  cases fetchOpcode s s.cursor with
  | raised => rfl
  | opcode i =>
    cases i
    case endOp l =>
      simp only [opcodeLoad, loadEnd, show (graft s u).cursor = s.cursor from rfl, hr, checkBounds,
        show (graft s u).plen = s.plen from hl]
      repeat' split
      all_goals rfl
    all_goals simp only [opcodeLoad]
    all_goals exact loadAt_graft hc hpal hl _ _

theorem runStep_graft (s u : State) : runStep (graft s u) = graft (runStep s) u := by
  unfold runStep
  rw [show (graft s u).mode = s.mode from rfl]
  cases s.mode
  · rfl
  · rfl
  · rfl
  · simp only [pulseStep]
    rw [show (graft s u).reverses = s.reverses from rfl]
    cases s.reverses <;> rfl

/-- `Advance` depends on data registers, PROG, PAL, PLEN and parameters only, and leaves the rest
(43_commands_frame.md R127: RENDER and ADVANCE act on the registers alike). -/
theorem advanceLoad_graft {s u : State} (hc : u.cfg = s.cfg) (hp : u.prog = s.prog)
    (hpal : u.pal = s.pal) (hl : u.plen = s.plen) :
    advanceLoad (graft s u) = (advanceLoad s).graft u := by
  unfold advanceLoad
  rw [show (graft s u).mode = s.mode from rfl, show (graft s u).rem = s.rem from rfl,
    loadNext_graft hc hp hpal hl, runStep_graft]
  split <;> rfl

theorem settle_loaded (s t : State) : (LoadResult.loaded t).settle s = t := rfl

theorem settle_raised (s : State) (c : FaultCode) (a : Nat) :
    (LoadResult.raised c a).settle s = s.faultEntry c a := rfl

/-- An `Advance` without a fault, in the form of `advanceN`. -/
theorem unfaulted_advance {s t : State} (h : unfaulted (advance s) = some t) :
    advanceLoad s = .loaded t ∧ t.phase ≠ .faulted := by
  rw [advance_eq] at h
  cases ha : advanceLoad s with
  | raised c a =>
    rw [ha, settle_raised, unfaulted, if_pos (State.faultEntry_phase s c a)] at h
    cases h
  | loaded t' =>
    rw [ha, settle_loaded, unfaulted] at h
    by_cases hp : t'.phase = .faulted
    · rw [if_pos hp] at h; cases h
    · rw [if_neg hp] at h; cases h
      exact ⟨rfl, hp⟩

theorem unfaulted_of_loaded {s t : State} (h : advanceLoad s = .loaded t)
    (hp : s.phase ≠ .faulted) : unfaulted (advance s) = some t := by
  rw [advance_eq, h, settle_loaded, unfaulted, if_neg]
  rw [(advanceLoad_control h).phase]
  exact hp

end Sys2Proof.Machine
end

