-- ==== Sys2Proof/Laws/Invariants.lean ====
section
/-! SUPPORT. The register invariant through fault entry, loads, `Advance`, INIT and the host's writes. -/

namespace Sys2Proof.Machine

theorem running_of_busy {p : Phase} (h : p.busy = true) : p.running = true := by
  cases p <;> first | rfl | cases h

theorem ne_faulted_of_running {p : Phase} (h : p.running = true) : p ≠ .faulted := by
  rintro rfl; cases h

/-- Fault entry keeps the invariant: the code is a fault, the address fits. -/
theorem Inv.faultEntry {s : State} (h : Inv s) {c : FaultCode} {a : Nat} (hc : c ≠ .noFault)
    (ha : a < 2 ^ s.cfg.curW) : Inv (s.faultEntry c a) where
  cfgLegal := h.cfgLegal
  progWf := h.progWf
  palWf := h.palWf
  faultIff := ⟨fun _ => rfl, fun _ => hc⟩
  addrClear := fun hp => absurd rfl hp
  cursorLe := fun hp => by cases hp
  gapBlack := fun hp => by cases hp
  pulseWithin := fun hp => by cases hp
  cursorFits := h.cursorFits
  plenFits := h.plenFits
  npixFits := h.npixFits
  cntFits := h.cntFits
  addrFits := ha

/-- A change of data registers keeps the invariant if the new data meet their part of it. -/
theorem Inv.ofData {s t : State} (h : Inv s) (hc : SameControl s t) (hcur : t.cursor ≤ s.plen)
    (hg : t.mode = .gap → t.cur = Colour.black) (hp : t.mode = .pulse → t.curWithin) : Inv t where
  cfgLegal := by rw [hc.cfg]; exact h.cfgLegal
  progWf := by rw [hc.prog]; exact h.progWf
  palWf := by rw [hc.pal]; exact h.palWf
  faultIff := by rw [hc.faultCode, hc.phase]; exact h.faultIff
  addrClear := by rw [hc.faultAddr, hc.phase]; exact h.addrClear
  cursorLe := fun _ => by rw [hc.plen]; exact hcur
  gapBlack := fun _ => hg
  pulseWithin := fun _ => hp
  cursorFits := by rw [hc.cfg]; exact Nat.lt_of_le_of_lt hcur h.plenFits
  plenFits := by rw [hc.plen, hc.cfg]; exact h.plenFits
  npixFits := by rw [hc.npix, hc.cfg]; exact h.npixFits
  cntFits := by rw [hc.cnt, hc.cfg]; exact h.cntFits
  addrFits := by rw [hc.faultAddr, hc.cfg]; exact h.addrFits

/-- A load keeps the invariant (10_state.md R37, from R100 to R102, R110). -/
theorem Inv.loadedState {s : State} (h : Inv s) {i : Instr} {o : Nat} (hi : loadsRun i = true)
    (ho : o + i.size ≤ s.plen) : Inv (loadedState i o s) := by
  refine h.ofData (loadedState_control i o s) (by rw [loadedState_cursor hi]; exact ho) ?_ ?_
  · cases i <;> intro hm <;> first | rfl | cases hm | cases hi
  · cases i <;> intro hm <;> first
    | (intro c; exact within_start _ _)
    | cases hm
    | cases hi

/-- A step part keeps the invariant (10_state.md R37, 42_pulse.md R116 (a)). -/
theorem Inv.runStep {s : State} (h : Inv s) (hr : s.phase.running = true) : Inv (runStep s) := by
  have hcur := h.cursorLe hr
  have hg := h.gapBlack hr
  unfold Machine.runStep
  cases hm : s.mode
  · exact h.ofData ⟨rfl, rfl, rfl, rfl, rfl, rfl, rfl, rfl, rfl, rfl, rfl⟩ hcur (fun _ => hg hm)
      (fun hp => by simp [stepGap, hm] at hp)
  · exact h.ofData ⟨rfl, rfl, rfl, rfl, rfl, rfl, rfl, rfl, rfl, rfl, rfl⟩ hcur
      (fun hp => by simp [stepSolid, hm] at hp) (fun hp => by simp [stepSolid, hm] at hp)
  · exact h.ofData ⟨rfl, rfl, rfl, rfl, rfl, rfl, rfl, rfl, rfl, rfl, rfl⟩ hcur
      (fun hp => by simp [stepGradient, hm] at hp) (fun hp => by simp [stepGradient, hm] at hp)
  · obtain ⟨c, d, e⟩ := pulseStep_eq s
    have hw := pulseStep_curWithin s
    simp only [e] at hw ⊢
    exact h.ofData ⟨rfl, rfl, rfl, rfl, rfl, rfl, rfl, rfl, rfl, rfl, rfl⟩ hcur
      (fun hp => by simp [hm] at hp) (fun _ => hw)

/-- `Advance` keeps the invariant, its faults included. -/
theorem Inv.advance {s : State} (h : Inv s) (hr : s.phase.running = true) :
    Inv ((advanceLoad s).settle s) := by
  cases ha : advanceLoad s with
  | loaded t =>
    rw [settle_loaded]
    rcases advanceLoad_loaded ha with ⟨_, rfl⟩ | ⟨_, _, _, i, o, hi, _, hl, rfl⟩
    · exact h.runStep hr
    · exact h.loadedState hi hl
  | raised c a =>
    rw [settle_raised]
    unfold advanceLoad at ha
    split at ha
    · obtain ⟨hc, hb⟩ := loadNext_raised ha
      refine h.faultEntry hc ?_
      have h1 := h.cursorFits
      have h2 := h.plenFits
      rcases hb with rfl | hb <;> omega
    · cases ha

/-- A load in whatever phase keeps the invariant too. -/
theorem Inv.setPhase {s : State} (h : Inv s) (hr : s.phase.running = true) {p : Phase}
    (hp : p.running = true) : Inv (s.setPhase p) where
  cfgLegal := h.cfgLegal
  progWf := h.progWf
  palWf := h.palWf
  faultIff := by
    have h1 : ¬ s.faultCode ≠ .noFault := fun hf => ne_faulted_of_running hr (h.faultIff.mp hf)
    exact ⟨fun hf => absurd hf h1, fun hf => absurd hf (ne_faulted_of_running hp)⟩
  addrClear := fun _ => h.addrClear (ne_faulted_of_running hr)
  cursorLe := fun _ => h.cursorLe hr
  gapBlack := fun _ => h.gapBlack hr
  pulseWithin := fun _ => h.pulseWithin hr
  cursorFits := h.cursorFits
  plenFits := h.plenFits
  npixFits := h.npixFits
  cntFits := h.cntFits
  addrFits := h.addrFits

theorem Inv.setCnt {s : State} (h : Inv s) {n : Nat} (hn : n < 2 ^ s.cfg.cntW) :
    Inv (s.setCnt n) :=
  ⟨h.cfgLegal, h.progWf, h.palWf, h.faultIff, h.addrClear, h.cursorLe, h.gapBlack, h.pulseWithin,
    h.cursorFits, h.plenFits, h.npixFits, hn, h.addrFits⟩

theorem Inv.emit {s : State} (h : Inv s) (e : Event) : Inv (s.emit e) :=
  ⟨h.cfgLegal, h.progWf, h.palWf, h.faultIff, h.addrClear, h.cursorLe, h.gapBlack, h.pulseWithin,
    h.cursorFits, h.plenFits, h.npixFits, h.cntFits, h.addrFits⟩

theorem Inv.setHost {s : State} (h : Inv s) (l : List HostMove) : Inv (s.setHost l) :=
  ⟨h.cfgLegal, h.progWf, h.palWf, h.faultIff, h.addrClear, h.cursorLe, h.gapBlack, h.pulseWithin,
    h.cursorFits, h.plenFits, h.npixFits, h.cntFits, h.addrFits⟩

theorem Inv.setProg {s : State} (h : Inv s) {m : Memory} (hm : Memory.wf m = true) :
    Inv (s.setProg m) :=
  ⟨h.cfgLegal, hm, h.palWf, h.faultIff, h.addrClear, h.cursorLe, h.gapBlack, h.pulseWithin,
    h.cursorFits, h.plenFits, h.npixFits, h.cntFits, h.addrFits⟩

theorem Inv.setPal {s : State} (h : Inv s) {m : Memory} (hm : Memory.wf m = true) :
    Inv (s.setPal m) :=
  ⟨h.cfgLegal, h.progWf, hm, h.faultIff, h.addrClear, h.cursorLe, h.gapBlack, h.pulseWithin,
    h.cursorFits, h.plenFits, h.npixFits, h.cntFits, h.addrFits⟩

theorem Inv.countDown {s : State} (h : Inv s) : Inv (countDown s) := by
  unfold Machine.countDown
  split
  · exact h
  · exact h.setCnt (Nat.lt_of_le_of_lt (Nat.sub_le _ _) h.cntFits)

theorem Inv.frameEnd {s : State} (h : Inv s) (hr : s.phase.running = true) : Inv (frameEnd s) :=
  (h.emit .idle).setPhase hr rfl

/-- Hardware reset establishes the invariant from the instance alone. -/
theorem Inv.hardReset {s : State} (h : Inv s) : Inv s.hardReset where
  cfgLegal := h.cfgLegal
  progWf := h.progWf
  palWf := h.palWf
  faultIff := ⟨fun hf => absurd rfl hf, fun hf => (by cases hf)⟩
  addrClear := fun _ => rfl
  cursorLe := fun hp => by cases hp
  gapBlack := fun hp => by cases hp
  pulseWithin := fun hp => by cases hp
  cursorFits := Nat.two_pow_pos _
  plenFits := Nat.two_pow_pos _
  npixFits := Nat.two_pow_pos _
  cntFits := Nat.two_pow_pos _
  addrFits := Nat.two_pow_pos _

/-- INIT with operands that fit keeps the invariant, its faults included. -/
theorem Inv.initAccepted {s : State} (h : Inv s) {plen npix : Nat} (hp : plen < 2 ^ s.cfg.curW)
    (hn : npix < 2 ^ s.cfg.npixW) : Inv (initAccepted plen npix s) := by
  rcases initAccepted_cases plen npix s with ⟨c, a, hv, e⟩ | ⟨_, i, hi, hf, e⟩
  · obtain ⟨hc, ha⟩ := validateFrom_some hv (Nat.zero_le _)
    rw [e]
    exact ⟨h.cfgLegal, h.progWf, h.palWf, ⟨fun _ => rfl, fun _ => hc⟩, fun hp => absurd rfl hp,
      fun hp => (by cases hp), fun hp => (by cases hp), fun hp => (by cases hp), h.cursorFits, hp, hn,
      h.cntFits, Nat.lt_of_le_of_lt ha hp⟩
  · rw [e]
    have hl := (fetchOpcode_opcode hf).2.1
    have hc := loadedState_control i 0 ((s.bindProgram plen npix).setCursor 0)
    have hcur := loadedState_cursor hi 0 ((s.bindProgram plen npix).setCursor 0)
    refine ⟨by rw [State.setPhase_cfg, hc.cfg]; exact h.cfgLegal,
      by rw [State.setPhase_prog, hc.prog]; exact h.progWf,
      by rw [State.setPhase_pal, hc.pal]; exact h.palWf,
      ⟨fun hf => absurd (by rw [State.setPhase_faultCode, hc.faultCode]; rfl) hf,
        fun hf => (by cases hf)⟩,
      fun _ => by rw [State.setPhase_faultAddr, hc.faultAddr]; rfl,
      fun _ => by
        rw [State.setPhase_cursor, State.setPhase_plen, hcur, hc.plen]
        simpa using hl,
      fun _ => ?_, fun _ => ?_, ?_,
      by rw [State.setPhase_plen, State.setPhase_cfg, hc.plen, hc.cfg]; exact hp,
      by rw [State.setPhase_npix, State.setPhase_cfg, hc.npix, hc.cfg]; exact hn,
      by rw [State.setPhase_cnt, State.setPhase_cfg, hc.cnt, hc.cfg]; exact h.cntFits,
      by rw [State.setPhase_faultAddr, State.setPhase_cfg, hc.faultAddr, hc.cfg]
         exact Nat.two_pow_pos _⟩
    · cases i <;> intro hm <;> first | rfl | cases hm | cases hi
    · cases i <;> intro hm <;> first
        | (intro c; exact within_start _ _)
        | cases hm
        | cases hi
    · rw [State.setPhase_cursor, State.setPhase_cfg, hcur, hc.cfg]
      refine Nat.lt_of_le_of_lt ?_ hp
      simpa using hl

end Sys2Proof.Machine
end

