-- ==== Sys2Proof/Laws/PerInstr.lean ====
section
/-! SUPPORT. The family Encoding: for each constructor, the bytes or the port word it is encoded as have the
length of its format, and a well-formed term of it is read back from them. -/

namespace Sys2Proof.Laws.Encoding

/-- An opcode's bytes are as many as its format has (30_encoding.md R70) and start with the control
byte of its mode (R71); a command's word carries its code (R81). In both cases a term the instance
can encode is decoded back. -/
def Statement (i : Instr) : Prop :=
  (programBytes i).length = i.size ∧
    ∀ cfg : Config, i.wf cfg = true → decode cfg (encode i) = .ok i []

theorem gap (len : BitVec 6) : Statement (.gap len) :=
  ⟨rfl, fun cfg _ => by simpa [decode, encode] using decodeProgram_gap cfg len []⟩

theorem solid (len : BitVec 6) (idx : Byte) : Statement (.solid len idx) :=
  ⟨rfl, fun cfg _ => by simpa [decode, encode] using decodeProgram_solid cfg len idx []⟩

theorem gradient (len : BitVec 6) (idx : Byte) (d : Colour) : Statement (.gradient len idx d) :=
  ⟨rfl, fun cfg _ => by simpa [decode, encode] using decodeProgram_gradient cfg len idx d []⟩

theorem pulse (len : BitVec 6) (st d en : Colour) : Statement (.pulse len st d en) :=
  ⟨rfl, fun cfg h => by simpa [decode, encode] using decodeProgram_pulse cfg len st d en [] h⟩

theorem endOp (len : BitVec 6) : Statement (.endOp len) :=
  ⟨rfl, fun cfg h => by
    simpa [decode, encode] using decodeProgram_endOp cfg len [] (by simpa [Instr.wf] using h)⟩

theorem nop : Statement .nop := ⟨rfl, fun _ _ => rfl⟩

theorem init (plen npix : Nat) : Statement (.init plen npix) :=
  ⟨rfl, fun cfg h => by
    simp only [Instr.wf, Bool.and_eq_true, decide_eq_true_eq] at h
    simp [decode, encode, decodeCommand, Nat.mod_eq_of_lt h.1, Nat.mod_eq_of_lt h.2]⟩

theorem render : Statement .render := ⟨rfl, fun _ _ => rfl⟩

theorem advance (steps : Nat) : Statement (.advance steps) :=
  ⟨rfl, fun cfg h => by
    simp only [Instr.wf, decide_eq_true_eq] at h
    simp [decode, encode, decodeCommand, Nat.mod_eq_of_lt h]⟩

end Sys2Proof.Laws.Encoding
end

