-- ==== Sys2Proof/Laws/Runs.lean ====
section
/-! SUPPORT. Runs of several steps and of several advances, and what one step of the machine can be: the
case lemmas that claims about all steps cite. -/

namespace Sys2Proof.Machine

/-! ## Runs of the machine -/

/-- A run that starts with a step to `t` goes on from `t`. -/
theorem run_succ (k : Nat) (s t : State) (h : step s = .next t) :
    Host.Core.run core (k + 1) s = Host.Core.run core k t := by
  have h' : core.step s = .next t := h
  refine (Host.Core.run.eq_2 core s k).trans ?_
  rw [h']

/-- Runs compose. -/
theorem run_add (j k : Nat) (s t : State) (h : Host.Core.run core j s = .next t) :
    Host.Core.run core (j + k) s = Host.Core.run core k t := by
  induction j generalizing s with
  | zero => cases h; rw [Nat.zero_add]
  | succ j ih =>
    have h2 := (Host.Core.run.eq_2 core s j).symm.trans h
    cases hs : step s with
    | next u =>
      rw [show core.step s = .next u from hs] at h2
      rw [show j + 1 + k = (j + k) + 1 by omega, run_succ _ s u hs]
      exact ih u h2
    | fault r => rw [show core.step s = .fault r from hs] at h2; cases h2
    | refused r => rw [show core.step s = .refused r from hs] at h2; cases h2

/-! ## Runs of `Advance` -/

theorem advanceN_succ {k : Nat} {s t u : State} (h : advanceLoad s = .loaded t)
    (hp : s.phase ≠ .faulted) (h2 : advanceN k t = some u) : advanceN (k + 1) s = some u := by
  rw [advanceN, unfaulted_of_loaded h hp]
  exact h2

theorem advanceN_split {k : Nat} {s t : State} (h : advanceN (k + 1) s = some t) :
    ∃ u, advanceLoad s = .loaded u ∧ u.phase ≠ .faulted ∧ advanceN k u = some t := by
  rw [advanceN] at h
  cases hu : unfaulted (advance s) with
  | none => rw [hu] at h; cases h
  | some u =>
    rw [hu] at h
    obtain ⟨h1, h2⟩ := unfaulted_advance hu
    exact ⟨u, h1, h2, h⟩

theorem advanceN_add (a b : Nat) (s : State) :
    advanceN (a + b) s = (advanceN a s).bind (advanceN b) := by
  induction a generalizing s with
  | zero => simp [advanceN]
  | succ a ih =>
    rw [show a + 1 + b = (a + b) + 1 by omega, advanceN, advanceN]
    cases unfaulted (advance s) with
    | none => rfl
    | some t => simp [ih]

theorem SameControl.trans {s t u : State} (a : SameControl s t) (b : SameControl t u) :
    SameControl s u :=
  ⟨b.1.trans a.1, b.2.trans a.2, b.3.trans a.3, b.4.trans a.4, b.5.trans a.5, b.6.trans a.6,
    b.7.trans a.7, b.8.trans a.8, b.9.trans a.9, b.10.trans a.10, b.11.trans a.11⟩

/-- Any number of advances touches data registers only. -/
theorem advanceN_control {k : Nat} {s t : State} (h : advanceN k s = some t) : SameControl s t := by
  induction k generalizing s with
  | zero => cases h; exact SameControl.refl _
  | succ k ih =>
    obtain ⟨u, hl, _, ht⟩ := advanceN_split h
    exact (advanceLoad_control hl).trans (ih ht)

/-- And depends on nothing else than them, the memories, PLEN and the parameters. -/
theorem advanceN_graft {k : Nat} {s t w : State} (h : advanceN k s = some t)
    (hw : w.phase ≠ .faulted) (h1 : w.cfg = s.cfg) (h2 : w.prog = s.prog) (h3 : w.pal = s.pal)
    (h4 : w.plen = s.plen) : advanceN k (graft s w) = some (graft t w) := by
  induction k generalizing s with
  | zero => cases h; rfl
  | succ k ih =>
    obtain ⟨u, hl, _, ht⟩ := advanceN_split h
    have hc := advanceLoad_control hl
    have hx : advanceLoad (graft s w) = .loaded (graft u w) := by
      rw [advanceLoad_graft h1 h2 h3 h4, hl]; rfl
    rw [advanceN, unfaulted_of_loaded hx hw]
    exact ih ht (h1.trans hc.cfg.symm) (h2.trans hc.prog.symm) (h3.trans hc.pal.symm)
      (h4.trans hc.plen.symm)

/-- While REM is not 0, or a PULSE runs, an advance is a step part (41_run_modes.md R103). -/
theorem advanceLoad_step {s : State} (h : s.mode = .pulse ∨ s.rem ≠ 0) :
    advanceLoad s = .loaded (runStep s) := by
  unfold advanceLoad
  rw [if_neg]
  rintro ⟨hm, hr⟩
  rcases h with h | h
  · exact hm h
  · exact h hr

/-- With no run active an advance is a `LoadNext`. -/
theorem advanceLoad_load {s : State} (hm : s.mode ≠ .pulse) (hr : s.rem = 0) :
    advanceLoad s = loadNext s := by
  unfold advanceLoad
  rw [if_pos ⟨hm, hr⟩]

theorem rem_pred {r : BitVec 6} (h : r ≠ 0) : (r - 1).toNat = r.toNat - 1 := by
  have : r.toNat ≠ 0 := fun h' => h (BitVec.eq_of_toNat_eq h')
  bv_omega

/-! ## One step, by cases -/

/-- An `Advance`, its fault included, leaves TX, CNT, the host, the memories and the parameters, and
PHASE unless it faults. -/
theorem settle_advance (s : State) :
    ((advanceLoad s).settle s).tx = s.tx ∧ ((advanceLoad s).settle s).cnt = s.cnt ∧
      ((advanceLoad s).settle s).host = s.host ∧ ((advanceLoad s).settle s).cfg = s.cfg ∧
      ((advanceLoad s).settle s).prog = s.prog ∧ ((advanceLoad s).settle s).pal = s.pal ∧
      (((advanceLoad s).settle s).phase = s.phase ∨
        ((advanceLoad s).settle s).phase = .faulted) := by
  cases h : advanceLoad s with
  | loaded t =>
    have hc := advanceLoad_control h
    exact ⟨hc.tx, hc.cnt, hc.host, hc.cfg, hc.prog, hc.pal, .inl hc.phase⟩
  | raised c a => exact ⟨rfl, rfl, rfl, rfl, rfl, rfl, .inr rfl⟩

theorem countDown_faulted {t : State} (h : t.phase = .faulted) : countDown t = t := by
  rw [countDown, if_pos h]

theorem countDown_running {t : State} (h : t.phase ≠ .faulted) :
    countDown t = { t with cnt := t.cnt - 1 } := by
  rw [countDown, if_neg h]; rfl

/-- All that a step of the core alone can be. -/
theorem coreStep_cases {s t : State} (h : coreStep s = .next t) :
    (s.phase.busy = false ∧ t = s) ∨
    (s.phase = .rendering ∧ s.cnt = 0 ∧ t = frameEnd s) ∨
    (s.phase = .stepping ∧ s.cnt = 0 ∧ t = s.setPhase .ready) ∨
    (s.phase = .rendering ∧ s.cnt ≠ 0 ∧
      t = countDown ((advanceLoad (s.emit (.color s.cur))).settle (s.emit (.color s.cur)))) ∨
    (s.phase = .stepping ∧ s.cnt ≠ 0 ∧ t = countDown ((advanceLoad s).settle s)) := by
  rw [coreStep_eq] at h
  cases h
  cases hp : s.phase
  · exact .inl ⟨rfl, rfl⟩
  · exact .inl ⟨rfl, rfl⟩
  · by_cases hc : s.cnt = 0
    · exact .inr (.inl ⟨rfl, hc, by simp only [if_pos hc]⟩)
    · exact .inr (.inr (.inr (.inl ⟨rfl, hc, by simp only [if_neg hc]⟩)))
  · by_cases hc : s.cnt = 0
    · exact .inr (.inr (.inl ⟨rfl, hc, by simp only [if_pos hc]⟩))
    · exact .inr (.inr (.inr (.inr ⟨rfl, hc, by simp only [if_neg hc]⟩)))
  · exact .inl ⟨rfl, rfl⟩

/-- All that a step of the machine can be: the core's own, a reset, a command, a write. -/
theorem step_next_cases {s t : State} (h : step s = .next t) :
    (∃ s', (s' = s ∨ ∃ rest, s.host = .wait :: rest ∧ s' = s.setHost rest) ∧
      coreStep s' = .next t) ∨
    (∃ rest, s.host = .reset :: rest ∧ t = (s.setHost rest).hardReset) ∨
    (s.phase.busy = false ∧
      ((∃ w rest, s.host = .command w :: rest ∧
          exec (decodeCommand s.cfg w) (s.setHost rest) = .next t) ∨
       (∃ off b rest, s.host = .writeProg off b :: rest ∧ off < 2 ^ s.cfg.curW ∧
          t = (s.setHost rest).setProg (Memory.write s.prog off b)) ∨
       (∃ addr b rest, s.host = .writePal addr b :: rest ∧ addr < 3 * s.cfg.palSize ∧
          t = (s.setHost rest).setPal (Memory.write s.pal addr b)))) := by
  rw [step] at h
  cases hh : s.host with
  | nil => rw [hh] at h; exact .inl ⟨s, .inl rfl, h⟩
  | cons m rest =>
    rw [hh] at h
    cases m with
    | reset => cases h; exact .inr (.inl ⟨rest, rfl, rfl⟩)
    | wait => exact .inl ⟨s.setHost rest, .inr ⟨rest, rfl, rfl⟩, h⟩
    | command w =>
      simp only [takeMove] at h
      split at h
      · exact .inl ⟨s, .inl rfl, h⟩
      · exact .inr (.inr ⟨by simpa using ‹¬ s.phase.busy = true›, .inl ⟨w, rest, rfl, h⟩⟩)
    | writeProg off b =>
      simp only [takeMove] at h
      split at h
      · exact .inl ⟨s, .inl rfl, h⟩
      · rename_i hb
        unfold hostWriteProg at h
        split at h <;> cases h
        exact .inr (.inr ⟨by simpa using hb, .inr (.inl ⟨off, b, rest, rfl, ‹_›, rfl⟩)⟩)
    | writePal addr b =>
      simp only [takeMove] at h
      split at h
      · exact .inl ⟨s, .inl rfl, h⟩
      · rename_i hb
        unfold hostWritePal at h
        split at h <;> cases h
        exact .inr (.inr ⟨by simpa using hb, .inr (.inr ⟨addr, b, rest, rfl, ‹_›, rfl⟩)⟩)

/-- The four commands a port word can be (30_encoding.md R81), each operand fitting its register. -/
theorem decodeCommand_cases (cfg : Config) (w : CommandWord) :
    decodeCommand cfg w = .nop ∨
    (∃ p n, decodeCommand cfg w = .init p n ∧ p < 2 ^ cfg.curW ∧ n < 2 ^ cfg.npixW) ∨
    decodeCommand cfg w = .render ∨
    ∃ k, decodeCommand cfg w = .advance k ∧ k < 2 ^ cfg.stepW := by
  have h := decodeCommand_wf cfg w
  have h2 := decodeCommand_not_opcode cfg w
  cases hd : decodeCommand cfg w <;> rw [hd] at h h2 <;> try exact Bool.noConfusion h2
  · exact .inl rfl
  · simp only [Instr.wf, Bool.and_eq_true, decide_eq_true_eq] at h
    exact .inr (.inl ⟨_, _, rfl, h⟩)
  · exact .inr (.inr (.inl rfl))
  · simp only [Instr.wf, decide_eq_true_eq] at h
    exact .inr (.inr (.inr ⟨_, rfl, h⟩))

/-- What starting a RENDER or an ADVANCE leaves alone. -/
theorem startWork_frame (p : Phase) (n : Nat) (s : State) :
    SameData s (startWork p n s) ∧ (startWork p n s).plen = s.plen ∧
      (startWork p n s).npix = s.npix ∧ (startWork p n s).cfg = s.cfg ∧
      (startWork p n s).tx = s.tx ∧ (startWork p n s).host = s.host ∧
      (startWork p n s).prog = s.prog ∧ (startWork p n s).pal = s.pal := by
  unfold startWork
  cases s.phase <;>
    exact ⟨⟨rfl, rfl, rfl, rfl, rfl, rfl, rfl, rfl⟩, rfl, rfl, rfl, rfl, rfl, rfl, rfl⟩

/-- What an accepted INIT leaves alone. -/
theorem initAccepted_frame (p n : Nat) (s : State) :
    (initAccepted p n s).cfg = s.cfg ∧ (initAccepted p n s).tx = s.tx ∧
      (initAccepted p n s).host = s.host ∧ (initAccepted p n s).prog = s.prog ∧
      (initAccepted p n s).pal = s.pal := by
  rcases initAccepted_cases p n s with ⟨c, a, _, e⟩ | ⟨_, i, _, _, e⟩ <;> rw [e]
  · exact ⟨rfl, rfl, rfl, rfl, rfl⟩
  · have hc := loadedState_control i 0 ((s.bindProgram p n).setCursor 0)
    exact ⟨hc.cfg, hc.tx, hc.host, hc.prog, hc.pal⟩

/-! ## A fetched opcode and its class; offsets of the linear decode -/

/-- A fetched opcode against the class of its control byte (30_encoding.md R73, R74; 40_decoder.md
R93). -/
theorem fetchOpcode_class {s : State} {o : Nat} {i : Instr} (h : fetchOpcode s o = .opcode i) :
    ((∃ l, i = .endOp l) ↔ classify s.cfg (s.progRead o) = .endOp) ∧
    (loadsRun i = true →
      (indexOk s i ↔
        ((classify s.cfg (s.progRead o) = .solid ∨ classify s.cfg (s.progRead o) = .gradient) →
          (s.progRead (o + 1)).toNat < s.cfg.palSize))) ∧
    i.size = 1 + nParams (classify s.cfg (s.progRead o)) := by
  obtain ⟨_, _, h1, hd⟩ := fetchOpcode_opcode h
  obtain ⟨c, ps, hb, hc⟩ := decodeProgram_cases hd
  rw [show i.size = (i.size - 1) + 1 by omega, State.progBytes] at hb
  obtain ⟨rfl, rfl⟩ := List.cons.inj hb
  rcases hc with ⟨hk, rfl, _⟩ | ⟨hk, idx, hp, rfl⟩ | ⟨hk, idx, _, _, _, hp, rfl⟩ |
      ⟨hk, _, _, _, _, _, _, _, _, _, hp, rfl⟩ | ⟨hk, rfl, _⟩ <;> rw [hk]
  · simp [indexOk, loadsRun, Instr.size, nParams]
  · simp only [Instr.size, State.progBytes, Nat.add_one_sub_one, List.cons.injEq] at hp
    simp [indexOk, loadsRun, Instr.size, nParams, hp]
  · simp only [Instr.size, State.progBytes, Nat.add_one_sub_one, List.cons.injEq] at hp
    simp [indexOk, loadsRun, Instr.size, nParams, hp]
  · simp [indexOk, loadsRun, Instr.size, nParams]
  · simp [indexOk, loadsRun, Instr.size, nParams]

theorem opcodeOffsets_head (s : State) {f : Nat} (o : Nat) (h : 0 < f) :
    o ∈ opcodeOffsets s f o := by
  cases f with
  | zero => omega
  | succ f =>
    rw [opcodeOffsets]
    cases fetchOpcode s o with
    | raised => simp
    | opcode i => cases i <;> simp

/-- After an opcode boundary that holds a run comes another boundary (10_state.md R37 (b)). -/
theorem opcodeOffsets_next (s : State) {i : Instr} (hi : loadsRun i = true) {o : Nat}
    (hf : fetchOpcode s o = .opcode i) (f a : Nat) (hfa : s.plen + 1 ≤ f + a)
    (h : o ∈ opcodeOffsets s f a) : o + i.size ∈ opcodeOffsets s f a := by
  have hl := fetchOpcode_opcode hf
  induction f generalizing a with
  | zero => cases h
  | succ f ih =>
    by_cases hoa : o = a
    · subst hoa
      have hm := opcodeOffsets_head s (f := f) (o + i.size) (by omega)
      rw [opcodeOffsets, hf]
      cases i <;> first | exact Bool.noConfusion hi | exact List.mem_cons_of_mem _ hm
    · rw [opcodeOffsets] at h ⊢
      cases hfa' : fetchOpcode s a with
      | raised =>
        rw [hfa'] at h
        exact absurd (List.mem_singleton.mp h) hoa
      | opcode j =>
        rw [hfa'] at h
        have hj := fetchOpcode_opcode hfa'
        have go : o ∈ opcodeOffsets s f (a + j.size) → o + i.size ∈ opcodeOffsets s f (a + j.size) :=
          ih _ (by omega)
        cases j <;> simp only [Instr.isOpcode, Bool.false_eq_true] at hj <;>
          simp only [List.mem_cons] at h ⊢
        all_goals first
          | exact .inr (go (h.resolve_left hoa))
          | exact absurd (h.resolve_right List.not_mem_nil) hoa

theorem opcodeOffsets_congr {s t : State} (hc : t.cfg = s.cfg) (hp : t.prog = s.prog)
    (hl : t.plen = s.plen) (f o : Nat) : opcodeOffsets t f o = opcodeOffsets s f o := by
  induction f generalizing o with
  | zero => rfl
  | succ f ih =>
    rw [opcodeOffsets, opcodeOffsets, fetchOpcode_congr hc hp hl]
    cases fetchOpcode s o with
    | raised => rfl
    | opcode i => cases i <;> simp only [ih]

/-- What the walk over the runs of a program finds at an offset: an END and no run, or a GAP, SOLID or
GRADIENT in front of the runs after it (40_decoder.md R98). -/
theorem runsFrom_cases {s : State} {f o : Nat} {ops : List Instr} (h : runsFrom s f o = some ops) :
    ∃ f', f = f' + 1 ∧
      ((ops = [] ∧ ∃ l, fetchOpcode s o = .opcode (.endOp l)) ∨
        ∃ i rest, ops = i :: rest ∧ loadsRun i = true ∧ (∀ l st d en, i ≠ .pulse l st d en) ∧
          fetchOpcode s o = .opcode i ∧ runsFrom s f' (o + i.size) = some rest) := by
  cases f with
  | zero => cases h
  | succ f =>
    refine ⟨f, rfl, ?_⟩
    rw [runsFrom] at h
    cases hf : fetchOpcode s o with
    | raised => rw [hf] at h; cases h
    | opcode i =>
      rw [hf] at h
      cases i <;> try (cases h; done)
      case endOp k => cases h; exact .inl ⟨rfl, k, rfl⟩
      all_goals
        obtain ⟨r, hr, rfl⟩ := Option.map_eq_some_iff.mp h
        exact .inr ⟨_, r, rfl, rfl, fun _ _ _ _ => Instr.noConfusion, rfl, hr⟩

end Sys2Proof.Machine
end

