-- ==== Sys2Proof/Tests/Slice0.lean ====
section
/-! SUPPORT. The model's own tests, with expected values from spec/95_test_vectors.md and hand calculation
from the rules, and for each statement with hypotheses a witness that meets them. -/

namespace Sys2Proof.Tests

open Sys2Proof Sys2Proof.Machine

/-! ## Helpers -/

/-- The state an outcome goes on to. -/
def after? : Host.Outcome State Fault Refusal → Option State
  | .next t => some t
  | .fault _ => none
  | .refused _ => none

/-- A default instance with two palette entries, (1,2,3) and (200,100,50), and a program. -/
def withProgram (bytes : List Byte) : State :=
  { State.reset with
    cfg := { Config.default with palSize := 2 }
    prog := Memory.writeBytes [] 0 bytes
    pal := Memory.writeBytes [] 0 [1, 2, 3, 200, 100, 50]
    plen := bytes.length }

/-- `[SOLID len=3 idx=1, GRADIENT len=4 idx=0 delta=(+16,-1,0), GAP len=2, END]`, READY as INIT leaves
it. -/
def demo : State :=
  { withProgram [0x42, 0x01, 0x83, 0x00, 0x10, 0xFF, 0x00, 0x01, 0xFF] with
    npix := 3, phase := .ready, mode := .solid, rem := 2, cur := ⟨200, 100, 50⟩, cursor := 2 }

/-- The same with another CURSOR and no run active. -/
def demoAt (o : Nat) : State := { demo with cursor := o, rem := 0 }

/-- A PULSE running forward, in a silent step. -/
def pulsing (st d en : Colour) : State :=
  { withProgram [] with
    phase := .stepping, cnt := 1, mode := .pulse, cur := st, startBound := st, delta := d
    endBound := en }

/-- PHASE, FAULTCODE and FAULTADDR after an outcome. -/
def faultOf (o : Host.Outcome State Fault Refusal) : Option (Phase × FaultCode × Nat) :=
  (after? o).map fun t => (t.phase, t.faultCode, t.faultAddr)

/-- MODE, REM, CUR and CURSOR after an outcome. -/
def runOf (o : Host.Outcome State Fault Refusal) : Option (Mode × BitVec 6 × Colour × Nat) :=
  (after? o).map fun t => (t.mode, t.rem, t.cur, t.cursor)

/-! ## Ill-formed terms, one for each check of `Instr.wf` -/

/-- 30_encoding.md R73: L = 32 selects END, so no PULSE has it. -/
theorem test_wf_refuses_pulse_32 :
    (Instr.pulse 32 ⟨0, 0, 0⟩ ⟨0, 0, 0⟩ ⟨0, 0, 0⟩).wf Config.default = false := by decide

/-- 30_encoding.md R73: L = 31 selects PULSE, so no END has it. -/
theorem test_wf_refuses_end_31 : (Instr.endOp 31).wf Config.default = false := by decide

/-- 10_state.md R28: PLEN has CUR_W = 16 bits. -/
theorem test_wf_refuses_wide_plen : (Instr.init 65536 0).wf Config.default = false := by decide

/-- 10_state.md R29: NPIX has NPIX_W = 16 bits. -/
theorem test_wf_refuses_wide_npix : (Instr.init 0 65536).wf Config.default = false := by decide

/-- 43_commands_frame.md R125: the ADVANCE operand has STEP_W = 16 bits. -/
theorem test_wf_refuses_wide_steps : (Instr.advance 65536).wf Config.default = false := by decide

/-! ## Decoding words written out from the tables of 30_encoding.md R75 and R81 -/

/-- 00 LLLLLL, vector E2. -/
theorem test_decode_gap :
    decodeProgram Config.default [0b00000101#8, 0x41#8] = .ok (.gap 5) [0x41#8] := by decide

/-- 01 LLLLLL, idx. -/
theorem test_decode_solid :
    decodeProgram Config.default [0b01111111#8, 0xC8#8] = .ok (.solid 63 200) [] := by decide

/-- 10 LLLLLL, idx, dr, dg, db. -/
theorem test_decode_gradient :
    decodeProgram Config.default [0b10000000#8, 0x03#8, 0xFF#8, 0x80#8, 0x7F#8] =
      .ok (.gradient 0 3 ⟨0xFF, 0x80, 0x7F⟩) [] := by decide

/-- 110 LLLLL, sr sg sb dr dg db er eg eb, vector E12. -/
theorem test_decode_pulse :
    decodeProgram Config.default [0b11011111#8, 1, 2, 3, 0xFE, 0, 5, 0, 2, 9] =
      .ok (.pulse 31 ⟨1, 2, 3⟩ ⟨0xFE, 0, 5⟩ ⟨0, 2, 9⟩) [] := by decide

/-- 111 LLLLL, vector E13. -/
theorem test_decode_end :
    decodeProgram Config.default [0b11100000#8] = .ok (.endOp 32) [] := by decide

/-- With PULSE_SEL constantly false every mode-11 byte is END. -/
theorem test_decode_end_without_pulse :
    decodeProgram { Config.default with pulseSel := 0 } [0xC0#8] = .ok (.endOp 0) [] := by decide

theorem test_decode_truncated :
    decodeProgram Config.default [0x80#8, 0, 0, 0] = .rejected .missingParameters := by decide

theorem test_decode_nop : decodeCommand Config.default ⟨0b00#2, 7, 9⟩ = .nop := by decide
theorem test_decode_init : decodeCommand Config.default ⟨0b01#2, 3, 5⟩ = .init 3 5 := by decide
theorem test_decode_render : decodeCommand Config.default ⟨0b10#2, 7, 9⟩ = .render := by decide
theorem test_decode_advance : decodeCommand Config.default ⟨0b11#2, 7, 9⟩ = .advance 9 := by decide

/-- The table's numbering: the control byte is bits 7..0, the next byte bits 15..8. -/
theorem test_table_words :
    decodeTableWord 16 0xC87F = some (.solid 63 200) ∧ decodeTableWord 2 3 = some (.advance 0) ∧
      decodeTableWord 80 (0xC0 + 0x09 * 2 ^ 72) =
        some (.pulse 0 ⟨0, 0, 0⟩ ⟨0, 0, 0⟩ ⟨0, 0, 9⟩) := by decide

/-- Assembly of 95_test_vectors.md 2.1. -/
theorem test_assembly_bytes :
    (AsmOp.pulse none ⟨1, 2, 3⟩ ⟨-2, 0, 5⟩ ⟨0, 2, 9⟩).bytes =
        [0xC0, 1, 2, 3, 0xFE, 0, 5, 0, 2, 9] ∧
      (AsmOp.gradient 1 3 ⟨-1, -128, 127⟩).bytes = [0x80, 3, 0xFF, 0x80, 0x7F] ∧
      AsmOp.endOp.bytes = [0xFF] := by decide

/-- The document's own notation (30_encoding.md R78), with its bytes of 95_test_vectors.md X2. -/
theorem test_assembly_text :
    assembleText "[GRADIENT len=3 idx=0 delta=(+10,0,0), END]" =
        some [0x82, 0x00, 0x0A, 0x00, 0x00, 0xFF] ∧
      assembleText "[PULSE start=(1,2,3) delta=(-2,0,+5) end=(0,2,9)]" =
        some [0xC0, 1, 2, 3, 0xFE, 0, 5, 0, 2, 9] ∧
      assembleText "[GAP len=65]" = none := by decide

/-! ## One step of each instruction -/

/-- GAP len=2 at offset 7: black, REM 1, CURSOR 8. -/
theorem test_gap_load :
    runOf (exec (.gap 1) (demoAt 7)) = some (.gap, 1, ⟨0, 0, 0⟩, 8) := by decide

/-- GAP where PLEN = CURSOR: NO_END there. -/
theorem test_gap_no_end :
    faultOf (exec (.gap 1) (demoAt 9)) = some (.faulted, .noEnd, 9) := by decide

/-- Vector F14. -/
theorem test_solid_load :
    runOf (exec (.solid 1 1) (demoAt 0)) = some (.solid, 1, ⟨200, 100, 50⟩, 2) := by decide

/-- Vector F11: index 2 of two entries, the address is the index byte's. -/
theorem test_solid_pal_index :
    faultOf (exec (.solid 1 2) (demoAt 0)) = some (.faulted, .palIndex, 1) := by decide

/-- Vector F13: truncated and out of the palette is TRUNCATED. -/
theorem test_gradient_truncated_first :
    faultOf (exec (.gradient 0 9 ⟨0, 0, 0⟩) (demoAt 5)) = some (.faulted, .truncated, 5) := by decide

/-- Vector G1: 250 + 10, 5 - 10 and 128 - 128, modulo 256. -/
theorem test_gradient_wraps :
    runOf (advance { demo with mode := .gradient, cur := ⟨250, 5, 128⟩, delta := ⟨0x0A, 0xF6, 0x80⟩ }) =
      some (.gradient, 1, ⟨4, 251, 0⟩, 2) := by decide

/-- Vector PU2: candidate 300 is past 255, so CUR is E and DIR reverse. -/
theorem test_pulse_near_255 :
    (after? (step { pulsing ⟨200, 0, 0⟩ ⟨50, 0, 0⟩ ⟨255, 0, 0⟩ with cur := ⟨250, 0, 0⟩ })).map
      (fun t => (t.cur, t.dir, t.cnt)) = some (⟨255, 0, 0⟩, .reverse, 0) := by decide

/-- Vector PU10: in reverse a delta of -128 moves up by 128, 383 crosses, CUR is S. -/
theorem test_pulse_delta_minus_128 :
    (after? (step { pulsing ⟨0, 0, 0⟩ ⟨0x80, 0, 0⟩ ⟨255, 0, 0⟩ with
      cur := ⟨255, 0, 0⟩, dir := .reverse })).map (fun t => (t.cur, t.dir)) =
      some (⟨0, 0, 0⟩, .forward) := by decide

/-- END at offset 8 loads the SOLID at 0. -/
theorem test_end_restarts :
    runOf (exec (.endOp 63) (demoAt 8)) = some (.solid, 2, ⟨200, 100, 50⟩, 2) := by decide

/-- Vector F5: END at offset 0. -/
theorem test_end_empty_loop :
    faultOf (exec (.endOp 63) (demoAt 0)) = some (.faulted, .emptyLoop, 0) := by decide

/-- Vector F19. -/
theorem test_nop : after? (exec .nop State.reset) = some State.reset := by decide

/-- INIT of the demo program from UNINIT. -/
theorem test_init_accepts :
    (after? (exec (.init 9 4) (withProgram [0x42, 0x01, 0x83, 0x00, 0x10, 0xFF, 0x00, 0x01, 0xFF]))).map
      (fun t => (t.phase, t.plen, t.npix, t.cursor, t.rem, t.cur)) =
      some (.ready, 9, 4, 2, 2, ⟨200, 100, 50⟩) := by decide

/-- Vector F8: the second opcode needs a byte past PLEN; no data register is loaded. -/
theorem test_init_rejects :
    (after? (exec (.init 6 4) (withProgram [0x40, 0x00, 0x82, 0x00, 0x01, 0x02]))).map
      (fun t => (t.phase, t.faultCode, t.faultAddr, t.cursor, t.cur)) =
      some (.faulted, .truncated, 2, 0, ⟨0, 0, 0⟩) := by decide

theorem test_render_begins :
    (after? (exec .render demo)).map (fun t => (t.phase, t.cnt)) = some (.rendering, 3) := by decide

/-- Vector F15. -/
theorem test_render_uninit :
    faultOf (exec .render State.reset) = some (.faulted, .notInit, 0) := by decide

theorem test_advance_begins :
    (after? (exec (.advance 7) demo)).map (fun t => (t.phase, t.cnt)) = some (.stepping, 7) := by
  decide

/-- Vector F18. -/
theorem test_advance_faulted :
    after? (exec (.advance 2) (demo.faultEntry .truncated 0)) = some (demo.faultEntry .truncated 0) := by
  decide

/-- Vector F20: the pixel is out, CNT stays, no Idle. -/
theorem test_render_step_fault :
    (after? (step { demoAt 0 with
      prog := Memory.writeBytes [] 0 [0x41, 0x07, 0xFF], phase := .rendering, cnt := 6 })).map
      (fun t => (t.phase, t.faultCode, t.faultAddr, t.cnt, t.tx)) =
      some (.faulted, .palIndex, 1, 6, [.color ⟨200, 100, 50⟩]) := by decide

/-- Vectors SE1, SE2, SE3. -/
theorem test_serializer :
    wireBytes .rgb [.color ⟨10, 20, 30⟩] = [.byte 0x0A, .byte 0x14, .byte 0x1E] ∧
      wireBytes .grb [.color ⟨10, 20, 30⟩] = [.byte 0x14, .byte 0x0A, .byte 0x1E] ∧
      wireBytes .brg [.color ⟨255, 0, 128⟩] = [.byte 0x80, .byte 0xFF, .byte 0x00] := by decide

/-- A word placed after reset is what the next step runs. -/
theorem test_fetch_word :
    runOf (step (State.reset.withFetchWord 16 0x0041)) = some (.solid, 1, ⟨0, 0, 0⟩, 2) ∧
      (after? (step (State.reset.withFetchWord 2 1))).map (fun t => (t.phase, t.faultCode)) =
        some (.faulted, .noEnd) := by decide

/-! ## Witnesses: for each statement with hypotheses, a state and operands that meet them -/

theorem witness_DecodeEncodeAgree :
    (Instr.pulse 31 ⟨0, 0, 0⟩ ⟨0, 0, 0⟩ ⟨255, 0, 0⟩).wf Config.default = true ∧
      (Instr.pulse 31 ⟨0, 0, 0⟩ ⟨0, 0, 0⟩ ⟨255, 0, 0⟩).isOpcode = true ∧
      (Instr.endOp 32).wf Config.default = true ∧ (Instr.init 65535 65535).wf Config.default = true ∧
      (Instr.advance 65535).wf Config.default = true := by decide

theorem witness_DecodedBytesEncodeBack :
    decodeProgram Config.default [0x7F#8, 0xC8#8, 0x99#8] = .ok (.solid 63 200) [0x99#8] ∧
      (Instr.endOp 63).wf Config.default = true ∧ (Instr.endOp 63).isOpcode = true ∧
      programBytes (.endOp 63) ++ [0x99#8] = [0xFF#8, 0x99#8] := by decide

theorem witness_ControlByteRoundTrip :
    64 = (lenField 0x3F#8).toNat + 1 ∧ 1 = (lenField 0x40#8).toNat + 1 := by decide

theorem witness_ClassifyByFields :
    ∀ l : BitVec 6, ({ Config.default with pulseSel := 0 } : Config).pulseSelects l = false := by decide

theorem witness_NoIllegalBytes :
    nParams (classify Config.default 0x41) ≤ [0x00#8].length ∧
      decodeProgram Config.default [] = .rejected .noControlByte ∧
      decodeProgram Config.default [0x41#8] = .rejected .missingParameters := by decide

theorem witness_CommandCodes : 65535 < 2 ^ Config.default.curW ∧ 65535 < 2 ^ Config.default.npixW ∧
    65535 < 2 ^ Config.default.stepW := by decide

theorem witness_AssemblyRoundTrip :
    (AsmOp.pulse (some 32) ⟨0, 255, 7⟩ ⟨-128, 127, 0⟩ ⟨255, 0, 7⟩).legal = true ∧
      (AsmOp.gap 64).legal = true ∧ (AsmOp.gap 1).legal = true ∧ (AsmOp.solid 64 255).legal = true ∧
      (AsmOp.gradient 1 0 ⟨-128, 127, 0⟩).legal = true ∧ AsmOp.endOp.legal = true ∧
      (AsmOp.gap 65).legal = false ∧ 0xE0 ≤ (0xE0#8).toNat ∧ [AsmOp.gap 65] ≠ [] := by decide

/-- Each clause, at the last byte and at PLEN. -/
theorem witness_GapRule :
    ((demoAt 8).cursor < (demoAt 8).plen ∧ (demoAt 8).phase ≠ .faulted) ∧
      (demoAt 9).plen ≤ (demoAt 9).cursor ∧
      ({ demo with mode := .gap } : State).mode = .gap ∧ ({ demo with mode := .gap } : State).rem ≠ 0 ∧
      ({ demoAt 7 with mode := .gap } : State).mode = .gap ∧ (demoAt 7).rem = 0 := by decide

theorem witness_SolidRule :
    ((demoAt 7).cursor + 2 ≤ (demoAt 7).plen ∧ (1#8).toNat < (demoAt 7).cfg.palSize ∧
        (demoAt 7).phase ≠ .faulted) ∧
      (demoAt 9).plen ≤ (demoAt 9).cursor ∧
      ((demoAt 8).cursor < (demoAt 8).plen ∧ (demoAt 8).plen < (demoAt 8).cursor + 2) ∧
      ((demoAt 7).cursor + 2 ≤ (demoAt 7).plen ∧ (demoAt 7).cfg.palSize ≤ (2#8).toNat) ∧
      (demo.mode = .solid ∧ demo.rem ≠ 0) ∧ ((demoAt 2).mode = .solid ∧ (demoAt 2).rem = 0) := by decide

theorem witness_GradientRule :
    ((demoAt 4).cursor + 5 ≤ (demoAt 4).plen ∧ (1#8).toNat < (demoAt 4).cfg.palSize ∧
        (demoAt 4).phase ≠ .faulted) ∧
      (demoAt 9).plen ≤ (demoAt 9).cursor ∧
      ((demoAt 5).cursor < (demoAt 5).plen ∧ (demoAt 5).plen < (demoAt 5).cursor + 5) ∧
      ((demoAt 4).cursor + 5 ≤ (demoAt 4).plen ∧ (demoAt 4).cfg.palSize ≤ (2#8).toNat) ∧
      (({ demo with mode := .gradient } : State).mode = .gradient ∧
        ({ demo with mode := .gradient } : State).rem ≠ 0) ∧
      (({ demoAt 2 with mode := .gradient } : State).mode = .gradient ∧ (demoAt 2).rem = 0) := by decide

/-- A program of one PULSE and an END. -/
def pulseDemo : State :=
  { withProgram [0xC0, 0, 0, 0, 1, 0, 0, 10, 0, 0, 0xFF] with phase := .ready }

theorem witness_PulseLoadRule :
    (pulseDemo.cursor + 10 ≤ pulseDemo.plen ∧ pulseDemo.phase ≠ .faulted) ∧
      (demoAt 9).plen ≤ (demoAt 9).cursor ∧
      (demo.cursor < demo.plen ∧ demo.plen < demo.cursor + 10) ∧
      (pulsing ⟨0, 0, 0⟩ ⟨1, 0, 0⟩ ⟨10, 0, 0⟩).mode = .pulse := by decide

theorem witness_EndRestarts :
    ((demoAt 8).cursor ≠ 0 ∧ (demoAt 8).cursor < (demoAt 8).plen ∧
        fetchOpcode (demoAt 8) 0 = .opcode (.solid 2 1) ∧ (1#8).toNat < (demoAt 8).cfg.palSize) ∧
      ((demoAt 0).cursor = 0 ∧ (demoAt 0).cursor < (demoAt 0).plen) ∧
      ((withProgram [0xFF]).cursor < (withProgram [0xFF]).plen ∧
        fetchOpcode (withProgram [0xFF]) 0 = .opcode (.endOp 63)) ∧
      (demoAt 9).plen ≤ (demoAt 9).cursor := by decide

/-- The clauses: NO_END, an END first and one at 0, TRUNCATED, PAL_INDEX, a load. -/
theorem witness_LoadNextFaultsInOrder :
    (demoAt 9).phase ≠ .faulted ∧ (demoAt 9).plen ≤ (demoAt 9).cursor ∧
      classify (demoAt 8).cfg ((demoAt 8).progRead 8) = .endOp ∧
      classify (demoAt 8).cfg ((demoAt 8).progRead 0) = .solid ∧
      (classify (withProgram [0xFF]).cfg ((withProgram [0xFF]).progRead 0) = .endOp ∧
        (withProgram [0xFF]).phase ≠ .faulted ∧
        (withProgram [0xFF]).cursor < (withProgram [0xFF]).plen) ∧
      (classify (withProgram [0x41]).cfg ((withProgram [0x41]).progRead 0) = .solid ∧
        (withProgram [0x41]).plen < 0 + 1 + nParams .solid) ∧
      (0 + 1 + nParams .solid ≤ (withProgram [0x41, 2]).plen ∧
        (withProgram [0x41, 2]).cfg.palSize ≤ ((withProgram [0x41, 2]).progRead 1).toNat) ∧
      (0 + 1 + nParams .solid ≤ demo.plen ∧ (demo.progRead 1).toNat < demo.cfg.palSize) := by decide

theorem witness_LoadNextReadsTheOpcodeBytes :
    (classify demo.cfg (demo.progRead 7) = .gap ∧ 7 + 1 ≤ demo.plen) ∧
      (classify demo.cfg (demo.progRead 0) = .solid ∧ 0 + 2 ≤ demo.plen ∧
        (demo.progRead 1).toNat < demo.cfg.palSize) ∧
      (classify demo.cfg (demo.progRead 2) = .gradient ∧ 2 + 5 ≤ demo.plen ∧
        (demo.progRead 3).toNat < demo.cfg.palSize) ∧
      (classify pulseDemo.cfg (pulseDemo.progRead 0) = .pulse ∧ 0 + 10 ≤ pulseDemo.plen) := by decide

theorem witness_OpcodeFrame :
    (Instr.solid 1 1).isOpcode = true ∧ (demoAt 0).phase ≠ .faulted ∧
      (after? (exec (.solid 1 1) (demoAt 0))).map (·.phase) = some .ready ∧
      (after? (exec (.solid 1 2) (demoAt 0))).map (·.phase) = some .faulted := by decide

theorem witness_StepRunsTheDecodedOpcode :
    ({ demoAt 2 with phase := .stepping, cnt := 1 } : State).host = [] ∧
      ({ demoAt 2 with phase := .stepping, cnt := 1 } : State).cnt ≠ 0 ∧
      (demoAt 2).mode ≠ .pulse ∧ (demoAt 2).rem = 0 ∧ (demoAt 2).cursor < (demoAt 2).plen ∧
      decodeProgram (demoAt 2).cfg ((demoAt 2).progBytes (demoAt 2).cursor ((demoAt 2).plen - (demoAt 2).cursor)) =
        .ok (.gradient 3 0 ⟨0x10, 0xFF, 0x00⟩) [0x01, 0xFF] := by decide

theorem witness_StepRunsThePresentedCommand :
    ({ demo with host := [.command ⟨2, 0, 0⟩] } : State).host = .command ⟨2, 0, 0⟩ :: [] ∧
      demo.phase = .ready ∧ State.reset.phase = .uninit ∧
      (demo.faultEntry .noEnd 3).phase = .faulted := by decide

theorem witness_RunLengthLaw :
    demo.mode ≠ .pulse ∧ demo.phase ≠ .faulted ∧ 0 ≤ demo.rem.toNat ∧ 2 ≤ demo.rem.toNat := by decide

/-- Both directions; 250 with a delta of 10; a delta of -128 in reverse. -/
theorem witness_CandidateNeverWraps :
    (pulsing ⟨250, 0, 0⟩ ⟨10, 0, 0⟩ ⟨255, 0, 0⟩).dir = .forward ∧
      (pulsing ⟨250, 0, 0⟩ ⟨10, 0, 0⟩ ⟨255, 0, 0⟩).cur.channel .r = 250 ∧
      (pulsing ⟨250, 0, 0⟩ ⟨10, 0, 0⟩ ⟨255, 0, 0⟩).delta.channel .r = 10 ∧
      ({ pulsing ⟨0, 0, 0⟩ ⟨0x80, 0, 0⟩ ⟨255, 0, 0⟩ with dir := .reverse } : State).dir = .reverse ∧
      ({ pulsing ⟨0, 0, 0⟩ ⟨0x80, 0, 0⟩ ⟨255, 0, 0⟩ with dir := .reverse } : State).delta.channel .r =
        0x80 := by decide

/-- A channel on both bounds with a delta, one that crosses, one on its end bound; both orders. -/
theorem witness_CrossingIsStrict :
    (pulsing ⟨7, 0, 0⟩ ⟨1, 0, 0⟩ ⟨7, 0, 0⟩).startBound.channel .r =
        (pulsing ⟨7, 0, 0⟩ ⟨1, 0, 0⟩ ⟨7, 0, 0⟩).endBound.channel .r ∧
      (pulsing ⟨7, 0, 0⟩ ⟨1, 0, 0⟩ ⟨7, 0, 0⟩).cur.channel .r =
        (pulsing ⟨7, 0, 0⟩ ⟨1, 0, 0⟩ ⟨7, 0, 0⟩).startBound.channel .r ∧
      (pulsing ⟨9, 0, 0⟩ ⟨1, 0, 0⟩ ⟨10, 0, 0⟩).candidate .r = 10 ∧
      (pulsing ⟨9, 0, 0⟩ ⟨0, 0, 0⟩ ⟨10, 0, 0⟩).candidate .r = 9 ∧
      (0#8).toNat < (10#8).toNat ∧ (10#8).toNat > (0#8).toNat := by decide

theorem witness_PulseClampAndReversal :
    (pulsing ⟨0, 0, 0⟩ ⟨0x80, 0, 0⟩ ⟨255, 0, 0⟩).mode = .pulse ∧
      (pulsing ⟨0, 0, 0⟩ ⟨0x80, 0, 0⟩ ⟨255, 0, 0⟩).channelCrossed .r = true ∧
      (pulsing ⟨0, 0, 0⟩ ⟨0x80, 0, 0⟩ ⟨255, 0, 0⟩).dir = .forward ∧
      ({ pulsing ⟨0, 0, 0⟩ ⟨1, 0, 0⟩ ⟨255, 0, 0⟩ with dir := .reverse } : State).channelCrossed .r =
        true ∧
      (pulsing ⟨0, 0, 0⟩ ⟨1, 0, 0⟩ ⟨255, 0, 0⟩).channelCrossed .r = false ∧
      (pulsing ⟨0, 0, 0⟩ ⟨1, 0, 0⟩ ⟨255, 0, 0⟩).channelCrossed .g = false ∧
      (pulsing ⟨0, 0, 0⟩ ⟨1, 0, 0⟩ ⟨255, 0, 0⟩).channelCrossed .b = false := by decide

theorem witness_PulseStaysWithinBounds :
    pulseDemo.cursor + 10 ≤ pulseDemo.plen ∧ pulseDemo.phase ≠ .faulted := by decide

theorem witness_PulseNeverCompletes :
    (pulsing ⟨0, 0, 0⟩ ⟨1, 0, 0⟩ ⟨10, 0, 0⟩).mode = .pulse ∧
      (pulsing ⟨0, 0, 0⟩ ⟨1, 0, 0⟩ ⟨10, 0, 0⟩).phase ≠ .faulted ∧
      (after? (step (pulsing ⟨0, 0, 0⟩ ⟨1, 0, 0⟩ ⟨10, 0, 0⟩))).isSome = true := by decide

/-- Vector PU1: span 10, delta 3, `m` = 3; green and blue idle with equal bounds. -/
theorem witness_PulsePeriod :
    (pulsing ⟨0, 0, 0⟩ ⟨3, 0, 0⟩ ⟨10, 0, 0⟩).mode = .pulse ∧
      (pulsing ⟨0, 0, 0⟩ ⟨3, 0, 0⟩ ⟨10, 0, 0⟩).phase ≠ .faulted ∧
      (pulsing ⟨0, 0, 0⟩ ⟨3, 0, 0⟩ ⟨10, 0, 0⟩).dir = .forward ∧
      (pulsing ⟨0, 0, 0⟩ ⟨3, 0, 0⟩ ⟨10, 0, 0⟩).cur =
        (pulsing ⟨0, 0, 0⟩ ⟨3, 0, 0⟩ ⟨10, 0, 0⟩).startBound ∧
      sext8 3 = 3 ∧ sext8 0 = 0 ∧ 0 ≤ sext8 3 * (((10#8).toNat : Int) - (0#8).toNat) ∧
      3 * (sext8 3).natAbs ≤ (((10#8).toNat : Int) - (0#8).toNat).natAbs ∧
      (((10#8).toNat : Int) - (0#8).toNat).natAbs < (3 + 1) * (sext8 3).natAbs := by decide

theorem witness_InitBindsAndLoads :
    demo.phase.busy = false ∧
      validate { demo with plen := 9, npix := 4, faultCode := .noFault, faultAddr := 0, cursor := 0 } =
        none := by decide

theorem witness_InitRejects :
    demo.phase.busy = false ∧
      validate { demo with plen := 8, npix := 4, faultCode := .noFault, faultAddr := 0 } =
        some (.noEnd, 8) := by decide

/-- Each clause of the walk has an offset of its own. -/
theorem witness_ValidateWalksTheProgram :
    demo.plen ≤ 9 ∧
      (8 < demo.plen ∧ classify demo.cfg (demo.progRead 8) = .endOp) ∧
      (0 < (withProgram [0x41]).plen ∧
        (withProgram [0x41]).plen < 0 + 1 + nParams (classify demo.cfg 0x41)) ∧
      (0 + 1 + nParams .solid ≤ (withProgram [0x41, 2]).plen ∧
        (withProgram [0x41, 2]).cfg.palSize ≤ ((withProgram [0x41, 2]).progRead 1).toNat) ∧
      (classify pulseDemo.cfg (pulseDemo.progRead 0) = .pulse ∧ 0 + 1 + nParams .pulse ≤ pulseDemo.plen) ∧
      (classify demo.cfg (demo.progRead 2) = .gradient ∧ 2 + 1 + nParams .gradient ≤ demo.plen ∧
        (demo.progRead 3).toNat < demo.cfg.palSize) := by decide

theorem witness_RenderBegins : demo.phase = .ready := by decide
theorem witness_AdvanceBegins : demo.phase = .ready := by decide

theorem witness_CommandsByPhase :
    State.reset.phase = .uninit ∧ (demo.faultEntry .noEnd 9).phase = .faulted ∧
      ({ demo with phase := .rendering } : State).phase = .rendering := by decide

theorem witness_CommandFrame :
    (Instr.init 9 4).isOpcode = false ∧ (after? (exec (.init 9 4) demo)).isSome = true ∧
      Instr.render.isOpcode = false ∧ (after? (exec .render demo)).isSome = true := by decide

/-- A pixel step that goes on, and one that faults. -/
theorem witness_RenderPixelStepRule :
    ({ demo with phase := .rendering, cnt := 3 } : State).host = [] ∧
      ({ demo with phase := .rendering, cnt := 3 } : State).cnt ≠ 0 ∧
      (after? (advance { demo with phase := .rendering, cnt := 3 })).map (·.phase) =
        some .rendering ∧
      (after? (advance { demoAt 9 with phase := .rendering, cnt := 3 })).map (·.phase) =
        some .faulted := by decide

theorem witness_SilentStepRule :
    ({ demo with phase := .stepping, cnt := 3 } : State).host = [] ∧
      ({ demo with phase := .stepping, cnt := 3 } : State).cnt ≠ 0 ∧
      (after? (advance { demo with phase := .stepping, cnt := 3 })).map (·.phase) = some .stepping ∧
      (after? (advance { demoAt 9 with phase := .stepping, cnt := 3 })).map (·.phase) =
        some .faulted := by decide

theorem witness_FrameEndRule :
    ({ demo with phase := .rendering } : State).host = [] ∧
      ({ demo with phase := .rendering } : State).cnt = 0 ∧
      ({ demo with phase := .stepping } : State).cnt = 0 := by decide

theorem witness_BigStepForms :
    ({ demo with host := [.command ⟨0b10#2, 0, 0⟩] } : State).phase = .ready ∧
      (advanceN demo.npix { demo with host := [.command ⟨0b10#2, 0, 0⟩] }).isSome = true ∧
      (advanceN 5 { demo with host := [.command ⟨0b11#2, 0, 5⟩] }).isSome = true ∧
      5 < 2 ^ demo.cfg.stepW := by decide

theorem witness_AdvanceAdds :
    demo.phase = .ready ∧ 2 + 3 < 2 ^ demo.cfg.stepW ∧ (advanceN (2 + 3) demo).isSome = true := by decide

theorem witness_EveryCommandCompletes :
    ({ demo with phase := .rendering, cnt := 3 } : State).host = [] ∧
      ({ demo with phase := .rendering, cnt := 3 } : State).phase.busy = true := by decide

/-- The demo state meets the invariant, and a step of it answers. -/
theorem witness_StepKeepsTheInvariant :
    Inv demo ∧ (after? (step demo)).isSome = true :=
  ⟨⟨by decide, by decide, by decide, by decide, by decide, by decide, by decide,
    fun _ h => absurd h (by decide), by decide, by decide, by decide, by decide, by decide⟩, by decide⟩

theorem witness_AcceptedInitIsBound :
    demo.phase.busy = false ∧ (after? (exec (.init 9 4) demo)).map (·.phase) = some .ready := by decide

/-- The demo state is bound: its program is well formed and CURSOR on a boundary. -/
theorem witness_BoundProgramNeverFaults :
    Bound demo ∧ demo.host = [] :=
  ⟨⟨by decide, by decide, by decide, fun _ => by decide⟩, by decide⟩

theorem witness_FaultedUntilInitOrReset :
    (demo.faultEntry .noEnd 9).phase = .faulted ∧
      (after? (step (demo.faultEntry .noEnd 9))).isSome = true := by decide

theorem witness_BusyCoreTakesNoMove :
    ({ demo with phase := .rendering, host := [.writeProg 0 1] } : State).phase.busy = true ∧
      (HostMove.writeProg 0 1).waitsWhileBusy = true ∧
      (HostMove.command ⟨1, 9, 4⟩).waitsWhileBusy = true := by decide

theorem witness_PhaseTransitions :
    (after? (step { demo with host := [.command ⟨2, 0, 0⟩] })).map (·.phase) = some .rendering ∧
      demo.phase ≠ .rendering := by decide

theorem witness_CoreWritesNoMemory :
    (after? (step { demo with host := [.writeProg 0 1] })).map (fun t => Memory.read t.prog 0) =
        some 1 ∧
      Memory.read demo.prog 0 ≠ 1 ∧
      (after? (step { demo with host := [.writePal 0 9] })).map (fun t => Memory.read t.pal 0) =
        some 9 ∧
      Memory.read demo.pal 0 ≠ 9 := by decide

theorem witness_TxIsAppendOnly :
    (after? (step { demo with phase := .rendering, cnt := 1 })).map (·.tx) =
        some [.color ⟨200, 100, 50⟩] ∧
      ∀ rest, ({ demo with phase := .rendering, cnt := 1 } : State).host ≠ .reset :: rest :=
  ⟨by decide, fun _ h => (by cases h)⟩

theorem witness_DataChangesOnlyByCommands :
    demo.phase.busy = false ∧ (after? (step demo)).isSome = true := by decide

/-- Two states of one instance that differ in every data register. -/
theorem witness_ResetValues :
    pulseDemo.cfg = { pulseDemo with mode := .pulse, rem := 9, cursor := 10, cur := ⟨1, 1, 1⟩ }.cfg ∧
      pulseDemo.prog = { pulseDemo with mode := .pulse, rem := 9, cursor := 10 }.prog ∧
      pulseDemo.pal = { pulseDemo with mode := .pulse, rem := 9, cursor := 10 }.pal ∧
      pulseDemo.host = { pulseDemo with mode := .pulse, rem := 9, cursor := 10 }.host := by decide

theorem witness_ResetInAnyPhase :
    ({ demo with phase := .rendering, host := [.reset] } : State).host = .reset :: [] := by decide

theorem witness_StatusRead :
    demo.phase = .ready ∧ ({ demo with phase := .rendering } : State).phase = .rendering ∧
      ({ demo with phase := .stepping } : State).phase = .stepping := by decide

theorem witness_HostWritesAreRead :
    demo.phase.busy = false ∧ Memory.wf demo.prog = true ∧ 65535 < 2 ^ demo.cfg.curW ∧
      Memory.wf demo.pal = true ∧ 5 < 3 * demo.cfg.palSize ∧ 1 < demo.cfg.palSize := by decide

/-- A program that differs only past PLEN. -/
theorem witness_NothingReadPastPlen :
    (∀ a, a < demo.plen → Memory.read (Memory.write demo.prog 9 0x55) a = Memory.read demo.prog a) ∧
      (after? (runNextOpcode demo)).isSome = true := by decide

/-- Period 3 + 4 + 2 = 9; the GRADIENT begins after 3 pixels, and each run has its last pixel. -/
theorem witness_ProgramsArePeriodic :
    demo.phase.busy = false ∧ (after? (exec (.init 9 4) demo)).map (·.phase) = some .ready ∧
      (after? (exec (.init 9 4) demo)).map (fun s => (runsFrom s (s.plen + 1) 0).map fun ops =>
          (totalLength ops, ops.map runLength, totalLength (ops.take 1))) =
        some (some (9, [3, 4, 2], 3)) := by
  decide

theorem witness_WireBitOrder : 0 < 8 ∧ 7 < 8 := by decide

end Sys2Proof.Tests
end

section
/-! The statements of the family 10_state.md. First what a command and a step of the core do to PHASE, TX
and the register invariant; each obligation is then one case split over what a step of the machine can be
(`step_next_cases`). -/

namespace Sys2Proof.Machine

/-! ## Rules of the operations a step ends in -/

@[simp] theorem countDown_tx (s : State) : (countDown s).tx = s.tx := by
  unfold countDown
  split <;> rfl

@[simp] theorem countDown_phase (s : State) : (countDown s).phase = s.phase := by
  unfold countDown
  split <;> rfl

theorem ne_rendering_of_idle {p : Phase} (h : p.busy = false) : p ≠ .rendering := by
  rintro rfl
  cases h

/-- RENDER and ADVANCE by phase (43_commands_frame.md R120). -/
theorem startWork_cases (p : Phase) (n : Nat) (s : State) :
    (s.phase = .uninit ∧ startWork p n s = s.faultEntry .notInit 0) ∨
    (s.phase = .ready ∧ startWork p n s = (s.setCnt n).setPhase p) ∨
    startWork p n s = s := by
  unfold startWork
  cases s.phase
  · exact .inl ⟨rfl, rfl⟩
  · exact .inr (.inl ⟨rfl, rfl⟩)
  all_goals exact .inr (.inr rfl)

/-- An accepted INIT ends READY or FAULTED (10_state.md R31). -/
theorem initAccepted_phase (p n : Nat) (s : State) :
    (initAccepted p n s).phase = .ready ∨ (initAccepted p n s).phase = .faulted := by
  rcases initAccepted_cases p n s with ⟨c, a, _, e⟩ | ⟨_, i, _, _, e⟩ <;> rw [e]
  · exact .inr rfl
  · exact .inl rfl

/-- What the word on the command port does to a core that is not busy (30_encoding.md R81,
43_commands_frame.md R120): `u` is the state with the word taken off the port. -/
theorem exec_decodeCommand_cases {cfg : Config} {w : CommandWord} {u t : State}
    (hb : u.phase.busy = false) (h : exec (decodeCommand cfg w) u = .next t) :
    (decodeCommand cfg w = .nop ∧ t = u) ∨
    (∃ p n, decodeCommand cfg w = .init p n ∧ p < 2 ^ cfg.curW ∧ n < 2 ^ cfg.npixW ∧
      t = initAccepted p n u) ∨
    (decodeCommand cfg w = .render ∧ t = startWork .rendering u.npix u) ∨
    (∃ k, decodeCommand cfg w = .advance k ∧ k < 2 ^ cfg.stepW ∧ t = startWork .stepping k u) := by
  rcases decodeCommand_cases cfg w with hd | ⟨p, n, hd, hp, hn⟩ | hd | ⟨k, hd, hk⟩ <;> rw [hd] at h
  · cases h
    exact .inl ⟨hd, rfl⟩
  · have e : exec (.init p n) u = .next (initAccepted p n u) := by
      rw [show exec (.init p n) u = execInit p n u from rfl, execInit_eq, hb]
      rfl
    cases e.symm.trans h
    exact .inr (.inl ⟨p, n, hd, hp, hn, rfl⟩)
  · cases h
    exact .inr (.inr (.inl ⟨hd, rfl⟩))
  · cases h
    exact .inr (.inr (.inr ⟨k, hd, hk, rfl⟩))

/-- No command emits (44_serializer.md R138): events come from pixel steps and frame ends alone. -/
theorem exec_decodeCommand_tx {cfg : Config} {w : CommandWord} {u t : State}
    (hb : u.phase.busy = false) (h : exec (decodeCommand cfg w) u = .next t) : t.tx = u.tx := by
  rcases exec_decodeCommand_cases hb h with
    ⟨_, rfl⟩ | ⟨p, n, _, _, _, rfl⟩ | ⟨_, rfl⟩ | ⟨k, _, _, rfl⟩
  · rfl
  · obtain ⟨-, htx, -⟩ := initAccepted_frame p n u
    exact htx
  · obtain ⟨-, -, -, -, htx, -⟩ := startWork_frame .rendering u.npix u
    exact htx
  · obtain ⟨-, -, -, -, htx, -⟩ := startWork_frame .stepping k u
    exact htx

/-- A phase change by RENDER or ADVANCE: READY to the command's own phase, or UNINIT to FAULTED. -/
theorem startWork_phase {p : Phase} {n : Nat} {s : State} (h : (startWork p n s).phase ≠ s.phase) :
    s.phase = .ready ∧ (startWork p n s).phase = p ∨
      s.phase = .uninit ∧ (startWork p n s).phase = .faulted := by
  rcases startWork_cases p n s with ⟨hp, e⟩ | ⟨hp, e⟩ | e
  · exact .inr ⟨hp, by rw [e]; rfl⟩
  · exact .inl ⟨hp, by rw [e]; rfl⟩
  · exact absurd (by rw [e]) h

/-! ## The core's own step: PHASE and TX -/

/-- The core alone leaves a phase only from a busy one: to READY when CNT is 0, to FAULTED before
(10_state.md R31). -/
theorem coreStep_phase {s t : State} (h : coreStep s = .next t) (hne : t.phase ≠ s.phase) :
    s.phase.busy = true ∧ (t.phase = .ready ∧ s.cnt = 0 ∨ t.phase = .faulted ∧ s.cnt ≠ 0) := by
  rcases coreStep_cases h with ⟨_, rfl⟩ | ⟨hp, hc, rfl⟩ | ⟨hp, hc, rfl⟩ | ⟨hp, hc, rfl⟩ | ⟨hp, hc, rfl⟩
  · exact absurd rfl hne
  · exact ⟨by rw [hp]; rfl, .inl ⟨rfl, hc⟩⟩
  · exact ⟨by rw [hp]; rfl, .inl ⟨rfl, hc⟩⟩
  · obtain ⟨-, -, -, -, -, -, hsame | hfault⟩ := settle_advance (s.emit (.color s.cur))
    · exact absurd ((countDown_phase _).trans hsame) hne
    · exact ⟨by rw [hp]; rfl, .inr ⟨(countDown_phase _).trans hfault, hc⟩⟩
  · obtain ⟨-, -, -, -, -, -, hsame | hfault⟩ := settle_advance s
    · exact absurd ((countDown_phase _).trans hsame) hne
    · exact ⟨by rw [hp]; rfl, .inr ⟨(countDown_phase _).trans hfault, hc⟩⟩

/-- The core alone emits exactly while RENDERING: the colour of a pixel step, or the Idle of the frame
end (43_commands_frame.md R123, R124). -/
theorem coreStep_tx {s t : State} (h : coreStep s = .next t) :
    t.tx = s.tx ∧ s.phase ≠ .rendering ∨
    (t.tx = s.tx ++ [.color s.cur] ∧ s.phase = .rendering ∧ s.cnt ≠ 0) ∨
    (t.tx = s.tx ++ [.idle] ∧ s.phase = .rendering ∧ s.cnt = 0 ∧ t.phase = .ready) := by
  rcases coreStep_cases h with ⟨hb, rfl⟩ | ⟨hp, hc, rfl⟩ | ⟨hp, hc, rfl⟩ | ⟨hp, hc, rfl⟩ | ⟨hp, hc, rfl⟩
  · exact .inl ⟨rfl, ne_rendering_of_idle hb⟩
  · exact .inr (.inr ⟨rfl, hp, hc, rfl⟩)
  · exact .inl ⟨rfl, by rw [hp]; decide⟩
  · obtain ⟨htx, -⟩ := settle_advance (s.emit (.color s.cur))
    exact .inr (.inl ⟨(countDown_tx _).trans htx, hp, hc⟩)
  · obtain ⟨htx, -⟩ := settle_advance s
    exact .inl ⟨(countDown_tx _).trans htx, by rw [hp]; decide⟩

/-! ## The invariant through a command and through the core's own step -/

/-- RENDER and ADVANCE keep the invariant: their count fits CNT (10_state.md R30). -/
theorem Inv.startWork {s : State} (h : Inv s) {p : Phase} (hp : p.running = true) {n : Nat}
    (hn : n < 2 ^ s.cfg.cntW) : Inv (startWork p n s) := by
  rcases startWork_cases p n s with ⟨_, e⟩ | ⟨hr, e⟩ | e <;> rw [e]
  · exact h.faultEntry (by decide) (Nat.two_pow_pos _)
  · exact (h.setCnt hn).setPhase (by rw [State.setCnt_phase, hr]; rfl) hp
  · exact h

/-- A command presented to a core that is not busy keeps the invariant. -/
theorem Inv.command {s t : State} (h : Inv s) {w : CommandWord} (hb : s.phase.busy = false)
    (he : exec (decodeCommand s.cfg w) s = .next t) : Inv t := by
  have widen : ∀ {n k : Nat}, n < 2 ^ k → k ≤ s.cfg.cntW → n < 2 ^ s.cfg.cntW := fun hn hk =>
    Nat.lt_of_lt_of_le hn (Nat.pow_le_pow_right (by decide) hk)
  rcases exec_decodeCommand_cases hb he with
    ⟨_, rfl⟩ | ⟨p, n, _, hp, hn, rfl⟩ | ⟨_, rfl⟩ | ⟨k, _, hk, rfl⟩
  · exact h
  · exact h.initAccepted hp hn
  · exact h.startWork rfl (widen h.npixFits (Nat.le_max_left _ _))
  · exact h.startWork rfl (widen hk (Nat.le_max_right _ _))

/-- The core's own step keeps the invariant: nothing, the end of a command, or a pixel step. -/
theorem Inv.coreStep {s t : State} (h : Inv s) (he : coreStep s = .next t) : Inv t := by
  have running : ∀ {p : Phase}, s.phase = p → p.busy = true → s.phase.running = true := fun hp hb =>
    running_of_busy (by rw [hp]; exact hb)
  rcases coreStep_cases he with ⟨_, rfl⟩ | ⟨hp, _, rfl⟩ | ⟨hp, _, rfl⟩ | ⟨hp, _, rfl⟩ | ⟨hp, _, rfl⟩
  · exact h
  · exact h.frameEnd (running hp rfl)
  · exact h.setPhase (running hp rfl) rfl
  · exact ((h.emit _).advance (running hp rfl)).countDown
  · exact (h.advance (running hp rfl)).countDown

/-! ## The obligations -/

/-- Settles O42, by cases over what a step can be: the core's own step, a reset, a command, a write. -/
theorem stepKeepsTheInvariant : Obligations.StepKeepsTheInvariant := by
  intro s t h hs
  rcases step_next_cases hs with ⟨s', hs', hc⟩ | ⟨rest, _, rfl⟩ |
    ⟨hb, ⟨w, rest, _, he⟩ | ⟨off, b, rest, _, _, rfl⟩ | ⟨addr, b, rest, _, _, rfl⟩⟩
  · have h' : Inv s' := by
      rcases hs' with rfl | ⟨rest, _, rfl⟩
      · exact h
      · exact h.setHost rest
    exact h'.coreStep hc
  · exact (h.setHost rest).hardReset
  · exact (h.setHost rest).command hb he
  · exact (h.setHost rest).setProg (Memory.write_wf h.progWf off b)
  · exact (h.setHost rest).setPal (Memory.write_wf h.palWf addr b)

/-- Settles O47, by cases over what a step can be; a write and a NOP change no phase. -/
theorem phaseTransitions : Obligations.PhaseTransitions := by
  intro s t hs hne
  rcases step_next_cases hs with ⟨s', hs', hc⟩ | ⟨rest, hh, rfl⟩ |
    ⟨hb, ⟨w, rest, hh, he⟩ | ⟨off, b, rest, _, _, rfl⟩ | ⟨addr, b, rest, _, _, rfl⟩⟩
  · refine .inr (.inr (.inr (.inr ?_)))
    rcases hs' with rfl | ⟨rest, _, rfl⟩
    · exact coreStep_phase hc hne
    · exact coreStep_phase (s := s.setHost rest) hc hne
  · exact .inl ⟨rest, hh, rfl⟩
  · rcases exec_decodeCommand_cases (u := s.setHost rest) hb he with
      ⟨_, rfl⟩ | ⟨p, n, hd, _, _, rfl⟩ | ⟨hd, rfl⟩ | ⟨k, hd, _, rfl⟩
    · exact absurd rfl hne
    · exact .inr (.inl ⟨w, rest, p, n, hh, hd, hb, initAccepted_phase p n _⟩)
    · exact .inr (.inr (.inl ⟨w, rest, hh, hd, startWork_phase hne⟩))
    · exact .inr (.inr (.inr (.inl ⟨w, rest, k, hh, hd, startWork_phase hne⟩)))
  · exact absurd rfl hne
  · exact absurd rfl hne

/-- Settles O49, by cases over what a step can be: only the core's own step emits. -/
theorem txIsAppendOnly : Obligations.TxIsAppendOnly := by
  intro s t hs hreset
  rcases step_next_cases hs with ⟨s', hs', hc⟩ | ⟨rest, hh, _⟩ |
    ⟨hb, ⟨w, rest, _, he⟩ | ⟨off, b, rest, _, _, rfl⟩ | ⟨addr, b, rest, _, _, rfl⟩⟩
  · rcases hs' with rfl | ⟨rest, _, rfl⟩
    · exact coreStep_tx hc
    · exact coreStep_tx (s := s.setHost rest) hc
  · exact absurd hh (hreset rest)
  · exact .inl ⟨exec_decodeCommand_tx (u := s.setHost rest) hb he, ne_rendering_of_idle hb⟩
  · exact .inl ⟨rfl, ne_rendering_of_idle hb⟩
  · exact .inl ⟨rfl, ne_rendering_of_idle hb⟩

/-- Settles O41: FAULTCODE is NONE, no phase of a bound program is on, and every register is 0. -/
theorem resetMeetsTheInvariant : Obligations.ResetMeetsTheInvariant where
  cfgLegal := by decide
  progWf := rfl
  palWf := rfl
  faultIff := by decide
  addrClear := fun _ => rfl
  cursorLe := fun hp => by cases hp
  gapBlack := fun hp => by cases hp
  pulseWithin := fun hp => by cases hp
  cursorFits := Nat.two_pow_pos _
  plenFits := Nat.two_pow_pos _
  npixFits := Nat.two_pow_pos _
  cntFits := Nat.two_pow_pos _
  addrFits := Nat.two_pow_pos _

/-- CUR is defined for the host in the running phases (10_state.md R33). -/
theorem status_cur {s : State} (h : s.phase.running = true) (draw : Nat) :
    (s.status draw).cur = s.cur :=
  if_pos h

/-- Settles O53: the fault registers and PHASE are copied; the three phases named are the running ones. -/
theorem statusRead : Obligations.StatusRead := by
  refine fun s draw => ⟨rfl, rfl, rfl, fun hp => status_cur ?_ draw⟩
  rcases hp with hp | hp | hp <;> rw [hp] <;> rfl

end Sys2Proof.Machine
end

section
/-! The statements of the family 20_memory.md. First what the host's write does to a core that is not busy,
and that nothing else of a step touches PROG, PAL or the parameters; then that a fetch, the validation walk
and a load look at no byte at or past PLEN. -/

namespace Sys2Proof.Machine

/-! ## The host's writes -/

/-- A write of PROG presented to a core that is not busy is what the step does (20_memory.md R61). -/
theorem step_writeProg {s : State} {off : Nat} {b : Byte} {rest : List HostMove}
    (hb : s.phase.busy = false) (hh : s.host = .writeProg off b :: rest) :
    step s = hostWriteProg off b (s.setHost rest) := by
  rw [step, hh]
  simp [takeMove, hb]

/-- A write of PAL presented to a core that is not busy is what the step does (20_memory.md R61). -/
theorem step_writePal {s : State} {addr : Nat} {b : Byte} {rest : List HostMove}
    (hb : s.phase.busy = false) (hh : s.host = .writePal addr b :: rest) :
    step s = hostWritePal addr b (s.setHost rest) := by
  rw [step, hh]
  simp [takeMove, hb]

theorem step_writeProg_inside {s : State} {off : Nat} {b : Byte} {rest : List HostMove}
    (hb : s.phase.busy = false) (hh : s.host = .writeProg off b :: rest)
    (ho : off < 2 ^ s.cfg.curW) :
    step s = .next ((s.setHost rest).setProg (Memory.write s.prog off b)) :=
  (step_writeProg hb hh).trans (if_pos ho)

theorem step_writePal_inside {s : State} {addr : Nat} {b : Byte} {rest : List HostMove}
    (hb : s.phase.busy = false) (hh : s.host = .writePal addr b :: rest)
    (ha : addr < 3 * s.cfg.palSize) :
    step s = .next ((s.setHost rest).setPal (Memory.write s.pal addr b)) :=
  (step_writePal hb hh).trans (if_pos ha)

theorem step_writeProg_missing {s : State} {off : Nat} {b : Byte} {rest : List HostMove}
    (hb : s.phase.busy = false) (hh : s.host = .writeProg off b :: rest)
    (ho : 2 ^ s.cfg.curW ≤ off) : step s = .fault .noSuchAddress :=
  (step_writeProg hb hh).trans (if_neg (Nat.not_lt.mpr ho))

theorem step_writePal_missing {s : State} {addr : Nat} {b : Byte} {rest : List HostMove}
    (hb : s.phase.busy = false) (hh : s.host = .writePal addr b :: rest)
    (ha : 3 * s.cfg.palSize ≤ addr) : step s = .fault .noSuchAddress :=
  (step_writePal hb hh).trans (if_neg (Nat.not_lt.mpr ha))

/-- An entry of PAL is the colour its three bytes are (20_memory.md R52). -/
theorem palRead_of_bytes {s : State} {i : Nat} {c : Colour} (hr : Memory.read s.pal (3 * i) = c.r)
    (hg : Memory.read s.pal (3 * i + 1) = c.g) (hb : Memory.read s.pal (3 * i + 2) = c.b) :
    s.palRead i = c := by
  rw [State.palRead, hr, hg, hb]

/-- A palette entry whose three bytes are written in turn reads as their colour, and no other entry
changes: the bytes of two entries are disjoint (20_memory.md R52). -/
theorem palRead_writeBytes {s : State} (hw : Memory.wf s.pal = true) (i : Nat) (c : Colour) :
    (s.setPal (Memory.writeBytes s.pal (3 * i) c.bytes)).palRead i = c ∧
      ∀ j, j ≠ i →
        (s.setPal (Memory.writeBytes s.pal (3 * i) c.bytes)).palRead j = s.palRead j := by
  constructor
  · have byte := fun k (hk : k < 3) => Memory.read_writeBytes hw (3 * i) c.bytes k hk
    exact palRead_of_bytes (byte 0 (by decide)) (byte 1 (by decide)) (byte 2 (by decide))
  · intro j hj
    have byte : ∀ k < 3, Memory.read (Memory.writeBytes s.pal (3 * i) c.bytes) (3 * j + k) =
        Memory.read s.pal (3 * j + k) := by
      intro k hk
      simp only [Colour.bytes, Memory.writeBytes]
      rw [Memory.read_write_other _ (by omega), Memory.read_write_other _ (by omega),
        Memory.read_write_other _ (by omega)]
    exact palRead_of_bytes (byte 0 (by decide)) (byte 1 (by decide)) (byte 2 (by decide))

/-- The three writes of a palette entry, as a run of three steps (20_memory.md R61). -/
theorem run_writeEntry {s : State} {i : Nat} {c : Colour} {rest : List HostMove}
    (hb : s.phase.busy = false) (hi : i < s.cfg.palSize)
    (hh : s.host =
      .writePal (3 * i) c.r :: .writePal (3 * i + 1) c.g :: .writePal (3 * i + 2) c.b :: rest) :
    Host.Core.run core 3 s =
      .next ((s.setHost rest).setPal (Memory.writeBytes s.pal (3 * i) c.bytes)) := by
  have ha : ∀ k < 3, 3 * i + k < 3 * s.cfg.palSize := fun k hk => by omega
  calc Host.Core.run core 3 s
    _ = Host.Core.run core 2 _ := run_succ 2 _ _ (step_writePal_inside hb hh (ha 0 (by decide)))
    _ = Host.Core.run core 1 _ := run_succ 1 _ _ (step_writePal_inside hb rfl (ha 1 (by decide)))
    _ = Host.Core.run core 0 _ := run_succ 0 _ _ (step_writePal_inside hb rfl (ha 2 (by decide)))

/-! ## What leaves the memories and the parameters alone -/

/-- Two states with the same parameters, PROG and PAL. -/
structure SameStore (s t : State) : Prop where
  cfg : t.cfg = s.cfg
  prog : t.prog = s.prog
  pal : t.pal = s.pal

theorem countDown_store (s : State) : SameStore s (countDown s) := by
  unfold countDown
  split <;> exact ⟨rfl, rfl, rfl⟩

/-- An `Advance` writes no memory, whether it faults or not, and neither does the count after it. -/
theorem countDown_settle_advance_store (s : State) :
    SameStore s (countDown ((advanceLoad s).settle s)) := by
  obtain ⟨-, -, -, hcfg, hprog, hpal, -⟩ := settle_advance s
  have hc := countDown_store ((advanceLoad s).settle s)
  exact ⟨hc.cfg.trans hcfg, hc.prog.trans hprog, hc.pal.trans hpal⟩

/-- The core alone writes no memory (20_memory.md R55, R60). -/
theorem coreStep_store {s t : State} (h : coreStep s = .next t) : SameStore s t := by
  rcases coreStep_cases h with ⟨_, rfl⟩ | ⟨_, _, rfl⟩ | ⟨_, _, rfl⟩ | ⟨_, _, rfl⟩ | ⟨_, _, rfl⟩
  · exact ⟨rfl, rfl, rfl⟩
  · exact ⟨rfl, rfl, rfl⟩
  · exact ⟨rfl, rfl, rfl⟩
  · obtain ⟨hcfg, hprog, hpal⟩ := countDown_settle_advance_store (s.emit (.color s.cur))
    exact ⟨hcfg, hprog, hpal⟩
  · exact countDown_settle_advance_store s

theorem startWork_store (p : Phase) (n : Nat) (s : State) : SameStore s (startWork p n s) := by
  obtain ⟨-, -, -, hcfg, -, -, hprog, hpal⟩ := startWork_frame p n s
  exact ⟨hcfg, hprog, hpal⟩

/-- No command writes a memory (20_memory.md R60). -/
theorem exec_decodeCommand_store {cfg : Config} {w : CommandWord} {u t : State}
    (hb : u.phase.busy = false) (h : exec (decodeCommand cfg w) u = .next t) : SameStore u t := by
  rcases exec_decodeCommand_cases hb h with
    ⟨_, rfl⟩ | ⟨p, n, _, _, _, rfl⟩ | ⟨_, rfl⟩ | ⟨k, _, _, rfl⟩
  · exact ⟨rfl, rfl, rfl⟩
  · obtain ⟨hcfg, -, -, hprog, hpal⟩ := initAccepted_frame p n u
    exact ⟨hcfg, hprog, hpal⟩
  · exact startWork_store .rendering u.npix u
  · exact startWork_store .stepping k u

/-- A step keeps PROG, PAL and the parameters, or is the host's write of one byte to a core that is not
busy (20_memory.md R61). -/
theorem step_store_cases {s t : State} (h : step s = .next t) :
    SameStore s t ∨
    (s.phase.busy = false ∧
      ((∃ off b rest, s.host = .writeProg off b :: rest ∧
          t = (s.setHost rest).setProg (Memory.write s.prog off b)) ∨
       (∃ addr b rest, s.host = .writePal addr b :: rest ∧
          t = (s.setHost rest).setPal (Memory.write s.pal addr b)))) := by
  rcases step_next_cases h with ⟨s', rfl | ⟨rest, _, rfl⟩, hc⟩ | ⟨rest, _, rfl⟩ |
    ⟨hb, ⟨w, rest, _, he⟩ | ⟨off, b, rest, hh, _, ht⟩ | ⟨addr, b, rest, hh, _, ht⟩⟩
  · exact .inl (coreStep_store hc)
  · obtain ⟨hcfg, hprog, hpal⟩ := coreStep_store hc
    exact .inl ⟨hcfg, hprog, hpal⟩
  · exact .inl ⟨rfl, rfl, rfl⟩
  · obtain ⟨hcfg, hprog, hpal⟩ := exec_decodeCommand_store (u := s.setHost rest) hb he
    exact .inl ⟨hcfg, hprog, hpal⟩
  · exact .inr ⟨hb, .inl ⟨off, b, rest, hh, ht⟩⟩
  · exact .inr ⟨hb, .inr ⟨addr, b, rest, hh, ht⟩⟩

/-- The one address whose byte a write can change is the one it names. -/
theorem Memory.eq_of_read_write_ne {m : Memory} {a a' : Nat} {b : Byte}
    (h : Memory.read (Memory.write m a b) a' ≠ Memory.read m a') : a' = a :=
  Classical.byContradiction fun hne => h (Memory.read_write_other b hne)

/-! ## Nothing is read at or past PLEN -/

/-- The load of a decoded opcode reads no byte of PROG: over another PROG it is the same load, put by
`graft` into the state that has the other PROG. -/
theorem loadAt_setProg (s : State) (m : Memory) (i : Instr) (o : Nat) :
    loadAt i o (s.setProg m) = (loadAt i o s).graft (s.setProg m) :=
  loadAt_graft (s := s) (u := s.setProg m) rfl rfl rfl i o

section
variable {s : State} {m : Memory}
  (h : ∀ a, a < s.plen → Memory.read m a = Memory.read s.prog a)

include h

theorem progBytes_setProg {o k : Nat} (hk : o + k ≤ s.plen) :
    (s.setProg m).progBytes o k = s.progBytes o k := by
  induction k generalizing o with
  | zero => rfl
  | succ k ih => exact congrArg₂ List.cons (h o (by omega)) (ih (by omega))

/-- A fetch checks PLEN before it reads (40_decoder.md R90, R92). -/
theorem fetchOpcode_setProg (o : Nat) : fetchOpcode (s.setProg m) o = fetchOpcode s o := by
  unfold fetchOpcode
  rw [State.setProg_plen, State.setProg_cfg]
  split
  · rfl
  · rw [show (s.setProg m).progRead o = s.progRead o from h o (by omega)]
    split
    · rfl
    · rw [progBytes_setProg h (by omega)]

theorem validateFrom_setProg (fuel o : Nat) :
    validateFrom (s.setProg m) fuel o = validateFrom s fuel o := by
  induction fuel generalizing o with
  | zero => rfl
  | succ fuel ih =>
    rw [validateFrom, validateFrom, fetchOpcode_setProg h]
    cases fetchOpcode s o with
    | raised => rfl
    | opcode i => exact congrArg (validateOpcode s o i) (ih (o + i.size))

theorem loadRestart_setProg : loadRestart (s.setProg m) = (loadRestart s).graft (s.setProg m) := by
  rw [loadRestart, loadRestart, fetchOpcode_setProg h]
  cases fetchOpcode s 0 with
  | raised => rfl
  | opcode i => exact loadAt_setProg s m i 0

theorem loadEnd_setProg : loadEnd (s.setProg m) = (loadEnd s).graft (s.setProg m) := by
  simp only [loadEnd, checkBounds, loadRestart_setProg h, State.setProg_plen, State.setProg_cursor]
  repeat' split
  all_goals rfl

theorem opcodeLoad_setProg (i : Instr) :
    opcodeLoad i (s.setProg m) = (opcodeLoad i s).graft (s.setProg m) := by
  unfold opcodeLoad
  split
  · exact loadEnd_setProg h
  · exact loadAt_setProg s m i s.cursor

theorem loadNext_setProg : loadNext (s.setProg m) = (loadNext s).graft (s.setProg m) := by
  rw [loadNext_eq, loadNext_eq, State.setProg_cursor, fetchOpcode_setProg h]
  cases fetchOpcode s s.cursor with
  | raised => rfl
  | opcode i => exact opcodeLoad_setProg h i

/-- What a load does to the registers is the same over both memories (40_decoder.md R92). -/
theorem settle_loadNext_setProg :
    (loadNext (s.setProg m)).settle (s.setProg m) = ((loadNext s).settle s).setProg m := by
  rw [loadNext_setProg h]
  cases hl : loadNext s with
  | raised c a => rfl
  | loaded t =>
    obtain ⟨i, o, -, -, -, -, rfl, -⟩ := loadNext_loaded hl
    cases i <;> rfl

end

/-! ## The obligations -/

/-- Settles O56: a write to a byte that exists is a next state, and `step_cases` names the only stop. -/
theorem onlyMissingBytesStop : Obligations.OnlyMissingBytesStop := by
  intro s
  constructor
  · rintro ⟨t, ht⟩ ⟨hb, ⟨off, b, rest, hh, ho⟩ | ⟨addr, b, rest, hh, ha⟩⟩
    · cases (step_writeProg_missing hb hh ho).symm.trans ht
    · cases (step_writePal_missing hb hh ha).symm.trans ht
  · intro hn
    rcases step_cases s with ht | ⟨_, hstop⟩
    · exact ht
    · exact absurd hstop hn

/-- Settles O48: where a step changes a memory at all it is one write, of the one byte it names. -/
theorem coreWritesNoMemory : Obligations.CoreWritesNoMemory := by
  intro s t hs
  rcases step_store_cases hs with hsame | ⟨hb, ⟨off, b, rest, hh, rfl⟩ | ⟨addr, b, rest, hh, rfl⟩⟩
  · exact ⟨hsame.cfg, fun a hne => absurd (by rw [hsame.prog]) hne,
      fun a hne => absurd (by rw [hsame.pal]) hne⟩
  · refine ⟨rfl, fun a hne => ⟨hb, b, rest, ?_⟩, fun a hne => absurd rfl hne⟩
    rw [Memory.eq_of_read_write_ne hne]
    exact hh
  · refine ⟨rfl, fun a hne => absurd rfl hne, fun a hne => ⟨hb, b, rest, ?_⟩⟩
    rw [Memory.eq_of_read_write_ne hne]
    exact hh

/-- Settles O55, by the read-after-write laws of `Memory.write`. -/
theorem hostWritesAreRead : Obligations.HostWritesAreRead := by
  refine ⟨fun s off b rest hb hw ho hh => ?_, fun s addr b rest hb hw ha hh => ?_,
    fun s i c rest hb hw hi hh => ?_⟩
  · exact ⟨_, step_writeProg_inside hb hh ho, Memory.write_wf hw off b,
      fun a => Memory.read_write hw off a b⟩
  · exact ⟨_, step_writePal_inside hb hh ha, Memory.write_wf hw addr b,
      fun a => Memory.read_write hw addr a b⟩
  · exact ⟨_, run_writeEntry hb hi hh, palRead_writeBytes (s := s.setHost rest) hw i c⟩

/-- Settles O57: every read of a fetch stands behind its check against PLEN (`fetchOpcode_setProg`), and
the walk and the load read PROG by fetches alone. -/
theorem nothingReadPastPlen : Obligations.NothingReadPastPlen := by
  intro s m h
  refine ⟨validateFrom_setProg h (s.plen + 1) 0, fun t ht => ?_⟩
  cases (runNextOpcode_eq s).symm.trans ht
  exact (runNextOpcode_eq (s.setProg m)).trans (congrArg _ (settle_loadNext_setProg h))

end Sys2Proof.Machine
end

section
/-! The statements of the family 30_encoding.md, first those about fields, bytes and port words: what the two
fields are as numbers, the round trips of the decoder with the encoder, and what the decoder refuses. -/

namespace Sys2Proof

/-! ## Fields as numbers -/

/-- M is the byte divided by 64 (30_encoding.md R71). -/
theorem modeField_toNat (c : Byte) : (modeField c).toNat = c.toNat / 64 := by
  have := c.isLt
  simp only [modeField, BitVec.extractLsb'_toNat, Nat.shiftRight_eq_div_pow]
  omega

/-- L is the byte modulo 64 (30_encoding.md R71). -/
theorem lenField_toNat (c : Byte) : (lenField c).toNat = c.toNat % 64 := by
  simp [lenField, BitVec.extractLsb'_toNat]

/-- The default `PULSE_SEL` selects the lengths whose bit 5 is 0 (00_scope.md R6). -/
theorem pulseSelects_default_iff (l : BitVec 6) :
    Config.default.pulseSelects l = true ↔ l.toNat < 32 := by
  revert l; decide

/-- The mask of the opcode map's first three rows keeps the mode field (30_encoding.md R75). -/
theorem and_modeMask_eq_iff (c : Byte) (m : BitVec 2) :
    c &&& 0xC0#8 = controlByte m 0 ↔ modeField c = m := by
  revert c m; decide

/-- The mask of its PULSE and END rows keeps the top three bits, the byte divided by 32
(30_encoding.md R75). -/
theorem and_pulseMask_eq_iff (c : Byte) (top : BitVec 3) :
    c &&& 0xE0#8 = top.setWidth 8 <<< 5 ↔ c.toNat / 32 = top.toNat := by
  revert c top; decide

/-! ## The class of a control byte -/

theorem classify_eq_gap_iff (cfg : Config) (c : Byte) :
    classify cfg c = .gap ↔ modeField c = 0b00#2 := by
  have h := classify_spec cfg c
  cases hc : classify cfg c <;> simp_all

theorem classify_eq_solid_iff (cfg : Config) (c : Byte) :
    classify cfg c = .solid ↔ modeField c = 0b01#2 := by
  have h := classify_spec cfg c
  cases hc : classify cfg c <;> simp_all

theorem classify_eq_gradient_iff (cfg : Config) (c : Byte) :
    classify cfg c = .gradient ↔ modeField c = 0b10#2 := by
  have h := classify_spec cfg c
  cases hc : classify cfg c <;> simp_all

theorem classify_eq_pulse_iff (cfg : Config) (c : Byte) :
    classify cfg c = .pulse ↔ modeField c = 0b11#2 ∧ cfg.pulseSelects (lenField c) = true := by
  have h := classify_spec cfg c
  cases hc : classify cfg c <;> simp_all

theorem classify_eq_endOp_iff (cfg : Config) (c : Byte) :
    classify cfg c = .endOp ↔ modeField c = 0b11#2 ∧ cfg.pulseSelects (lenField c) = false := by
  have h := classify_spec cfg c
  cases hc : classify cfg c <;> simp_all

/-- Mode `11` is the last quarter of the bytes. -/
theorem modeField_eq_three_iff (c : Byte) : modeField c = 0b11#2 ↔ 192 ≤ c.toNat := by
  have := c.isLt
  rw [← BitVec.toNat_inj, modeField_toNat]
  simp only [BitVec.toNat_ofNat]
  omega

theorem classify_default_pulse_iff (c : Byte) :
    classify Config.default c = .pulse ↔ 0xC0 ≤ c.toNat ∧ c.toNat ≤ 0xDF := by
  have := c.isLt
  rw [classify_eq_pulse_iff, modeField_eq_three_iff, pulseSelects_default_iff, lenField_toNat]
  omega

theorem classify_default_endOp_iff (c : Byte) :
    classify Config.default c = .endOp ↔ 0xE0 ≤ c.toNat := by
  have := c.isLt
  rw [classify_eq_endOp_iff, modeField_eq_three_iff, ← Bool.not_eq_true, pulseSelects_default_iff,
    lenField_toNat]
  omega

/-! ## Decoding and encoding -/

/-- An opcode the instance can encode is read back from its bytes, whatever follows them. -/
theorem decodeProgram_programBytes {cfg : Config} {i : Instr} (hw : i.wf cfg = true)
    (ho : i.isOpcode = true) (rest : List Byte) :
    decodeProgram cfg (programBytes i ++ rest) = .ok i rest := by
  cases i with
  | gap len => exact decodeProgram_gap cfg len rest
  | solid len idx => exact decodeProgram_solid cfg len idx rest
  | gradient len idx d => exact decodeProgram_gradient cfg len idx d rest
  | pulse len st d en => exact decodeProgram_pulse cfg len st d en rest hw
  | endOp len => exact decodeProgram_endOp cfg len rest (by simpa [Instr.wf] using hw)
  | nop | init | render | advance => cases ho

/-- A command whose operands fit is read back from its port word (30_encoding.md R81). -/
theorem decode_encode_command {cfg : Config} {i : Instr} (hw : i.wf cfg = true)
    (hc : i.isOpcode = false) : decode cfg (encode i) = .ok i [] := by
  cases i with
  | nop => exact Laws.Encoding.nop.2 cfg hw
  | init plen npix => exact (Laws.Encoding.init plen npix).2 cfg hw
  | render => exact Laws.Encoding.render.2 cfg hw
  | advance steps => exact (Laws.Encoding.advance steps).2 cfg hw
  | gap | solid | gradient | pulse | endOp => cases hc

theorem encode_opcode {i : Instr} (ho : i.isOpcode = true) : encode i = .program (programBytes i) := by
  cases i with
  | gap | solid | gradient | pulse | endOp => rfl
  | nop | init | render | advance => cases ho

/-- A decoded opcode is one the instance can encode: mode `11` goes to PULSE or END by `PULSE_SEL`
(30_encoding.md R73). -/
theorem wf_of_decodeProgram {cfg : Config} {bs : List Byte} {i : Instr} {rest : List Byte}
    (h : decodeProgram cfg bs = .ok i rest) : i.wf cfg = true := by
  obtain ⟨c, ps, -, hc⟩ := decodeProgram_cases h
  rcases hc with ⟨-, rfl, -⟩ | ⟨-, idx, -, rfl⟩ | ⟨-, idx, dr, dg, db, -, rfl⟩ |
    ⟨hk, sr, sg, sb, dr, dg, db, er, eg, eb, -, rfl⟩ | ⟨hk, rfl, -⟩
  · rfl
  · rfl
  · rfl
  · exact ((classify_eq_pulse_iff cfg c).1 hk).2
  · simp [Instr.wf, ((classify_eq_endOp_iff cfg c).1 hk).2]

/-- Bytes that decode are the bytes of the opcode they decode to, and the rest. -/
theorem eq_programBytes_of_decodeProgram {cfg : Config} {bs : List Byte} {i : Instr} {rest : List Byte}
    (h : decodeProgram cfg bs = .ok i rest) : bs = programBytes i ++ rest := by
  obtain ⟨c, ps, rfl, hc⟩ := decodeProgram_cases h
  have hfields := controlByte_fields c
  rcases hc with ⟨hk, rfl, rfl⟩ | ⟨hk, idx, rfl, rfl⟩ | ⟨hk, idx, dr, dg, db, rfl, rfl⟩ |
    ⟨hk, sr, sg, sb, dr, dg, db, er, eg, eb, rfl, rfl⟩ | ⟨hk, rfl, rfl⟩
  · rw [(classify_eq_gap_iff cfg c).1 hk] at hfields
    simp [programBytes, hfields]
  · rw [(classify_eq_solid_iff cfg c).1 hk] at hfields
    simp [programBytes, hfields]
  · rw [(classify_eq_gradient_iff cfg c).1 hk] at hfields
    simp [programBytes, Colour.bytes, hfields]
  · rw [((classify_eq_pulse_iff cfg c).1 hk).1] at hfields
    simp [programBytes, Colour.bytes, hfields]
  · rw [((classify_eq_endOp_iff cfg c).1 hk).1] at hfields
    simp [programBytes, hfields]

/-- A control byte that is there is refused for its parameter bytes only. -/
theorem decodeProgram_cons_rejected {cfg : Config} {c : Byte} {ps : List Byte} {why : Reject}
    (h : decodeProgram cfg (c :: ps) = .rejected why) :
    why = .missingParameters ∧ ps.length < nParams (classify cfg c) := by
  constructor
  · unfold decodeProgram at h
    cases hc : classify cfg c <;> simp only [hc, reduceCtorEq] at h
    · unfold decodeSolid at h
      split at h <;> cases h
      rfl
    · unfold decodeGradient at h
      split at h <;> cases h
      rfl
    · unfold decodePulse at h
      split at h <;> cases h
      rfl
  · by_contra hlen
    obtain ⟨i, rest, hok, -⟩ := decodeProgram_total cfg c ps (by omega)
    cases hok.symm.trans h

/-! ## The obligations -/

/-- Settles O1: an opcode by `decodeProgram_programBytes`, with nothing or anything after it; a command by
its port word. -/
theorem decodeEncodeAgree : Obligations.DecodeEncodeAgree := by
  intro cfg i hw
  refine ⟨?_, decodeProgram_programBytes hw⟩
  cases ho : i.isOpcode with
  | true => simpa [encode_opcode ho, decode] using decodeProgram_programBytes hw ho []
  | false => exact decode_encode_command hw ho

/-- Settles O2: the bytes by `eq_programBytes_of_decodeProgram`; two opcodes that share bytes are both what
those bytes decode to. -/
theorem decodedBytesEncodeBack : Obligations.DecodedBytesEncodeBack := by
  refine ⟨fun cfg bs i rest h => ?_, fun cfg i j after after' hi hj hio hjo heq => ?_⟩
  · exact ⟨eq_programBytes_of_decodeProgram h, wf_of_decodeProgram h, (decodeProgram_size h).1⟩
  · have hdec : decodeProgram cfg (programBytes i ++ after) = .ok j after' := by
      rw [heq]
      exact decodeProgram_programBytes hj hjo after'
    exact Decoded.ok.inj ((decodeProgram_programBytes hi hio after).symm.trans hdec)

/-- Settles O6: enough bytes decode (`decodeProgram_total`), and a refusal with a control byte there means
too few of them. -/
theorem noIllegalBytes : Obligations.NoIllegalBytes := by
  intro cfg bs
  constructor
  · rintro c ps rfl hlen
    obtain ⟨i, rest, hok, hsize⟩ := decodeProgram_total cfg c ps hlen
    exact ⟨i, rest, hok, hsize ▸ (decodeProgram_size hok).2⟩
  · intro why h
    cases bs with
    | nil => exact .inl ⟨(Decoded.rejected.inj h).symm, rfl⟩
    | cons c ps =>
      obtain ⟨hwhy, hlen⟩ := decodeProgram_cons_rejected h
      exact .inr ⟨hwhy, c, ps, rfl, hlen⟩

/-- Settles O3: the fields are the quotient and the remainder of the byte by 64. -/
theorem controlByteRoundTrip : Obligations.ControlByteRoundTrip := by
  refine fun c => ⟨?_, controlByte_fields c, modeField_toNat c, ?_⟩
  · revert c; decide
  · rintro _ rfl
    rw [modeField_toNat, lenField_toNat]
    omega

/-- Settles O4, class by class; a `PULSE_SEL` that selects nothing leaves END for every mode `11`. -/
theorem classifyByFields : Obligations.ClassifyByFields := by
  refine ⟨fun cfg c => ⟨classify_eq_gap_iff cfg c, classify_eq_solid_iff cfg c,
      classify_eq_gradient_iff cfg c, classify_eq_pulse_iff cfg c, classify_eq_endOp_iff cfg c⟩,
    fun c => ⟨classify_default_pulse_iff c, classify_default_endOp_iff c⟩, fun cfg c hnone => ?_⟩
  constructor
  · intro hpulse
    simpa [hnone] using ((classify_eq_pulse_iff cfg c).1 hpulse).2
  · exact fun hmode => (classify_eq_endOp_iff cfg c).2 ⟨hmode, hnone _⟩

/-- Settles O5: the masks keep the fields that decide the class. -/
theorem opcodeMapMasks : Obligations.OpcodeMapMasks := by
  refine fun c => ⟨?_, ?_, ?_, ?_, ?_⟩
  · rw [classify_eq_gap_iff]
    exact and_modeMask_eq_iff c 0b00#2
  · rw [classify_eq_solid_iff]
    exact and_modeMask_eq_iff c 0b01#2
  · rw [classify_eq_gradient_iff]
    exact and_modeMask_eq_iff c 0b10#2
  · rw [classify_default_pulse_iff]
    refine (and_pulseMask_eq_iff c 6).trans (?_ : c.toNat / 32 = 6 ↔ _)
    omega
  · have hlt := c.isLt
    rw [classify_default_endOp_iff]
    refine (and_pulseMask_eq_iff c 7).trans (?_ : c.toNat / 32 = 7 ↔ _)
    omega

/-- Settles O7, by running the decoder on each word. -/
theorem tableWordsDecode : Obligations.TableWordsDecode := by
  unfold Obligations.TableWordsDecode
  decide

/-- Settles O8: an operand that fits its register loses nothing in the cut to its width. -/
theorem commandCodes : Obligations.CommandCodes := by
  refine fun cfg a b => ⟨rfl, fun ha hb => ?_, rfl, fun hb => ?_⟩
  · simp [decodeCommand, Nat.mod_eq_of_lt ha, Nat.mod_eq_of_lt hb]
  · simp [decodeCommand, Nat.mod_eq_of_lt hb]

end Sys2Proof
end

section
/-! The statement of the family 30_encoding.md about the assembly notation. First the opcode a written one
stands for, with its bytes; then the tokens of a written program, which its text is split into and the
readers take back. -/

namespace Sys2Proof.Machine

/-! ## The opcode a written opcode stands for -/

/-- The colour an unsigned triple writes. -/
def UnsignedTriple.colour (t : UnsignedTriple) : Colour :=
  ⟨BitVec.ofNat 8 t.r, BitVec.ofNat 8 t.g, BitVec.ofNat 8 t.b⟩

/-- The delta bytes a signed triple writes. -/
def SignedTriple.colour (t : SignedTriple) : Colour :=
  ⟨BitVec.ofInt 8 t.r, BitVec.ofInt 8 t.g, BitVec.ofInt 8 t.b⟩

/-- The L field of a written length. -/
def asmLenField (n : Nat) : BitVec 6 := BitVec.ofNat 6 (n - 1)

/-- The opcode a written one assembles to (30_encoding.md R79). -/
def AsmOp.instr : AsmOp → Instr
  | .gap len => .gap (asmLenField len)
  | .solid len idx => .solid (asmLenField len) (BitVec.ofNat 8 idx)
  | .gradient len idx delta => .gradient (asmLenField len) (BitVec.ofNat 8 idx) delta.colour
  | .pulse len st delta en => .pulse (asmLenField (len.getD 1)) st.colour delta.colour en.colour
  | .endOp => .endOp 63

theorem AsmOp.instr_isOpcode (a : AsmOp) : a.instr.isOpcode = true := by
  cases a <;> rfl

/-- The L field and the byte `n - 1` of a length up to 64 hold the same number, so the control byte is
the written one of 30_encoding.md R79. -/
theorem controlByte_asmLenField (m : BitVec 2) {n : Nat} (h : n ≤ 64) :
    controlByte m (asmLenField n) = (m.setWidth 8 <<< 6) ||| asmLen n := by
  have hlen : (asmLenField n).setWidth 8 = asmLen n := by
    apply BitVec.eq_of_toNat_eq
    simp only [asmLenField, asmLen, BitVec.toNat_setWidth, BitVec.toNat_ofNat]
    omega
  rw [controlByte, hlen]

theorem asmLenField_succ {n : Nat} (h1 : 1 ≤ n) (h : n ≤ 64) : (asmLenField n).toNat + 1 = n := by
  simp only [asmLenField, BitVec.toNat_ofNat]
  omega

theorem toNat_ofNat_byte {n : Nat} (h : n ≤ 255) : (BitVec.ofNat 8 n).toNat = n := by
  simp only [BitVec.toNat_ofNat]
  omega

/-- A signed value stored modulo 256 is read back (30_encoding.md R79, 00_scope.md R8). -/
theorem sext8_ofInt {z : Int} (h0 : -128 ≤ z) (h1 : z ≤ 127) : sext8 (BitVec.ofInt 8 z) = z := by
  rw [sext8_eq_toInt, BitVec.toInt_ofInt, Int.bmod_eq_of_le (by omega) (by omega)]

theorem unsignedTriple_colour {t : UnsignedTriple} (h : t.legal = true) :
    unsignedTriple t.colour = t := by
  simp only [UnsignedTriple.legal, Bool.and_eq_true, decide_eq_true_eq] at h
  obtain ⟨⟨hr, hg⟩, hb⟩ := h
  simp only [unsignedTriple, UnsignedTriple.colour, toNat_ofNat_byte hr, toNat_ofNat_byte hg,
    toNat_ofNat_byte hb]

theorem signedTriple_colour {t : SignedTriple} (h : t.legal = true) : signedTriple t.colour = t := by
  simp only [SignedTriple.legal, Bool.and_eq_true, decide_eq_true_eq] at h
  obtain ⟨⟨⟨⟨⟨hr0, hr1⟩, hg0⟩, hg1⟩, hb0⟩, hb1⟩ := h
  simp only [signedTriple, SignedTriple.colour, sext8_ofInt hr0 hr1, sext8_ofInt hg0 hg1,
    sext8_ofInt hb0 hb1]

/-- A written opcode with its length spelled out: only PULSE may leave it away
(30_encoding.md R78). -/
def AsmOp.withLength : AsmOp → AsmOp
  | .pulse len st delta en => .pulse (some (len.getD 1)) st delta en
  | a => a

theorem AsmOp.bytes_eq {a : AsmOp} (h : a.legal = true) : a.bytes = programBytes a.instr := by
  cases a with
  | endOp => rfl
  | gap | solid | gradient | pulse =>
    simp only [AsmOp.legal, Bool.and_eq_true, decide_eq_true_eq] at h
    simp only [AsmOp.instr, programBytes]
    rw [controlByte_asmLenField _ (by omega)]
    rfl

theorem AsmOp.instr_wf {a : AsmOp} (h : a.legal = true) : a.instr.wf Config.default = true := by
  cases a with
  | gap | solid | gradient | endOp => rfl
  | pulse len st delta en =>
    simp only [AsmOp.legal, Bool.and_eq_true, decide_eq_true_eq] at h
    obtain ⟨⟨⟨⟨hlen1, hlen⟩, -⟩, -⟩, -⟩ := h
    have := asmLenField_succ hlen1 (by omega)
    exact (pulseSelects_default_iff _).2 (by omega)

theorem AsmOp.disassemble_instr {a : AsmOp} (h : a.legal = true) :
    disassemble a.instr = some a.withLength := by
  cases a with
  | endOp => rfl
  | gap len =>
    simp only [AsmOp.legal, Bool.and_eq_true, decide_eq_true_eq] at h
    simp only [AsmOp.instr, disassemble, AsmOp.withLength, asmLenField_succ h.1 h.2]
  | solid len idx =>
    simp only [AsmOp.legal, Bool.and_eq_true, decide_eq_true_eq] at h
    obtain ⟨⟨hlen1, hlen⟩, hidx⟩ := h
    simp only [AsmOp.instr, disassemble, AsmOp.withLength, asmLenField_succ hlen1 hlen,
      toNat_ofNat_byte hidx]
  | gradient len idx delta =>
    simp only [AsmOp.legal, Bool.and_eq_true, decide_eq_true_eq] at h
    obtain ⟨⟨⟨hlen1, hlen⟩, hidx⟩, hdelta⟩ := h
    simp only [AsmOp.instr, disassemble, AsmOp.withLength, asmLenField_succ hlen1 hlen,
      toNat_ofNat_byte hidx, signedTriple_colour hdelta]
  | pulse len st delta en =>
    simp only [AsmOp.legal, Bool.and_eq_true, decide_eq_true_eq] at h
    obtain ⟨⟨⟨⟨hlen1, hlen⟩, hst⟩, hdelta⟩, hen⟩ := h
    simp only [AsmOp.instr, disassemble, AsmOp.withLength, asmLenField_succ hlen1 (by omega),
      unsignedTriple_colour hst, signedTriple_colour hdelta, unsignedTriple_colour hen]

/-- A byte `0xE0..0xFF` decodes to END (30_encoding.md R79). -/
theorem decodeProgram_end_byte {c : Byte} (h : 0xE0 ≤ c.toNat) :
    decodeProgram Config.default [c] = .ok (.endOp (lenField c)) [] := by
  simp only [decodeProgram, (classify_default_endOp_iff c).2 h]

/-! ## The tokens of a written program -/

/-- The token of a number. -/
def natToken (n : Nat) : Token := .num (Nat.toDigits 10 n).length n

/-- `name=n`. -/
def fieldTokens (name : List Char) (n : Nat) : List Token := [.word name, .sym '=', natToken n]

/-- `(a,b,c)` of unsigned numbers. -/
def UnsignedTriple.tokens (t : UnsignedTriple) : List Token :=
  [.sym '(', natToken t.r, .sym ',', natToken t.g, .sym ',', natToken t.b, .sym ')']

/-- `(a,b,c)` of signed numbers. -/
def SignedTriple.tokens (t : SignedTriple) : List Token :=
  [Token.sym '('] ++ signedTokens t.r ++ [Token.sym ','] ++ signedTokens t.g ++ [Token.sym ','] ++
    signedTokens t.b ++ [Token.sym ')']

/-- `name=` in front of a triple. -/
def named (name : List Char) (ts : List Token) : List Token := .word name :: .sym '=' :: ts

/-- The tokens of a written opcode. -/
def AsmOp.tokens : AsmOp → List Token
  | .gap len => .word ['G', 'A', 'P'] :: fieldTokens ['l', 'e', 'n'] len
  | .solid len idx =>
    .word ['S', 'O', 'L', 'I', 'D'] ::
      (fieldTokens ['l', 'e', 'n'] len ++ fieldTokens ['i', 'd', 'x'] idx)
  | .gradient len idx delta =>
    .word ['G', 'R', 'A', 'D', 'I', 'E', 'N', 'T'] ::
      (fieldTokens ['l', 'e', 'n'] len ++ fieldTokens ['i', 'd', 'x'] idx ++
        named ['d', 'e', 'l', 't', 'a'] delta.tokens)
  | .pulse len st delta en =>
    .word ['P', 'U', 'L', 'S', 'E'] ::
      (len.elim [] (fieldTokens ['l', 'e', 'n']) ++ named ['s', 't', 'a', 'r', 't'] st.tokens ++
        named ['d', 'e', 'l', 't', 'a'] delta.tokens ++ named ['e', 'n', 'd'] en.tokens)
  | .endOp => [.word ['E', 'N', 'D']]

/-- What follows the first opcode: `, op` for each further one, and the closing bracket. -/
def tailTokens : List AsmOp → List Token
  | [] => [.sym ']']
  | a :: p => .sym ',' :: (a.tokens ++ tailTokens p)

/-! ## From the text to the tokens -/

/-- Tokens without the blanks among them (log 12). -/
def dropBlanks (ts : List Token) : List Token := ts.filter fun t => decide (t ≠ .blank)

theorem lex_eq_dropBlanks (text : List Char) : lex text = dropBlanks (text.foldr lexChar []) := rfl

theorem dropBlanks_append (ts us : List Token) :
    dropBlanks (ts ++ us) = dropBlanks ts ++ dropBlanks us :=
  List.filter_append ..

theorem dropBlanks_signedTokens (z : Int) : dropBlanks (signedTokens z) = signedTokens z := by
  cases z <;> rfl

theorem SignedTriple.dropBlanks_tokens (t : SignedTriple) : dropBlanks t.tokens = t.tokens := by
  simp only [SignedTriple.tokens, dropBlanks_append, dropBlanks_signedTokens]
  rfl

theorem lex_unsignedTriple (t : UnsignedTriple) (ts : List Token) :
    t.text.toList.foldr lexChar ts = t.tokens ++ ts := by
  simp only [UnsignedTriple.text, lex_append]
  rw [lex_nat t.b (by rintro _ _ _ ⟨⟩), lex_nat t.g (by rintro _ _ _ ⟨⟩),
    lex_nat t.r (by rintro _ _ _ ⟨⟩)]
  rfl

theorem lex_signedTriple (t : SignedTriple) (ts : List Token) :
    t.text.toList.foldr lexChar ts = t.tokens ++ ts := by
  simp only [SignedTriple.text, lex_append, SignedTriple.tokens, List.append_assoc]
  rw [lex_int t.b (by rintro _ _ _ ⟨⟩), lex_int t.g (by rintro _ _ _ ⟨⟩),
    lex_int t.r (by rintro _ _ _ ⟨⟩)]
  rfl

theorem lex_start (t : UnsignedTriple) (ts : List Token) :
    dropBlanks (" start=".toList.foldr lexChar (t.tokens ++ ts)) =
      named ['s', 't', 'a', 'r', 't'] t.tokens ++ dropBlanks ts := rfl

theorem lex_end (t : UnsignedTriple) (ts : List Token) :
    dropBlanks (" end=".toList.foldr lexChar (t.tokens ++ ts)) =
      named ['e', 'n', 'd'] t.tokens ++ dropBlanks ts := rfl

theorem lex_delta (t : SignedTriple) (ts : List Token) :
    dropBlanks (" delta=".toList.foldr lexChar (t.tokens ++ ts)) =
      named ['d', 'e', 'l', 't', 'a'] t.tokens ++ dropBlanks ts := by
  have h := dropBlanks_append t.tokens ts
  rw [t.dropBlanks_tokens] at h
  rw [named, List.cons_append, List.cons_append, ← h]
  rfl

/-- `start delta end` of a PULSE. -/
theorem lex_pulseFields (st : UnsignedTriple) (delta : SignedTriple) (en : UnsignedTriple)
    (ts : List Token) :
    dropBlanks (" start=".toList.foldr lexChar (st.tokens ++
      " delta=".toList.foldr lexChar (delta.tokens ++
        " end=".toList.foldr lexChar (en.tokens ++ ts)))) =
      named ['s', 't', 'a', 'r', 't'] st.tokens ++ (named ['d', 'e', 'l', 't', 'a'] delta.tokens ++
        (named ['e', 'n', 'd'] en.tokens ++ dropBlanks ts)) := by
  rw [lex_start, lex_delta, lex_end]

/-- The text of an opcode in front of a comma or a bracket is split into the opcode's tokens. -/
theorem AsmOp.lex_text (a : AsmOp) (c : Char) (ts : List Token) :
    dropBlanks (a.text.toList.foldr lexChar (.sym c :: ts)) =
      a.tokens ++ dropBlanks (.sym c :: ts) := by
  unfold AsmOp.text
  cases a with
  | endOp => rfl
  | gap len =>
    simp only [lex_append]
    rw [lex_nat len (by rintro _ _ _ ⟨⟩)]
    rfl
  | solid len idx =>
    simp only [lex_append]
    rw [lex_nat idx (by rintro _ _ _ ⟨⟩), lex_nat len (by rintro _ _ _ ⟨⟩)]
    rfl
  | gradient len idx delta =>
    simp only [lex_append, lex_signedTriple, AsmOp.tokens, List.cons_append,
      List.append_assoc]
    rw [← lex_delta, lex_nat idx (by rintro _ _ _ ⟨⟩), lex_nat len (by rintro _ _ _ ⟨⟩)]
    rfl
  | pulse len st delta en =>
    simp only [lex_append, lex_signedTriple, lex_unsignedTriple, AsmOp.tokens,
      List.cons_append, List.append_assoc]
    rw [← lex_pulseFields]
    cases len with
    | none => rfl
    | some n =>
      simp only [lex_append]
      rw [lex_nat n (by rintro _ _ _ ⟨⟩)]
      rfl

/-! ## From the tokens to the program -/

theorem readField_fieldTokens (name : List Char) (n : Nat) (ts : List Token) :
    readField name (fieldTokens name n ++ ts) = some (n, ts) := by
  simp [readField, fieldTokens, natToken]

theorem readUnsignedTriple_named (name : List Char) (t : UnsignedTriple) (ts : List Token) :
    readUnsignedTriple name (named name t.tokens ++ ts) = some (t, ts) := by
  simp [readUnsignedTriple, named, UnsignedTriple.tokens, natToken]

theorem readDelta_named (t : SignedTriple) (ts : List Token) :
    readDelta (named ['d', 'e', 'l', 't', 'a'] t.tokens ++ ts) = some (t, ts) := by
  simp [readDelta, readNextSigned, named, SignedTriple.tokens, readSigned_signedTokens]

theorem readPulse_named (len : Option Nat) (st : UnsignedTriple) (delta : SignedTriple)
    (en : UnsignedTriple) (ts : List Token) :
    readPulse len (named ['s', 't', 'a', 'r', 't'] st.tokens ++
      (named ['d', 'e', 'l', 't', 'a'] delta.tokens ++ (named ['e', 'n', 'd'] en.tokens ++ ts))) =
      some (.pulse len st delta en, ts) := by
  simp [readPulse, readUnsignedTriple_named, readDelta_named]

/-- `start=(…)` is no `len=n`: the one place where the grammar has a choice within an opcode. -/
theorem readField_named_triple (name name' : List Char) (t : UnsignedTriple) (ts : List Token) :
    readField name (named name' t.tokens ++ ts) = none := rfl

theorem readOpcode_tokens (a : AsmOp) (ts : List Token) :
    readOpcode (a.tokens ++ ts) = some (a, ts) := by
  cases a with
  | endOp => rfl
  | gap len => simp [AsmOp.tokens, readOpcode, readField_fieldTokens]
  | solid len idx => simp [AsmOp.tokens, readOpcode, readField_fieldTokens]
  | gradient len idx delta =>
    simp [AsmOp.tokens, readOpcode, readField_fieldTokens, readDelta_named]
  | pulse len st delta en =>
    cases len with
    | none => simp [AsmOp.tokens, readOpcode, readField_named_triple, readPulse_named]
    | some n => simp [AsmOp.tokens, readOpcode, readField_fieldTokens, readPulse_named]

theorem length_lt_tokens (p : List AsmOp) : p.length < (tailTokens p).length := by
  induction p with
  | nil => decide
  | cons a p ih =>
    simp only [tailTokens, List.length_cons, List.length_append]
    omega

theorem readOpcodes_tokens (a : AsmOp) (p : List AsmOp) {fuel : Nat} (h : p.length < fuel) :
    readOpcodes fuel (a.tokens ++ tailTokens p) = some (a :: p) := by
  induction p generalizing a fuel with
  | nil =>
    match fuel, h with
    | fuel + 1, _ => simp [readOpcodes, readOpcode_tokens, tailTokens]
  | cons b p ih =>
    match fuel, h with
    | fuel + 1, h =>
      simp [readOpcodes, readOpcode_tokens, tailTokens, ih b (Nat.lt_of_succ_lt_succ h)]

/-- The opcodes' texts with their commas and the closing bracket. -/
theorem lex_opcodes (a : AsmOp) (p : List AsmOp) :
    dropBlanks ((String.intercalate ", " ((a :: p).map AsmOp.text) ++ "]").toList.foldr lexChar []) =
      a.tokens ++ tailTokens p := by
  rw [lex_append]
  induction p generalizing a with
  | nil =>
    rw [List.map_singleton, String.intercalate_singleton]
    exact a.lex_text ']' []
  | cons b p ih =>
    rw [List.map_cons, List.map_cons, String.intercalate_cons_cons, lex_append, lex_append]
    refine (a.lex_text ',' _).trans ?_
    exact congrArg (a.tokens ++ .sym ',' :: ·) (ih b)

theorem lex_asmText (a : AsmOp) (p : List AsmOp) :
    lex (asmText (a :: p)).toList = .sym '[' :: (a.tokens ++ tailTokens p) := by
  rw [lex_eq_dropBlanks, asmText, String.append_assoc, lex_append, ← lex_opcodes]
  rfl

theorem readAsm_asmText {p : List AsmOp} (h : p ≠ []) : readAsm (asmText p).toList = some p := by
  cases p with
  | nil => exact absurd rfl h
  | cons a p =>
    rw [readAsm, lex_asmText]
    refine readOpcodes_tokens a p ?_
    have := length_lt_tokens p
    rw [List.length_append]
    omega

/-! ## The obligation -/

/-- Settles O9: a legal written opcode has the bytes of `AsmOp.instr`, and a program's text is split into
the tokens the readers take back. -/
theorem assemblyRoundTrip : Obligations.AssemblyRoundTrip := by
  refine ⟨fun a rest h => ⟨a.instr, ?_, ?_⟩, rfl, fun c hc => ?_, fun p hp => ?_, ?_⟩
  · rw [AsmOp.bytes_eq h]
    exact decodeProgram_programBytes (AsmOp.instr_wf h) a.instr_isOpcode rest
  · rw [AsmOp.disassemble_instr h]
    cases a <;> rfl
  · exact ⟨_, decodeProgram_end_byte hc, rfl⟩
  · have hread := readAsm_asmText hp
    refine ⟨hread, ?_⟩
    rw [assembleText, hread]
    rfl
  · decide

end Sys2Proof.Machine
end

section
/-! The statements of the family 40_decoder.md about one load, one turn of the validation walk and one pixel
step. First which opcode stands at an offset, by the class of its control byte, and what its load answers;
then where `LoadNext` loads from. -/

namespace Sys2Proof.Machine

/-! ## The opcode at an offset -/

/-- The opcode that the bytes from offset `o` on are, however many of them lie inside the program
(30_encoding.md R70, R73, R74). -/
def opcodeAt (s : State) (o : Nat) : Instr :=
  match classify s.cfg (s.progRead o) with
  | .gap => .gap (lenField (s.progRead o))
  | .solid => .solid (lenField (s.progRead o)) (s.progRead (o + 1))
  | .gradient =>
    .gradient (lenField (s.progRead o)) (s.progRead (o + 1))
      ⟨s.progRead (o + 2), s.progRead (o + 3), s.progRead (o + 4)⟩
  | .pulse =>
    .pulse (lenField (s.progRead o))
      ⟨s.progRead (o + 1), s.progRead (o + 2), s.progRead (o + 3)⟩
      ⟨s.progRead (o + 4), s.progRead (o + 5), s.progRead (o + 6)⟩
      ⟨s.progRead (o + 7), s.progRead (o + 8), s.progRead (o + 9)⟩
  | .endOp => .endOp (lenField (s.progRead o))

theorem decodeProgram_progBytes (s : State) (o : Nat) :
    decodeProgram s.cfg (s.progBytes o (1 + nParams (classify s.cfg (s.progRead o)))) =
      .ok (opcodeAt s o) [] := by
  cases hk : classify s.cfg (s.progRead o) <;>
    simp [opcodeAt, hk, nParams, State.progBytes, decodeProgram, decodeSolid, decodeGradient, decodePulse,
      Nat.add_assoc]

/-- An opcode all of whose bytes lie inside the program is fetched (40_decoder.md R90, R92). -/
theorem fetchOpcode_inside {s : State} {o : Nat}
    (h : o + 1 + nParams (classify s.cfg (s.progRead o)) ≤ s.plen) :
    fetchOpcode s o = .opcode (opcodeAt s o) := by
  rw [fetchOpcode, if_neg (by omega), if_neg (by omega), decodeProgram_progBytes]

theorem fetchOpcode_noEnd {s : State} {o : Nat} (h : s.plen ≤ o) :
    fetchOpcode s o = .raised .noEnd o := by
  rw [fetchOpcode, if_pos h]

theorem fetchOpcode_truncated {s : State} {o : Nat} (h : o < s.plen)
    (ht : s.plen < o + 1 + nParams (classify s.cfg (s.progRead o))) :
    fetchOpcode s o = .raised .truncated o := by
  rw [fetchOpcode, if_neg (by omega), if_pos ht]

theorem opcodeAt_size (s : State) (o : Nat) :
    (opcodeAt s o).size = 1 + nParams (classify s.cfg (s.progRead o)) := by
  cases hk : classify s.cfg (s.progRead o) <;> simp [opcodeAt, hk, Instr.size, nParams]

/-- END is the one class that loads no run (40_decoder.md R91). -/
theorem opcodeAt_loadsRun {s : State} {o : Nat} (h : classify s.cfg (s.progRead o) ≠ .endOp) :
    loadsRun (opcodeAt s o) = true := by
  cases hk : classify s.cfg (s.progRead o) <;> simp_all [opcodeAt, loadsRun]

theorem opcodeAt_endOp {s : State} {o : Nat} (h : classify s.cfg (s.progRead o) = .endOp) :
    opcodeAt s o = .endOp (lenField (s.progRead o)) := by
  simp [opcodeAt, h]

/-- SOLID and GRADIENT are the classes with a palette index, their first parameter byte
(40_decoder.md R93). -/
theorem indexOk_opcodeAt (s : State) (o : Nat) :
    indexOk s (opcodeAt s o) ↔
      (classify s.cfg (s.progRead o) = .solid ∨ classify s.cfg (s.progRead o) = .gradient →
        (s.progRead (o + 1)).toNat < s.cfg.palSize) := by
  cases hk : classify s.cfg (s.progRead o) <;> simp [opcodeAt, hk, indexOk]

/-! ## The load of a fetched opcode -/

theorem isOpcode_of_loadsRun {i : Instr} (hi : loadsRun i = true) : i.isOpcode = true := by
  cases i with
  | gap | solid | gradient | pulse => rfl
  | endOp | nop | init | render | advance => cases hi

theorem loadAt_loaded {s : State} {i : Instr} {o : Nat} (hi : loadsRun i = true)
    (hl : o + i.size ≤ s.plen) (hx : indexOk s i) : loadAt i o s = .loaded (loadedState i o s) := by
  have hsize := size_pos (isOpcode_of_loadsRun hi)
  rcases loadAt_cases hi o s with ⟨_, _⟩ | ⟨_, _, _⟩ | ⟨_, hn, _⟩ | ⟨_, _, e⟩
  · omega
  · omega
  · exact absurd hx hn
  · exact e

theorem loadAt_palIndex {s : State} {i : Instr} {o : Nat} (hi : loadsRun i = true)
    (hl : o + i.size ≤ s.plen) (hx : ¬ indexOk s i) : loadAt i o s = .raised .palIndex (o + 1) := by
  have hsize := size_pos (isOpcode_of_loadsRun hi)
  rcases loadAt_cases hi o s with ⟨_, _⟩ | ⟨_, _, _⟩ | ⟨_, _, e⟩ | ⟨_, hok, _⟩
  · omega
  · omega
  · exact e
  · exact absurd hok hx

theorem opcodeLoad_of_loadsRun {i : Instr} (hi : loadsRun i = true) (s : State) :
    opcodeLoad i s = loadAt i s.cursor s := by
  cases i with
  | gap | solid | gradient | pulse => rfl
  | endOp | nop | init | render | advance => cases hi

/-- Fetch the opcode at offset `o` and load it there; an END met here is one at program start
(40_decoder.md R90, R91). -/
def loadFrom (s : State) (o : Nat) : LoadResult :=
  match fetchOpcode s o with
  | .raised c a => .raised c a
  | .opcode i => loadAt i o s

theorem loadRestart_eq (s : State) : loadRestart s = loadFrom s 0 := rfl

theorem loadFrom_opcode {s : State} {o : Nat} {i : Instr} (hf : fetchOpcode s o = .opcode i) :
    loadFrom s o = loadAt i o s := by
  rw [loadFrom, hf]

theorem loadFrom_raised {s : State} {o : Nat} {c : FaultCode} {a : Nat}
    (hf : fetchOpcode s o = .raised c a) : loadFrom s o = .raised c a := by
  rw [loadFrom, hf]

/-- The load from an offset that answers is that of a run whose index is legal. -/
theorem loadFrom_loaded_iff {s t : State} {o : Nat} :
    loadFrom s o = .loaded t ↔
      ∃ i, loadsRun i = true ∧ fetchOpcode s o = .opcode i ∧ indexOk s i ∧ t = loadedState i o s := by
  constructor
  · intro h
    cases hf : fetchOpcode s o with
    | raised c a => cases (loadFrom_raised hf).symm.trans h
    | opcode i =>
      rw [loadFrom_opcode hf] at h
      obtain ⟨ho, hl, -⟩ := fetchOpcode_opcode hf
      rcases loadsRun_or_end ho with hi | ⟨l, rfl⟩
      · by_cases hx : indexOk s i
        · cases (loadAt_loaded hi hl hx).symm.trans h
          exact ⟨i, hi, rfl, hx, rfl⟩
        · cases (loadAt_palIndex hi hl hx).symm.trans h
      · cases h
  · rintro ⟨i, hi, hf, hx, rfl⟩
    obtain ⟨-, hl, -⟩ := fetchOpcode_opcode hf
    exact (loadFrom_opcode hf).trans (loadAt_loaded hi hl hx)

/-- With CURSOR moved to 0 a run opcode does what its load at 0 does: the load writes CURSOR. -/
theorem exec_at_zero {s : State} {i : Instr} (hi : loadsRun i = true) (hl : 0 + i.size ≤ s.plen)
    (hx : indexOk s i) : exec i (s.setCursor 0) = .next (loadedState i 0 s) := by
  have hload : loadAt i 0 (s.setCursor 0) = .loaded (loadedState i 0 (s.setCursor 0)) :=
    loadAt_loaded hi hl (by cases i <;> exact hx)
  rw [exec_opcode (isOpcode_of_loadsRun hi), opcodeLoad_of_loadsRun hi, State.setCursor_cursor, hload,
    settle_loaded]
  cases i with
  | gap | solid | gradient | pulse => rfl
  | endOp | nop | init | render | advance => cases hi

/-! ## END -/

theorem loadEnd_noEnd {s : State} (h : s.plen ≤ s.cursor) : loadEnd s = .raised .noEnd s.cursor := by
  rw [loadEnd, checkBounds, if_pos h]

theorem loadEnd_start {s : State} (h : s.cursor < s.plen) (h0 : s.cursor = 0) :
    loadEnd s = .raised .emptyLoop 0 := by
  rw [loadEnd, checkBounds_inside _ h, if_pos h0]

theorem loadEnd_restart {s : State} (h : s.cursor < s.plen) (h0 : s.cursor ≠ 0) :
    loadEnd s = loadFrom s 0 := by
  rw [loadEnd, checkBounds_inside _ h, if_neg h0, loadRestart_eq]

theorem exec_endOp_raised (len : BitVec 6) {s : State} {c : FaultCode} {a : Nat}
    (h : loadEnd s = .raised c a) : exec (.endOp len) s = .next (s.faultEntry c a) := by
  rw [exec_opcode rfl, opcodeLoad, h, settle_raised]

theorem exec_endOp_loaded (len : BitVec 6) {s t : State} (h : loadEnd s = .loaded t) :
    exec (.endOp len) s = .next t := by
  rw [exec_opcode rfl, opcodeLoad, h, settle_loaded]

/-! ## Where `LoadNext` loads from -/

/-- The offset `LoadNext` loads from: CURSOR, or 0 where an END stands there (40_decoder.md R91). -/
def loadOffset (s : State) : Nat :=
  if classify s.cfg (s.progRead s.cursor) = .endOp then 0 else s.cursor

theorem loadNext_noEnd {s : State} (h : s.plen ≤ s.cursor) : loadNext s = .raised .noEnd s.cursor := by
  rw [loadNext_eq, fetchOpcode_noEnd h]

/-- With a control byte at CURSOR, `LoadNext` is the load from one offset: an END at 0 is EMPTY_LOOP either
way. -/
theorem loadNext_eq_loadFrom {s : State} (h : s.cursor < s.plen) :
    loadNext s = loadFrom s (loadOffset s) := by
  rw [loadNext_eq, loadOffset]
  split_ifs with hk
  · have hf : fetchOpcode s s.cursor = .opcode (.endOp (lenField (s.progRead s.cursor))) := by
      rw [← opcodeAt_endOp hk]
      exact fetchOpcode_inside (by rw [hk]; exact h)
    rw [hf]
    by_cases h0 : s.cursor = 0
    · rw [h0] at hf
      rw [loadFrom_opcode hf]
      exact loadEnd_start h h0
    · exact loadEnd_restart h h0
  · cases hf : fetchOpcode s s.cursor with
    | raised c a => exact (loadFrom_raised hf).symm
    | opcode i =>
      rw [loadFrom_opcode hf]
      refine opcodeLoad_of_loadsRun ((loadsRun_or_end (fetchOpcode_opcode hf).1).resolve_right ?_) s
      exact fun hend => hk ((fetchOpcode_class hf).1.mp hend)

/-- When `LoadNext` answers, and what. -/
theorem loadNext_loaded_iff {s t : State} :
    loadNext s = .loaded t ↔ s.cursor < s.plen ∧ ∃ i, loadsRun i = true ∧
      fetchOpcode s (loadOffset s) = .opcode i ∧ indexOk s i ∧ t = loadedState i (loadOffset s) s := by
  by_cases h : s.cursor < s.plen
  · rw [loadNext_eq_loadFrom h, loadFrom_loaded_iff]
    simp only [h, true_and]
  · rw [loadNext_noEnd (Nat.le_of_not_lt h)]
    simp [h]

/-- The opcode at CURSOR, no END, runs as its load (40_decoder.md R90 step 4). -/
theorem runNextOpcode_opcodeAt {s : State}
    (hk : classify s.cfg (s.progRead s.cursor) ≠ .endOp)
    (hl : s.cursor + 1 + nParams (classify s.cfg (s.progRead s.cursor)) ≤ s.plen)
    (hx : classify s.cfg (s.progRead s.cursor) = .solid ∨
      classify s.cfg (s.progRead s.cursor) = .gradient →
        (s.progRead (s.cursor + 1)).toNat < s.cfg.palSize) :
    runNextOpcode s = .next (loadedState (opcodeAt s s.cursor) s.cursor s) := by
  have ho : loadOffset s = s.cursor := if_neg hk
  have hl' : loadNext s = .loaded (loadedState (opcodeAt s s.cursor) s.cursor s) := by
    refine loadNext_loaded_iff.mpr
      ⟨by omega, _, opcodeAt_loadsRun hk, ?_, (indexOk_opcodeAt s _).mpr hx, ?_⟩
    · rw [ho]
      exact fetchOpcode_inside hl
    · rw [ho]
  rw [runNextOpcode_eq, hl', settle_loaded]

/-! ## What a load answers, as a state -/

/-- A fault is entered with everything else kept; what a load writes, it writes to data registers. -/
theorem settle_frame {s : State} {r : LoadResult} (hp : s.phase ≠ .faulted)
    (hr : ∀ t, r = .loaded t → SameControl s t) :
    SameRest s (r.settle s) ∧ ((r.settle s).phase = .faulted → SameData s (r.settle s)) ∧
      ((r.settle s).phase ≠ .faulted → r = .loaded (r.settle s)) := by
  cases r with
  | raised c a =>
    obtain ⟨hdata, hrest⟩ := faultEntry_frame s c a
    exact ⟨hrest, fun _ => hdata, fun hne => absurd rfl hne⟩
  | loaded t =>
    have hc := hr t rfl
    exact ⟨hc.rest, fun hf => absurd (hc.phase.symm.trans hf) hp, fun _ => rfl⟩

theorem loadNext_control {s t : State} (h : loadNext s = .loaded t) : SameControl s t := by
  obtain ⟨-, i, -, -, -, rfl⟩ := loadNext_loaded_iff.mp h
  exact loadedState_control i _ s

/-- What an opcode's load answers: the opcode's own writes, or those of the opcode at 0 after an END. -/
theorem opcodeLoad_loaded {i : Instr} {s t : State} (ho : i.isOpcode = true)
    (h : opcodeLoad i s = .loaded t) :
    SameControl s t ∧ ((∀ l, i ≠ .endOp l) → t = loadedState i s.cursor s) := by
  rcases loadsRun_or_end ho with hi | ⟨l, rfl⟩
  · rw [opcodeLoad_of_loadsRun hi] at h
    rcases loadAt_cases hi s.cursor s with ⟨_, e⟩ | ⟨_, _, e⟩ | ⟨_, _, e⟩ | ⟨_, _, e⟩ <;>
      cases e.symm.trans h
    exact ⟨loadedState_control i _ s, fun _ => rfl⟩
  · refine ⟨?_, fun hne => absurd rfl (hne l)⟩
    have hend : loadEnd s = .loaded t := h
    by_cases hc : s.cursor < s.plen
    · by_cases h0 : s.cursor = 0
      · cases (loadEnd_start hc h0).symm.trans hend
      · obtain ⟨j, -, -, -, rfl⟩ := loadFrom_loaded_iff.mp ((loadEnd_restart hc h0).symm.trans hend)
        exact loadedState_control j 0 s
    · cases (loadEnd_noEnd (Nat.le_of_not_lt hc)).symm.trans hend

/-- Only GRADIENT and PULSE write D, only PULSE writes S, E and DIR (10_state.md R24, R25, R27). -/
theorem loadedState_owned {i : Instr} (o : Nat) (s : State) (hp : ∀ l st d en, i ≠ .pulse l st d en) :
    (loadedState i o s).startBound = s.startBound ∧ (loadedState i o s).endBound = s.endBound ∧
      (loadedState i o s).dir = s.dir ∧
      ((∀ l x d, i ≠ .gradient l x d) → (loadedState i o s).delta = s.delta) := by
  cases i with
  | pulse l st d en => exact absurd rfl (hp l st d en)
  | gradient l x d => exact ⟨rfl, rfl, rfl, fun hg => absurd rfl (hg l x d)⟩
  | gap | solid | endOp | nop | init | render | advance => exact ⟨rfl, rfl, rfl, fun _ => rfl⟩

/-! ## One turn of the walk -/

/-- The walk at an opcode whose bytes lie inside the program (40_decoder.md R95). -/
theorem validateFrom_inside {s : State} {o : Nat}
    (h : o + 1 + nParams (classify s.cfg (s.progRead o)) ≤ s.plen) :
    validateFrom s (s.plen + 1) o =
      validateOpcode s o (opcodeAt s o)
        (validateFrom s (s.plen + 1) (o + 1 + nParams (classify s.cfg (s.progRead o)))) := by
  rw [validateFrom_step, fetchOpcode_inside h]
  simp only [opcodeAt_size, Nat.add_assoc]

theorem validateFrom_raised {s : State} {o : Nat} {c : FaultCode} {a : Nat}
    (h : fetchOpcode s o = .raised c a) : validateFrom s (s.plen + 1) o = some (c, a) := by
  rw [validateFrom_step, h]

/-! ## A pixel step -/

theorem coreStep_rendering {s : State} (hp : s.phase = .rendering) (hc : s.cnt ≠ 0) :
    coreStep s = afterAdvance (advance (s.emit (.color s.cur))) := by
  rw [coreStep, hp]
  exact if_neg hc

theorem coreStep_stepping {s : State} (hp : s.phase = .stepping) (hc : s.cnt ≠ 0) :
    coreStep s = afterAdvance (advance s) := by
  rw [coreStep, hp]
  exact if_neg hc

/-- With no run active its `Advance` runs the opcode fetched at CURSOR (41_run_modes.md R103). -/
theorem advance_of_fetch {s : State} {i : Instr} (hm : s.mode ≠ .pulse) (hr : s.rem = 0)
    (hf : fetchOpcode s s.cursor = .opcode i) : advance s = exec i s := by
  have hrun : runNextOpcode s = exec i s := by rw [runNextOpcode, hf]
  rw [advance_eq, advanceLoad_load hm hr, ← runNextOpcode_eq, hrun]

/-- And the pixel step ends in that opcode, then the count. -/
theorem afterAdvance_of_fetch {s : State} {i : Instr} (hm : s.mode ≠ .pulse) (hr : s.rem = 0)
    (hf : fetchOpcode s s.cursor = .opcode i) :
    ∃ t, exec i s = .next t ∧
      afterAdvance (advance s) =
        .next (if t.phase = .faulted then t else { t with cnt := t.cnt - 1 }) := by
  obtain ⟨t, ht⟩ := exec_next i s
  refine ⟨t, ht, ?_⟩
  rw [advance_of_fetch hm hr hf, ht]
  rfl

/-! ## The obligations -/

/-- Settles O14: the load of an END is the load from offset 0 (`loadEnd_restart`), but at program start. -/
theorem endRestarts : Obligations.EndRestarts := by
  intro len s
  refine ⟨fun h0 hlt i hf hne hsolid hgrad => ?_,
    fun h0 hlt => exec_endOp_raised len (loadEnd_start hlt h0),
    fun hlt l hf => exec_endOp_raised len ?_, fun hle => exec_endOp_raised len (loadEnd_noEnd hle)⟩
  · obtain ⟨ho, hl, -⟩ := fetchOpcode_opcode hf
    have hi : loadsRun i = true := (loadsRun_or_end ho).resolve_right fun ⟨l, hend⟩ => hne l hend
    have hx : indexOk s i := by
      cases i with
      | solid l idx => exact hsolid l idx rfl
      | gradient l idx d => exact hgrad l idx d rfl
      | gap | pulse | endOp | nop | init | render | advance => trivial
    have hload : loadEnd s = .loaded (loadedState i 0 s) :=
      (loadEnd_restart hlt h0).trans (loadFrom_loaded_iff.mpr ⟨i, hi, hf, hx, rfl⟩)
    have hend : exec (.endOp len) s = .next (loadedState i 0 s) :=
      exec_endOp_loaded len hload
    have hc := loadedState_control i 0 s
    refine ⟨hend.trans (exec_at_zero hi hl hx).symm, _, hend, hc.phase, hc.tx, ?_⟩
    rw [loadedState_cursor hi, Nat.zero_add]
  · by_cases h0 : s.cursor = 0
    · exact loadEnd_start hlt h0
    · exact (loadEnd_restart hlt h0).trans (loadFrom_opcode hf)

/-- Settles O15: the load is the one from `o` (`loadNext_eq_loadFrom`), where the class decides whether the
fetch, then the index check, raises. -/
theorem loadNextFaultsInOrder : Obligations.LoadNextFaultsInOrder := by
  intro s hp
  obtain ⟨hrest, hdata, -⟩ := settle_frame hp fun t => loadNext_control (t := t)
  refine ⟨_, runNextOpcode_eq s, fun hf => ⟨hdata hf, hrest⟩, fun hle => ?_, fun hlt o ho k hk => ?_⟩
  · rw [loadNext_noEnd hle]
    rfl
  · have hlo : o < s.plen := by
      rw [ho]
      split <;> omega
    rw [loadNext_eq_loadFrom hlt, show loadOffset s = o from ho.symm]
    subst hk
    refine ⟨fun hend => ?_, fun _ hshort => ?_, fun hidx hin hbig => ?_, fun hne hin hsmall => ?_⟩
    · rw [loadFrom_opcode (fetchOpcode_inside (by rw [hend]; exact hlo)), opcodeAt_endOp hend]
      rfl
    · rw [loadFrom_raised (fetchOpcode_truncated hlo hshort)]
      rfl
    · have hi : loadsRun (opcodeAt s o) = true := opcodeAt_loadsRun (by rcases hidx with h | h <;> simp [h])
      have hx : ¬ indexOk s (opcodeAt s o) := fun hok =>
        Nat.not_lt.mpr hbig ((indexOk_opcodeAt s o).mp hok hidx)
      rw [loadFrom_opcode (fetchOpcode_inside hin),
        loadAt_palIndex hi (by rw [opcodeAt_size]; omega) hx]
      rfl
    · have hi := opcodeAt_loadsRun hne
      rw [loadFrom_loaded_iff.mpr
        ⟨_, hi, fetchOpcode_inside hin, (indexOk_opcodeAt s o).mpr hsmall, rfl⟩, settle_loaded]
      exact ⟨(loadedState_control _ o s).phase, by
        rw [loadedState_cursor hi, opcodeAt_size]
        omega⟩

/-- Settles O16: each run opcode's load, read off `opcodeAt` for its class. -/
theorem loadNextReadsTheOpcodeBytes : Obligations.LoadNextReadsTheOpcodeBytes := by
  rintro s _ _ rfl rfl
  refine ⟨fun hk hl => ?_, fun hk hl hx => ?_, fun hk hl hx => ?_, fun hk hl => ?_⟩
  · rw [runNextOpcode_opcodeAt (by simp [hk]) (by rw [hk]; exact hl) (by simp [hk]), opcodeAt, hk]
    rfl
  · rw [runNextOpcode_opcodeAt (by simp [hk]) (by rw [hk]; exact hl) (fun _ => hx), opcodeAt, hk]
    rfl
  · rw [runNextOpcode_opcodeAt (by simp [hk]) (by rw [hk]; exact hl) (fun _ => hx), opcodeAt, hk]
    rfl
  · rw [runNextOpcode_opcodeAt (by simp [hk]) (by rw [hk]; exact hl) (by simp [hk]), opcodeAt, hk]
    rfl

/-- Settles O17: a fault keeps all but PHASE and the fault registers, a load writes data registers, and of
those D, S, E and DIR by `loadedState_owned`. -/
theorem opcodeFrame : Obligations.OpcodeFrame := by
  intro i s t ho hp he
  obtain rfl : (opcodeLoad i s).settle s = t := Host.Outcome.next.inj ((exec_opcode ho s).symm.trans he)
  obtain ⟨hrest, hdata, hloaded⟩ := settle_frame hp fun t h => (opcodeLoad_loaded (t := t) ho h).1
  refine ⟨hrest, hdata, fun hne => ?_⟩
  obtain ⟨hc, hown⟩ := opcodeLoad_loaded ho (hloaded hne)
  refine ⟨hc.fault, fun hend hpulse => ?_⟩
  rw [hown hend]
  exact loadedState_owned s.cursor s hpulse

/-- Settles O30: a turn is the fetch's fault, or the verdict on the opcode of the class
(`validateFrom_inside`). -/
theorem validateWalksTheProgram : Obligations.ValidateWalksTheProgram := by
  intro s verdict hv
  obtain rfl : verdict = validateFrom s (s.plen + 1) := funext hv
  refine ⟨rfl, ?_⟩
  rintro o _ rfl
  refine ⟨fun hle => ?_, fun hlt hk => ?_, fun hlt hshort => ?_, fun hl hk hx => ?_, fun hl hk => ?_,
    fun hl hk => ?_⟩
  · exact validateFrom_raised (fetchOpcode_noEnd hle)
  · rw [validateFrom_inside (by rw [hk]; exact hlt), opcodeAt_endOp hk]
    rfl
  · exact validateFrom_raised (fetchOpcode_truncated hlt hshort)
  · rw [validateFrom_inside hl]
    rcases hk with hk | hk <;> simp [opcodeAt, hk, validateOpcode, hx]
  · rw [validateFrom_inside hl]
    simp [opcodeAt, hk, validateOpcode]
  · rw [validateFrom_inside hl]
    rcases hk with hk | ⟨hk | hk, hx⟩
    · simp [opcodeAt, hk, validateOpcode]
    · simp [opcodeAt, hk, validateOpcode, Nat.not_le.mpr hx]
    · simp [opcodeAt, hk, validateOpcode, Nat.not_le.mpr hx]

/-- Settles O18: what the bytes decode to is what is fetched, and with no run active that is what the
`Advance` of the pixel step runs. -/
theorem stepRunsTheDecodedOpcode : Obligations.StepRunsTheDecodedOpcode := by
  intro s u i rest hh hcnt hm hr hlt hd hu
  have hf : fetchOpcode s s.cursor = .opcode i := fetchOpcode_of_decode hlt hd
  have hstep : step s = coreStep s := by rw [step, hh]
  rcases hu with ⟨hp, rfl⟩ | ⟨hp, rfl⟩
  · rw [hstep, coreStep_stepping hp hcnt]
    exact afterAdvance_of_fetch hm hr hf
  · have hf' : fetchOpcode (s.emit (.color s.cur)) s.cursor = .opcode i :=
      (fetchOpcode_congr (s := s) (t := s.emit (.color s.cur)) rfl rfl rfl _).trans hf
    rw [hstep, coreStep_rendering hp hcnt]
    exact afterAdvance_of_fetch (s := s.emit (.color s.cur)) hm hr hf'

end Sys2Proof.Machine
end

section
/-! The statements of the family 40_decoder.md about a bound program: a load from a state on the decode path
of a well-formed program raises nothing and stays on that path, INIT puts the core on it, and no step but a
reset or an INIT leaves it. -/

namespace Sys2Proof.Machine

/-! ## What `Bound` depends on -/

/-- `Bound` reads PROG, PLEN, the parameters, CURSOR and MODE, and asks of PHASE only that it be a running
one. -/
theorem Bound.congr {s t : State} (h : Bound s) (hr : t.phase.running = true) (hcfg : t.cfg = s.cfg)
    (hprog : t.prog = s.prog) (hplen : t.plen = s.plen) (hcur : t.cursor = s.cursor)
    (hmode : t.mode = s.mode) : Bound t where
  running := hr
  valid := (validate_congr hcfg hprog hplen).trans h.valid
  boundary := by
    rw [opcodeOffsets_congr hcfg hprog hplen, hplen, hcur]
    exact h.boundary
  tail := fun hm => by
    rw [validateFrom_congr hcfg hprog hplen, hplen, hcur]
    exact h.tail (hmode ▸ hm)

theorem Bound.not_faulted {s : State} (h : Bound s) : s.phase ≠ .faulted :=
  ne_faulted_of_running h.running

/-! ## Advances of a bound program -/

theorem runStep_cursor (s : State) : (runStep s).cursor = s.cursor := by
  unfold runStep
  split
  · rfl
  · rfl
  · rfl
  · obtain ⟨c, d, h⟩ := pulseStep_eq s
    rw [h]
    rfl

theorem runStep_mode (s : State) : (runStep s).mode = s.mode := by
  unfold runStep
  split
  · rfl
  · rfl
  · rfl
  · obtain ⟨c, d, h⟩ := pulseStep_eq s
    rw [h]
    rfl

/-- The load of a run at an opcode boundary from which the walk finds nothing wrong leaves CURSOR at the
next boundary, and the walk finds nothing wrong from there either, unless the run is a PULSE. -/
theorem bound_loadedState {s : State} (hr : s.phase.running = true) (hv : validate s = none) {i : Instr}
    {o : Nat} (hi : loadsRun i = true) (hf : fetchOpcode s o = .opcode i)
    (ho : o ∈ opcodeOffsets s (s.plen + 1) 0) (hw : validateFrom s (s.plen + 1) o = none) :
    Bound (loadedState i o s) := by
  have hc := loadedState_control i o s
  have hcur := loadedState_cursor hi o s
  refine ⟨hc.phase ▸ hr, (validate_congr hc.cfg hc.prog hc.plen).trans hv, ?_, fun hm => ?_⟩
  · rw [opcodeOffsets_congr hc.cfg hc.prog hc.plen, hc.plen, hcur]
    exact opcodeOffsets_next s hi hf _ _ (by omega) ho
  · rw [validateFrom_congr hc.cfg hc.prog hc.plen, hc.plen, hcur]
    obtain ⟨j, hfj, -, hj⟩ := validateFrom_none hw
    obtain rfl : i = j := Fetched.opcode.inj (hf.symm.trans hfj)
    rcases hj with ⟨l, rfl, -⟩ | ⟨-, ⟨l, st, d, en, rfl⟩ | hnext⟩
    · cases hi
    · exact absurd rfl hm
    · exact hnext

/-- An `Advance` of a bound program raises nothing and leaves it bound (40_decoder.md R95). -/
theorem Bound.advanceLoad {s : State} (h : Bound s) :
    ∃ t, advanceLoad s = .loaded t ∧ Bound t := by
  by_cases hrun : s.mode = .pulse ∨ s.rem ≠ 0
  · have hc := runStep_control s
    exact ⟨runStep s, advanceLoad_step hrun, h.congr (hc.phase ▸ h.running) hc.cfg hc.prog hc.plen
      (runStep_cursor s) (runStep_mode s)⟩
  · obtain ⟨hm, hrem⟩ := not_or.mp hrun
    obtain ⟨i, o, hi, hf, hl, hw, ho⟩ := loadNext_of_valid h.valid (h.tail hm)
    have hmem : o ∈ opcodeOffsets s (s.plen + 1) 0 := by
      rcases ho with rfl | rfl
      · exact h.boundary
      · exact opcodeOffsets_head s 0 (Nat.succ_pos _)
    exact ⟨_, (advanceLoad_load hm (not_not.mp hrem)).trans hl,
      bound_loadedState h.running h.valid hi hf hmem hw⟩

/-- With no run active it loads the run fetched at CURSOR. -/
theorem Bound.advanceLoad_at {s : State} (h : Bound s) (hm : s.mode ≠ .pulse) (hr : s.rem = 0)
    {i : Instr} (hi : loadsRun i = true) (hf : fetchOpcode s s.cursor = .opcode i) :
    Machine.advanceLoad s = .loaded (loadedState i s.cursor s) := by
  obtain ⟨j, hfj, hx, -⟩ := validateFrom_none (h.tail hm)
  obtain rfl : i = j := Fetched.opcode.inj (hf.symm.trans hfj)
  obtain ⟨ho, hl, -⟩ := fetchOpcode_opcode hf
  rw [advanceLoad_load hm hr, loadNext_eq, hf]
  exact (opcodeLoad_of_loadsRun hi s).trans (loadAt_loaded hi hl hx)

/-- A pixel step of a bound program: the `Advance`, then the count. -/
theorem Bound.pixelStep {s t : State} (h : Bound s)
    (ht : t = countDown ((Machine.advanceLoad s).settle s)) : Bound t ∧ t.faultCode = s.faultCode := by
  obtain ⟨u, hu, hb⟩ := h.advanceLoad
  rw [hu, settle_loaded, countDown_running hb.not_faulted] at ht
  subst ht
  exact ⟨hb.congr hb.running rfl rfl rfl rfl rfl, (advanceLoad_control hu).faultCode⟩

/-! ## Steps of a bound program -/

/-- The core's own step keeps a program bound: nothing, the end of a command, or a pixel step. -/
theorem Bound.coreStep {s t : State} (h : Bound s) (hs : coreStep s = .next t) :
    Bound t ∧ t.faultCode = s.faultCode := by
  rcases coreStep_cases hs with ⟨_, rfl⟩ | ⟨_, _, rfl⟩ | ⟨_, _, rfl⟩ | ⟨_, _, ht⟩ | ⟨_, _, ht⟩
  · exact ⟨h, rfl⟩
  · exact ⟨h.congr rfl rfl rfl rfl rfl rfl, rfl⟩
  · exact ⟨h.congr rfl rfl rfl rfl rfl rfl, rfl⟩
  · have he : Bound (s.emit (.color s.cur)) := h.congr h.running rfl rfl rfl rfl rfl
    exact he.pixelStep ht
  · exact h.pixelStep ht

/-- RENDER and ADVANCE keep a program bound: it is loaded, so they begin their work or wait. -/
theorem Bound.startWork {s : State} (h : Bound s) {p : Phase} (hp : p.running = true) (n : Nat) :
    Bound (startWork p n s) ∧ (startWork p n s).faultCode = s.faultCode := by
  rcases startWork_cases p n s with ⟨hu, _⟩ | ⟨_, e⟩ | e
  · have hr := h.running
    rw [hu] at hr
    cases hr
  · rw [e]
    exact ⟨h.congr hp rfl rfl rfl rfl rfl, rfl⟩
  · rw [e]
    exact ⟨h, rfl⟩

/-- A command other than INIT keeps a program bound. -/
theorem Bound.command {cfg : Config} {w : CommandWord} {s t : State} (h : Bound s)
    (hb : s.phase.busy = false) (he : exec (decodeCommand cfg w) s = .next t) :
    (Bound t ∧ t.faultCode = s.faultCode) ∨ ∃ p n, decodeCommand cfg w = .init p n := by
  rcases exec_decodeCommand_cases hb he with
    ⟨_, rfl⟩ | ⟨p, n, hd, _, _, _⟩ | ⟨_, rfl⟩ | ⟨k, _, _, rfl⟩
  · exact .inl ⟨h, rfl⟩
  · exact .inr ⟨p, n, hd⟩
  · exact .inl (h.startWork rfl s.npix)
  · exact .inl (h.startWork rfl k)

theorem Bound.setHost {s : State} (h : Bound s) (rest : List HostMove) : Bound (s.setHost rest) :=
  h.congr h.running rfl rfl rfl rfl rfl

/-! ## The program INIT binds -/

/-- The state whose `Advance` is what an accepted INIT does: the program latched and CURSOR at 0
(43_commands_frame.md R121), with no run active. -/
def launchState (plen npix : Nat) (s : State) : State :=
  { s.bindProgram plen npix with phase := .ready, mode := .gap, rem := 0, cursor := 0 }

/-- Where the operands and PROG are a well-formed program, it is bound before its first load. -/
theorem launchState_bound {plen npix : Nat} {s : State}
    (hv : validate (s.bindProgram plen npix) = none) : Bound (launchState plen npix s) := by
  have hv' : validate (launchState plen npix s) = none :=
    (validate_congr (s := s.bindProgram plen npix) (t := launchState plen npix s) rfl rfl rfl).trans hv
  exact ⟨rfl, hv', opcodeOffsets_head _ 0 (Nat.succ_pos _), fun _ => hv'⟩

/-- An INIT that ends READY left what an `Advance` makes of the bound launch state: the two loads write the
same registers, MODE, REM and CURSOR among them. -/
theorem exec_init_ready {plen npix : Nat} {s t : State} (hb : s.phase.busy = false)
    (he : exec (.init plen npix) s = .next t) (ht : t.phase = .ready) :
    Bound (launchState plen npix s) ∧ advanceLoad (launchState plen npix s) = .loaded t := by
  have hinit : initAccepted plen npix s = t := by
    rw [show exec (.init plen npix) s = execInit plen npix s from rfl, execInit_eq, hb] at he
    exact Host.Outcome.next.inj he
  rcases initAccepted_cases plen npix s with ⟨c, a, _, e⟩ | ⟨hv, i, hi, hf, e⟩
  · rw [← hinit, e] at ht
    cases ht
  · have hbound := launchState_bound hv
    refine ⟨hbound, ?_⟩
    have hf' : fetchOpcode (launchState plen npix s) 0 = .opcode i :=
      (fetchOpcode_congr (s := s.bindProgram plen npix) (t := launchState plen npix s)
        rfl rfl rfl 0).trans hf
    rw [hbound.advanceLoad_at (by simp [launchState]) rfl hi hf', ← hinit, e]
    cases i with
    | gap | solid | gradient | pulse => rfl
    | endOp | nop | init | render | advance => cases hi

/-! ## The obligations -/

/-- Settles O44: by cases over what a step can be; the core's own step and a command but INIT keep `Bound`,
and the writes are excluded. -/
theorem boundProgramNeverFaults : Obligations.BoundProgramNeverFaults := by
  intro s h hw
  obtain ⟨t, ht⟩ | ⟨-, -, ⟨off, b, rest, hh, -⟩ | ⟨addr, b, rest, hh, -⟩⟩ := step_cases s
  · have kept : Bound t ∧ t.faultCode = s.faultCode →
        Bound t ∧ t.phase ≠ .faulted ∧ t.faultCode = s.faultCode :=
      fun ⟨hb, hc⟩ => ⟨hb, hb.not_faulted, hc⟩
    refine ⟨t, ht, ?_⟩
    rcases step_next_cases ht with ⟨s', rfl | ⟨rest, _, rfl⟩, hc⟩ | ⟨rest, hh, _⟩ |
      ⟨hb, ⟨w, rest, hh, he⟩ | ⟨off, b, rest, hh, _, _⟩ | ⟨addr, b, rest, hh, _, _⟩⟩
    · exact .inl (kept (h.coreStep hc))
    · exact .inl (kept ((h.setHost rest).coreStep hc))
    · exact .inr (.inl ⟨rest, hh⟩)
    · rcases (h.setHost rest).command hb he with hk | ⟨p, n, hd⟩
      · exact .inl (kept hk)
      · exact .inr (.inr ⟨w, rest, p, n, hh, hb, hd⟩)
    · cases hw _ _ hh
    · cases hw _ _ hh
  · cases hw _ _ hh
  · cases hw _ _ hh

/-- Settles O43: an accepted INIT is an `Advance` of a bound state. -/
theorem acceptedInitIsBound : Obligations.AcceptedInitIsBound := by
  intro plen npix s t hb he hr
  obtain ⟨hbound, hload⟩ := exec_init_ready hb he hr
  obtain ⟨u, hu, hbu⟩ := hbound.advanceLoad
  cases hu.symm.trans hload
  exact hbu

end Sys2Proof.Machine
end

section
/-! The statement of the family 40_decoder.md about the period of a program (R98). A pass over the runs of a
program leads from the state before its first load to a state at its END in which only CUR, D, REM, MODE and
CURSOR can differ; the load after either is that of the opcode at 0, which leaves at most a D that nothing
reads (`DeltaAlike`), and advances keep that. -/

namespace Sys2Proof.Machine

/-! ## Inside a run -/

/-- A channel of a GRADIENT run, `m` steps in (41_run_modes.md R102). -/
def gradientChannel (c d : Byte) (m : Nat) : Byte := BitVec.ofInt 8 ((c.toNat : Int) + m * sext8 d)

theorem gradientChannel_zero (c d : Byte) : gradientChannel c d 0 = c := by
  simp [gradientChannel]

theorem gradientChannel_toNat (c d : Byte) (m : Nat) :
    ((gradientChannel c d m).toNat : Int) = ((c.toNat : Int) + m * sext8 d) % 256 := by
  rw [gradientChannel, BitVec.toNat_ofInt]
  omega

/-- One more step adds D once more, modulo 256. -/
theorem channelAdd_gradientChannel (c d : Byte) (m : Nat) :
    channelAdd (gradientChannel c d m) d = gradientChannel c d (m + 1) := by
  unfold gradientChannel
  rw [channelAdd_eq, sext8_eq_toInt]
  conv => lhs; rhs; rw [← BitVec.ofInt_toInt (x := d)]
  rw [← BitVec.ofInt_add]
  congr 1
  push_cast
  ring

/-- The colour `m` step parts into the run that is active. -/
def State.runColour (s : State) (m : Nat) : Colour :=
  match s.mode with
  | .gradient =>
    ⟨gradientChannel s.cur.r s.delta.r m, gradientChannel s.cur.g s.delta.g m,
      gradientChannel s.cur.b s.delta.b m⟩
  | .gap | .solid | .pulse => s.cur

/-- The state `m` step parts into the run that is active, a GAP, SOLID or GRADIENT. -/
def State.stepped (s : State) (m : Nat) : State :=
  (s.setCur (s.runColour m)).setRem (s.rem - BitVec.ofNat 6 m)

theorem stepped_zero (s : State) : s.stepped 0 = s := by
  have hcur : s.runColour 0 = s.cur := by
    unfold State.runColour
    split
    · simp only [gradientChannel_zero]
    · rfl
    · rfl
    · rfl
  rw [State.stepped, hcur]
  simp [State.setCur, State.setRem]

theorem runStep_stepped {s : State} (hm : s.mode ≠ .pulse) (m : Nat) :
    runStep (s.stepped m) = s.stepped (m + 1) := by
  have hrem : s.rem - BitVec.ofNat 6 m - 1 = s.rem - BitVec.ofNat 6 (m + 1) := by bv_omega
  have hmode : (s.stepped m).mode = s.mode := rfl
  unfold runStep
  rw [hmode]
  cases hk : s.mode with
  | gap => simp [stepGap, State.stepped, State.runColour, hk, State.setCur, State.setRem, ← hrem]
  | solid => simp [stepSolid, State.stepped, State.runColour, hk, State.setCur, State.setRem, ← hrem]
  | gradient =>
    simp [stepGradient, State.stepped, State.runColour, hk, State.setCur, State.setRem, ← hrem,
      Colour.addDelta, channelAdd_gradientChannel]
  | pulse => exact absurd hk hm

/-- As many advances as REM counts are step parts (41_run_modes.md R106). -/
theorem advanceN_stepped {s : State} (hm : s.mode ≠ .pulse) (hp : s.phase ≠ .faulted) {m : Nat}
    (h : m ≤ s.rem.toNat) : advanceN m s = some (s.stepped m) := by
  induction m with
  | zero => rw [stepped_zero]; rfl
  | succ m ih =>
    have hrem : (s.stepped m).rem ≠ 0 := by
      have hlt := s.rem.isLt
      show s.rem - BitVec.ofNat 6 m ≠ 0
      bv_omega
    rw [advanceN_add, ih (by omega), ← runStep_stepped hm]
    exact advanceN_succ (advanceLoad_step (.inr hrem)) hp rfl

/-! ## The opcodes that are runs -/

theorem runLength_pos {i : Instr} (hi : loadsRun i = true) (hp : ∀ l st d en, i ≠ .pulse l st d en) :
    0 < runLength i := by
  cases i with
  | gap | solid | gradient => exact Nat.succ_pos _
  | pulse l st d en => exact absurd rfl (hp l st d en)
  | endOp | nop | init | render | advance => cases hi

theorem loadsRun_of_runLength {i : Instr} (hi : 0 < runLength i) : loadsRun i = true := by
  cases i with
  | gap | solid | gradient => rfl
  | pulse | endOp | nop | init | render | advance => cases hi

/-- The load of a run of `n` pixels sets REM to `n - 1` and a mode that counts it. -/
theorem loadedState_run {i : Instr} (hi : 0 < runLength i) (o : Nat) (s : State) :
    (loadedState i o s).mode ≠ .pulse ∧ (loadedState i o s).rem.toNat + 1 = runLength i := by
  cases i with
  | gap | solid | gradient => exact ⟨Mode.noConfusion, rfl⟩
  | pulse | endOp | nop | init | render | advance => cases hi

/-- `m` steps after its load a run shows its `m`-th colour (41_run_modes.md R100 to R102). -/
theorem isRunColour_stepped {s v : State} (hpal : v.pal = s.pal) {i : Instr} (hi : 0 < runLength i)
    (o m : Nat) : isRunColour s ((loadedState i o v).stepped m).cur m i := by
  have hread : ∀ k, v.palRead k = s.palRead k := fun k => by simp only [State.palRead, hpal]
  cases i with
  | gap l => rfl
  | solid l idx => exact hread idx.toNat
  | gradient l idx d =>
    intro ch
    rw [← hread]
    cases ch
    · exact gradientChannel_toNat _ _ m
    · exact gradientChannel_toNat _ _ m
    · exact gradientChannel_toNat _ _ m
  | pulse | endOp | nop | init | render | advance => cases hi

/-! ## Between two runs -/

/-- `t` is a state of the program bound in `s` with no run active and CURSOR at `o`. -/
structure Between (s t : State) (o : Nat) : Prop where
  bound : Bound t
  control : SameControl s t
  mode : t.mode ≠ .pulse
  rem : t.rem = 0
  cursor : t.cursor = o

/-- Everything agrees but CUR, D, REM, MODE and CURSOR, the registers a GAP, SOLID or GRADIENT writes. -/
structure RunFrame (s t : State) : Prop where
  control : SameControl s t
  startBound : t.startBound = s.startBound
  endBound : t.endBound = s.endBound
  dir : t.dir = s.dir

theorem RunFrame.trans {s t u : State} (a : RunFrame s t) (b : RunFrame t u) : RunFrame s u :=
  ⟨a.control.trans b.control, b.startBound.trans a.startBound, b.endBound.trans a.endBound,
    b.dir.trans a.dir⟩

theorem RunFrame.eq {s t : State} (h : RunFrame s t) :
    ∃ c d r m o, t = { s with cur := c, delta := d, rem := r, mode := m, cursor := o } := by
  obtain ⟨⟨hcfg, hprog, hpal, hplen, hnpix, hcnt, hphase, hcode, haddr, htx, hhost⟩, hst, hen, hdir⟩ := h
  refine ⟨t.cur, t.delta, t.rem, t.mode, t.cursor, ?_⟩
  rw [← hcfg, ← hprog, ← hpal, ← hplen, ← hnpix, ← hcnt, ← hphase, ← hcode, ← haddr, ← htx, ← hhost, ← hst,
    ← hen, ← hdir]

theorem stepped_loadedState_frame {i : Instr} (hi : 0 < runLength i) (o m : Nat) (s : State) :
    RunFrame s ((loadedState i o s).stepped m) := by
  obtain ⟨hst, hen, hdir, -⟩ := loadedState_owned (i := i) o s (by rintro l st d en rfl; cases hi)
  have hc := loadedState_control i o s
  exact ⟨⟨hc.cfg, hc.prog, hc.pal, hc.plen, hc.npix, hc.cnt, hc.phase, hc.faultCode, hc.faultAddr, hc.tx,
    hc.host⟩, hst, hen, hdir⟩

/-- Any number of advances of a bound program raises nothing and leaves it bound. -/
theorem Bound.advanceN {s : State} (h : Bound s) (k : Nat) :
    ∃ t, advanceN k s = some t ∧ Bound t := by
  induction k generalizing s with
  | zero => exact ⟨s, rfl, h⟩
  | succ k ih =>
    obtain ⟨u, hu, hb⟩ := h.advanceLoad
    obtain ⟨t, ht, hbt⟩ := ih hb
    exact ⟨t, advanceN_succ hu h.not_faulted ht, hbt⟩

section
variable {s t : State} {o : Nat} (h : Between s t o)

include h

theorem Between.fetch (o' : Nat) : fetchOpcode t o' = fetchOpcode s o' :=
  fetchOpcode_congr h.control.cfg h.control.prog h.control.plen o'

/-- A run's load and its step parts: `m + 1` advances lead `m` steps into it. -/
theorem Between.run {i : Instr} (hi : 0 < runLength i) (hf : fetchOpcode s o = .opcode i) {m : Nat}
    (hm : m < runLength i) : Machine.advanceN (m + 1) t = some ((loadedState i o t).stepped m) := by
  obtain ⟨hmode, hrem⟩ := loadedState_run hi o t
  have hft : fetchOpcode t t.cursor = .opcode i := by rw [h.fetch, h.cursor, hf]
  have hload := h.bound.advanceLoad_at h.mode h.rem (loadsRun_of_runLength hi) hft
  rw [h.cursor] at hload
  refine advanceN_succ hload h.bound.not_faulted (advanceN_stepped hmode ?_ (by omega))
  rw [(loadedState_control i o t).phase]
  exact h.bound.not_faulted

/-- As many advances as a run is long lead past it. -/
theorem Between.next {i : Instr} (hi : 0 < runLength i) (hf : fetchOpcode s o = .opcode i) :
    ∃ q, Machine.advanceN (runLength i) t = some q ∧ Between s q (o + i.size) ∧ RunFrame t q := by
  obtain ⟨hmode, hrem⟩ := loadedState_run hi o t
  have hq := h.run hi hf (m := runLength i - 1) (by omega)
  rw [Nat.sub_add_cancel hi] at hq
  obtain ⟨q, hq', hbound⟩ := h.bound.advanceN (runLength i)
  obtain rfl := Option.some.inj (hq'.symm.trans hq)
  have hframe := stepped_loadedState_frame hi o (runLength i - 1) t
  refine ⟨_, hq, ⟨hbound, h.control.trans hframe.control, hmode, ?_,
    loadedState_cursor (loadsRun_of_runLength hi) o t⟩, hframe⟩
  show (loadedState i o t).rem - BitVec.ofNat 6 (runLength i - 1) = 0
  rw [← hrem]
  simp

/-- From the state before the first of a program's runs, the pixels of the first `j` of them lead to the
state before the run after those, or before the END. -/
theorem Between.afterRuns {f : Nat} {ops : List Instr} (hr : runsFrom s f o = some ops) {j : Nat}
    (hj : j ≤ ops.length) :
    ∃ q o' f', Machine.advanceN (totalLength (ops.take j)) t = some q ∧ Between s q o' ∧ RunFrame t q ∧
      runsFrom s f' o' = some (ops.drop j) := by
  induction j with
  | zero => exact ⟨t, o, f, rfl, h, ⟨SameControl.refl t, rfl, rfl, rfl⟩, hr⟩
  | succ j ih =>
    obtain ⟨q, o', f', hq, hbq, hframe, hrest⟩ := ih (by omega)
    obtain ⟨f'', -, ⟨hnil, -⟩ | ⟨i, rest, hcons, hi, hpulse, hf, hnext⟩⟩ := runsFrom_cases hrest
    · rw [List.drop_eq_nil_iff] at hnil
      omega
    · obtain ⟨q', hq', hbq', hframe'⟩ := hbq.next (runLength_pos hi hpulse) hf
      rw [List.drop_eq_getElem_cons hj] at hcons
      obtain ⟨hget, htail⟩ := List.cons.inj hcons
      refine ⟨q', o' + i.size, f'', ?_, hbq', hframe.trans hframe', by rw [htail]; exact hnext⟩
      have hlen : totalLength (ops.take (j + 1)) = totalLength (ops.take j) + runLength i := by
        rw [← List.take_append_getElem hj, totalLength, totalLength, hget]
        simp
      rw [hlen, advanceN_add, hq]
      exact hq'

/-- The colours of the `j`-th run are those after the pixels of the runs before it and its load. -/
theorem Between.inRun {f : Nat} {ops : List Instr} (hr : runsFrom s f o = some ops) {j m : Nat} {i : Instr}
    (hj : ops[j]? = some i) (hm : m < runLength i) :
    ∃ v o', v.pal = s.pal ∧
      Machine.advanceN (totalLength (ops.take j) + m + 1) t = some ((loadedState i o' v).stepped m) := by
  obtain ⟨hlt, rfl⟩ := List.getElem?_eq_some_iff.mp hj
  obtain ⟨q, o', f', hq, hbq, -, hrest⟩ := h.afterRuns hr (Nat.le_of_lt hlt)
  obtain ⟨f'', -, ⟨hnil, -⟩ | ⟨i, rest, hcons, -, -, hf, -⟩⟩ := runsFrom_cases hrest
  · rw [List.drop_eq_nil_iff] at hnil
    omega
  · rw [List.drop_eq_getElem_cons hlt] at hcons
    rw [← (List.cons.inj hcons).1] at hf
    refine ⟨q, o', hbq.control.pal, ?_⟩
    rw [Nat.add_assoc, advanceN_add, hq]
    exact hbq.run (by omega) hf hm

/-- Where the opcode at CURSOR is the one at 0, or END, the load is that of the opcode at 0. -/
theorem Between.load_start (h0 : loadOffset t = 0) :
    ∃ i, loadsRun i = true ∧ fetchOpcode s 0 = .opcode i ∧
      Machine.advanceLoad t = .loaded (loadedState i 0 t) := by
  obtain ⟨u, hu, -⟩ := h.bound.advanceLoad
  obtain ⟨-, i, hi, hf, -, rfl⟩ := loadNext_loaded_iff.mp ((advanceLoad_load h.mode h.rem).symm.trans hu)
  rw [h0] at hf hu
  exact ⟨i, hi, (h.fetch 0).symm.trans hf, hu⟩

end

/-! ## States that differ at most in a D that is not read -/

/-- GRADIENT and PULSE step by D (41_run_modes.md R102, 42_pulse.md R112). -/
def Mode.readsDelta : Mode → Bool
  | .gradient | .pulse => true
  | .gap | .solid => false

/-- The states are equal, but perhaps for D where the mode does not read it. -/
def DeltaAlike (s t : State) : Prop := t = s ∨ s.mode.readsDelta = false ∧ ∃ d, t = s.setDelta d

/-- Where MODE reads D, nothing differs. -/
theorem DeltaAlike.eq {s t : State} (h : DeltaAlike s t) (hm : s.mode.readsDelta = true) : t = s := by
  rcases h with rfl | ⟨hno, -⟩
  · rfl
  · rw [hm] at hno
    cases hno

/-- The load of one opcode writes over all that a run can have changed, D only where its mode reads it. -/
theorem deltaAlike_loadedState {s t : State} (h : RunFrame s t) {i : Instr} (hi : loadsRun i = true)
    (o : Nat) : DeltaAlike (loadedState i o s) (loadedState i o t) := by
  obtain ⟨c, d, r, m, p, rfl⟩ := h.eq
  cases i with
  | gap | solid => exact .inr ⟨rfl, d, rfl⟩
  | gradient | pulse => exact .inl rfl
  | endOp | nop | init | render | advance => cases hi

theorem runStep_setDelta {s : State} (hm : s.mode.readsDelta = false) (d : Colour) :
    runStep (s.setDelta d) = (runStep s).setDelta d := by
  unfold runStep
  rw [State.setDelta_mode]
  cases hk : s.mode with
  | gap | solid => rfl
  | gradient | pulse => rw [hk] at hm; cases hm

/-- An `Advance` keeps states alike. -/
theorem DeltaAlike.advanceLoad {s t u : State} (h : DeltaAlike s t)
    (hu : Machine.advanceLoad s = .loaded u) :
    ∃ v, Machine.advanceLoad t = .loaded v ∧ DeltaAlike u v := by
  rcases h with rfl | ⟨hno, d, rfl⟩
  · exact ⟨u, hu, .inl rfl⟩
  by_cases hrun : s.mode = .pulse ∨ s.rem ≠ 0
  · obtain rfl := LoadResult.loaded.inj ((advanceLoad_step hrun).symm.trans hu)
    exact ⟨_, advanceLoad_step (s := s.setDelta d) hrun,
      .inr ⟨by rw [runStep_mode]; exact hno, d, runStep_setDelta hno d⟩⟩
  · obtain ⟨hm, hr⟩ := not_or.mp hrun
    have hr := not_not.mp hr
    rw [advanceLoad_load hm hr] at hu
    obtain ⟨hlt, i, hi, hf, hx, rfl⟩ := loadNext_loaded_iff.mp hu
    have hf' : fetchOpcode (s.setDelta d) (loadOffset s) = .opcode i :=
      (fetchOpcode_congr (s := s) (t := s.setDelta d) rfl rfl rfl _).trans hf
    have hframe : RunFrame s (s.setDelta d) :=
      ⟨⟨rfl, rfl, rfl, rfl, rfl, rfl, rfl, rfl, rfl, rfl, rfl⟩, rfl, rfl, rfl⟩
    refine ⟨_, ?_, deltaAlike_loadedState hframe hi _⟩
    rw [advanceLoad_load (s := s.setDelta d) hm hr]
    exact loadNext_loaded_iff.mpr ⟨hlt, i, hi, hf', by cases i <;> exact hx, rfl⟩

theorem DeltaAlike.advanceN {s t u : State} (h : DeltaAlike s t) (hp : t.phase ≠ .faulted) {k : Nat}
    (hu : Machine.advanceN k s = some u) :
    ∃ v, Machine.advanceN k t = some v ∧ DeltaAlike u v := by
  induction k generalizing s t with
  | zero => cases hu; exact ⟨t, rfl, h⟩
  | succ k ih =>
    obtain ⟨s', hs', -, hu'⟩ := advanceN_split hu
    obtain ⟨t', ht', h'⟩ := h.advanceLoad hs'
    obtain ⟨v, hv, hlike⟩ := ih h' (by rw [(advanceLoad_control ht').phase]; exact hp) hu'
    exact ⟨v, advanceN_succ ht' hp hv, hlike⟩

/-! ## The period -/

/-- An advance that raises nothing, then the others. -/
theorem advanceN_after {s t : State} (h : advanceLoad s = .loaded t) (hp : s.phase ≠ .faulted) (k : Nat) :
    advanceN (k + 1) s = advanceN k t := by
  rw [advanceN, unfaulted_of_loaded h hp]
  rfl

theorem SameControl.symm {s t : State} (h : SameControl s t) : SameControl t s :=
  ⟨h.cfg.symm, h.prog.symm, h.pal.symm, h.plen.symm, h.npix.symm, h.cnt.symm, h.phase.symm,
    h.faultCode.symm, h.faultAddr.symm, h.tx.symm, h.host.symm⟩

/-- INIT's answer is the load that follows a state before the program's first run. -/
theorem exec_init_between {plen npix : Nat} {s0 s : State} (hb : s0.phase.busy = false)
    (he : exec (.init plen npix) s0 = .next s) (hr : s.phase = .ready) :
    ∃ u, Between s u 0 ∧ advanceLoad u = .loaded s := by
  obtain ⟨hbound, hload⟩ := exec_init_ready hb he hr
  exact ⟨_, ⟨hbound, (advanceLoad_control hload).symm, Mode.noConfusion, rfl, rfl⟩, hload⟩

section
variable {s u : State} (hu : Between s u 0) (hload : advanceLoad u = .loaded s)

include hu hload

/-- After one pass the program is where it began, but perhaps for a D that is not read. -/
theorem advanceN_totalLength {f : Nat} {ops : List Instr} (hr : runsFrom s f 0 = some ops) :
    ∃ r, advanceN (totalLength ops) s = some r ∧ DeltaAlike s r := by
  obtain ⟨q, o, f', hq, hbq, hframe, hrest⟩ := hu.afterRuns hr (Nat.le_refl _)
  rw [List.take_length] at hq
  obtain ⟨l, hend⟩ : ∃ l, fetchOpcode s o = .opcode (.endOp l) := by
    obtain ⟨-, -, ⟨-, hend⟩ | ⟨i, rest, hcons, -⟩⟩ := runsFrom_cases hrest
    · exact hend
    · rw [List.drop_length] at hcons
      cases hcons
  have hend' : fetchOpcode q q.cursor = .opcode (.endOp l) := by rw [hbq.fetch, hbq.cursor, hend]
  obtain ⟨i, hi, hf, hq'⟩ := hbq.load_start (if_pos ((fetchOpcode_class hend').1.mp ⟨l, rfl⟩))
  obtain ⟨j, -, hfj, hu'⟩ := hu.load_start (by rw [loadOffset, hu.cursor, ite_self])
  obtain rfl : i = j := Fetched.opcode.inj (hf.symm.trans hfj)
  obtain rfl := LoadResult.loaded.inj (hload.symm.trans hu')
  refine ⟨loadedState i 0 q, ?_, deltaAlike_loadedState hframe hi 0⟩
  rw [← advanceN_after hload hu.bound.not_faulted, advanceN_add, hq]
  exact advanceN_after hq' hbq.bound.not_faulted 0

/-- `m` advances after the runs before it, the state is `m` steps into the `j`-th run. -/
theorem advanceN_inRun {f : Nat} {ops : List Instr} (hr : runsFrom s f 0 = some ops) {j m : Nat} {i : Instr}
    (hj : ops[j]? = some i) (hm : m < runLength i) :
    ∃ v o, v.pal = s.pal ∧
      advanceN (totalLength (ops.take j) + m) s = some ((loadedState i o v).stepped m) := by
  obtain ⟨v, o, hpal, hv⟩ := hu.inRun hr hj hm
  exact ⟨v, o, hpal, (advanceN_after hload hu.bound.not_faulted _).symm.trans hv⟩

end

/-- From a moment on at which MODE reads D, alike states stay equal. -/
theorem DeltaAlike.advanceN_eq {s r w : State} (h : DeltaAlike s r) (hp : r.phase ≠ .faulted) {n k : Nat}
    (hw : Machine.advanceN n s = some w) (hm : w.mode.readsDelta = true) (hk : n ≤ k) :
    Machine.advanceN k r = Machine.advanceN k s := by
  obtain ⟨w', hw', hlike⟩ := h.advanceN hp hw
  obtain rfl := hlike.eq hm
  obtain ⟨e, rfl⟩ := Nat.exists_eq_add_of_le hk
  rw [advanceN_add, advanceN_add, hw, hw']

/-- The registers but D of states that are alike. -/
theorem DeltaAlike.registers {s t : State} (h : DeltaAlike s t) :
    t.cursor = s.cursor ∧ t.mode = s.mode ∧ t.rem = s.rem ∧ t.cur = s.cur ∧
      t.startBound = s.startBound ∧ t.endBound = s.endBound ∧ t.dir = s.dir := by
  rcases h with rfl | ⟨-, d, rfl⟩ <;> exact ⟨rfl, rfl, rfl, rfl, rfl, rfl, rfl⟩

/-! ## The obligation -/

/-- Settles O58: one pass leads to a state alike (`advanceN_totalLength`), alike states stay so, and equal
from a GRADIENT on; the colours are those of the steps into each run. -/
theorem programsArePeriodic : Obligations.ProgramsArePeriodic := by
  intro s0 s plen npix ops hb he hready hr
  obtain ⟨u, hu, hload⟩ := exec_init_between hb he hready
  obtain ⟨r, hpass, halike⟩ := advanceN_totalLength hu hload hr
  have hbound : Bound s := acceptedInitIsBound plen npix s0 s hb he hready
  have hp : r.phase ≠ .faulted := by
    rw [(advanceN_control hpass).phase]
    exact hbound.not_faulted
  refine ⟨fun k => ?_, fun j i m hj hm => ?_⟩
  · obtain ⟨t, ht, -⟩ := hbound.advanceN k
    obtain ⟨v, hv, hlike⟩ := halike.advanceN hp ht
    have hv' : advanceN (k + totalLength ops) s = some v := by
      rw [Nat.add_comm, advanceN_add, hpass]
      exact hv
    obtain ⟨hcursor, hmode, hrem, hcur, hst, hen, hdir⟩ := hlike.registers
    refine ⟨t, v, ht, hv', hcursor, hmode, hrem, hcur, hst, hen, hdir, fun j len idx d hj hk => ?_⟩
    obtain ⟨w, o, -, hw⟩ := advanceN_inRun hu hload hr hj (m := 0) (Nat.succ_pos _)
    have heq := halike.advanceN_eq hp hw rfl hk
    rw [Option.some.inj (hv.symm.trans (heq.trans ht))]
  · obtain ⟨v, o, hpal, hv⟩ := advanceN_inRun hu hload hr hj hm
    exact ⟨_, hv, isRunColour_stepped hpal (by omega) o m⟩

end Sys2Proof.Machine
end

section
/-! The statements of the family 41_run_modes.md: GAP, SOLID and GRADIENT. First the control byte as its two
fields side by side and what a run opcode at CURSOR answers, check by check; then what an `Advance` is while
REM counts and when it is 0, over the state `m` step parts into a run (`State.stepped`). -/

namespace Sys2Proof.Machine

/-! ## The load of a run opcode at CURSOR -/

/-- The control byte is M in front of L (30_encoding.md R71). -/
theorem append_eq_controlByte (m : BitVec 2) (l : BitVec 6) : m ++ l = controlByte m l := by
  revert m l; decide

section
variable {s : State} {i : Instr} (hi : loadsRun i = true)

include hi

theorem exec_of_loadAt_raised {c : FaultCode} {a : Nat} (h : loadAt i s.cursor s = .raised c a) :
    exec i s = .next (s.faultEntry c a) := by
  rw [exec_opcode (isOpcode_of_loadsRun hi), opcodeLoad_of_loadsRun hi, h, settle_raised]

theorem exec_noEnd (h : s.plen ≤ s.cursor) : exec i s = .next (s.faultEntry .noEnd s.cursor) := by
  have hsize := size_pos (isOpcode_of_loadsRun hi)
  refine exec_of_loadAt_raised hi ?_
  rcases loadAt_cases hi s.cursor s with ⟨_, e⟩ | ⟨_, _, _⟩ | ⟨_, _, _⟩ | ⟨_, _, _⟩
  · exact e
  all_goals omega

theorem exec_truncated (h : s.cursor < s.plen) (ht : s.plen < s.cursor + i.size) :
    exec i s = .next (s.faultEntry .truncated s.cursor) := by
  refine exec_of_loadAt_raised hi ?_
  rcases loadAt_cases hi s.cursor s with ⟨_, _⟩ | ⟨_, _, e⟩ | ⟨_, _, _⟩ | ⟨_, _, _⟩
  · omega
  · exact e
  all_goals omega

theorem exec_palIndex (hl : s.cursor + i.size ≤ s.plen) (hx : ¬ indexOk s i) :
    exec i s = .next (s.faultEntry .palIndex (s.cursor + 1)) :=
  exec_of_loadAt_raised hi (loadAt_palIndex hi hl hx)

theorem exec_loaded (hl : s.cursor + i.size ≤ s.plen) (hx : indexOk s i) :
    exec i s = .next (loadedState i s.cursor s) := by
  rw [exec_opcode (isOpcode_of_loadsRun hi), opcodeLoad_of_loadsRun hi, loadAt_loaded hi hl hx,
    settle_loaded]

end

/-! ## An advance while a run is active, and after it -/

/-- The colour of a run stays, but in GRADIENT (41_run_modes.md R100, R101). -/
theorem runColour_constant {s : State} (h : s.mode ≠ .gradient) (m : Nat) : s.runColour m = s.cur := by
  unfold State.runColour
  split
  · exact absurd ‹_› h
  all_goals rfl

theorem runColour_gradient {s : State} (h : s.mode = .gradient) (m : Nat) (ch : Channel) :
    (((s.runColour m).channel ch).toNat : Int) =
      (((s.cur.channel ch).toNat : Int) + m * sext8 (s.delta.channel ch)) % 256 := by
  unfold State.runColour
  rw [h]
  cases ch
  · exact gradientChannel_toNat _ _ m
  · exact gradientChannel_toNat _ _ m
  · exact gradientChannel_toNat _ _ m

/-- While REM counts, an advance writes the run's next colour and REM (41_run_modes.md R103). -/
theorem advance_counting {s : State} (hm : s.mode ≠ .pulse) (hr : s.rem ≠ 0) :
    advance s = .next { s with cur := s.runColour 1, rem := s.rem - 1 } := by
  have hstep : runStep s = s.stepped 1 := by simpa only [stepped_zero] using runStep_stepped hm 0
  rw [advance_eq, advanceLoad_step (.inr hr), settle_loaded, hstep]
  rfl

/-- And in GAP and SOLID the colour is the one it was. -/
theorem advance_constant {s : State} (hm : s.mode ≠ .pulse) (hg : s.mode ≠ .gradient) (hr : s.rem ≠ 0) :
    advance s = .next { s with rem := s.rem - 1 } := by
  rw [advance_counting hm hr, runColour_constant hg]

/-- With REM 0 an advance is the next `LoadNext` (41_run_modes.md R103). -/
theorem advance_runOver {s : State} (hm : s.mode ≠ .pulse) (hr : s.rem = 0) :
    advance s = runNextOpcode s := by
  rw [advance_eq, advanceLoad_load hm hr, runNextOpcode_eq]

theorem stepped_rem_toNat {s : State} {m : Nat} (h : m ≤ s.rem.toNat) :
    (s.stepped m).rem.toNat = s.rem.toNat - m := by
  have hlt := s.rem.isLt
  show (s.rem - BitVec.ofNat 6 m).toNat = s.rem.toNat - m
  bv_omega

theorem stepped_rem_eq_zero_iff {s : State} {m : Nat} (h : m ≤ s.rem.toNat) :
    (s.stepped m).rem = 0 ↔ m = s.rem.toNat := by
  rw [← BitVec.toNat_inj, stepped_rem_toNat h]
  show s.rem.toNat - m = 0 ↔ m = s.rem.toNat
  omega

/-- The `k`-th colour of a run of more than `k` pixels, from its load on (41_run_modes.md R100 to R102,
R106). -/
theorem exec_runColour {s : State} {i : Instr} (hi : 0 < runLength i) (hl : s.cursor + i.size ≤ s.plen)
    (hx : indexOk s i) (hp : s.phase ≠ .faulted) {k : Nat} (hk : k < runLength i) :
    ∃ t u, exec i s = .next t ∧ advanceN k t = some u ∧ u.mode = (loadedState i s.cursor s).mode ∧
      isRunColour s u.cur k i := by
  obtain ⟨hmode, hrem⟩ := loadedState_run hi s.cursor s
  have hphase := (loadedState_control i s.cursor s).phase
  have hsteps := advanceN_stepped hmode (hphase.trans_ne hp) (m := k) (by omega)
  exact ⟨_, _, exec_loaded (loadsRun_of_runLength hi) hl hx, hsteps, rfl,
    isRunColour_stepped rfl hi s.cursor k⟩

/-! ## The obligations -/

/-- Settles O10: the load by its checks, the step by `advance_constant`, the colours by `exec_runColour`. -/
theorem gapRule : Obligations.GapRule := by
  intro len s
  refine ⟨fun rest => ?_, fun hl => exec_loaded rfl hl trivial, exec_noEnd rfl, fun hm hr => ?_,
    fun hm hr => advance_runOver (by simp [hm]) hr, fun hl hp k hk => ?_⟩
  · rw [append_eq_controlByte]
    exact decodeProgram_gap s.cfg len rest
  · exact advance_constant (by simp [hm]) (by simp [hm]) hr
  · exact exec_runColour (i := .gap len) (Nat.succ_pos _) hl trivial hp (Nat.lt_succ_of_le hk)

/-- Settles O11: the load by its checks, the step by `advance_constant`, the colours by `exec_runColour`. -/
theorem solidRule : Obligations.SolidRule := by
  intro len idx s
  refine ⟨fun rest => ?_, fun hl hx => exec_loaded rfl hl hx, exec_noEnd rfl,
    fun h ht => exec_truncated rfl h ht, fun hl hx => exec_palIndex rfl hl (Nat.not_lt.mpr hx),
    fun hm hr => ?_, fun hm hr => advance_runOver (by simp [hm]) hr, fun hl hx hp k hk => ?_⟩
  · rw [append_eq_controlByte]
    exact decodeProgram_solid s.cfg len idx rest
  · exact advance_constant (by simp [hm]) (by simp [hm]) hr
  · exact exec_runColour (i := .solid len idx) (Nat.succ_pos _) hl hx hp (Nat.lt_succ_of_le hk)

/-- Settles O12: the load by its checks, the step by `advance_counting`, the colours by `exec_runColour`. -/
theorem gradientRule : Obligations.GradientRule := by
  intro len idx d s
  refine ⟨fun rest => ?_, fun hl hx => exec_loaded rfl hl hx, exec_noEnd rfl,
    fun h ht => exec_truncated rfl h ht, fun hl hx => exec_palIndex rfl hl (Nat.not_lt.mpr hx),
    fun hm hr => ?_, fun hm hr => advance_runOver (by simp [hm]) hr, fun hl hx hp k hk => ?_⟩
  · rw [append_eq_controlByte]
    exact decodeProgram_gradient s.cfg len idx d rest
  · refine ⟨s.runColour 1, advance_counting (by simp [hm]) hr, fun ch => ?_⟩
    simpa using runColour_gradient hm 1 ch
  · exact exec_runColour (i := .gradient len idx d) (Nat.succ_pos _) hl hx hp (Nat.lt_succ_of_le hk)

/-- Settles O20: `k` advances on the state is `k` step parts into the run, and REM says which way the next
advance goes. -/
theorem runLengthLaw : Obligations.RunLengthLaw := by
  intro s hm hp k hk
  have hzero := stepped_rem_eq_zero_iff hk
  refine ⟨s.stepped k, advanceN_stepped hm hp hk, rfl, rfl, stepped_rem_toNat hk, fun hlt => ?_,
    fun heq => advance_runOver hm (hzero.mpr heq)⟩
  exact ⟨_, advance_counting hm (mt hzero.mp hlt.ne), rfl, rfl⟩

end Sys2Proof.Machine
end

section
/-! The statements of the family 42_pulse.md. First what an oscillator step stores, by whether some channel has
crossed; then advances of a PULSE, which are iterates of `pulseStep`; then one leg of the oscillation, from the
bound CUR stands on to the bound DIR points to, which the period (R116 (e)) runs twice. -/

namespace Sys2Proof.Machine

/-! ## The candidate -/

/-- What a step adds to a channel: its signed delta, negated in reverse (42_pulse.md R112). -/
def State.velocity (s : State) (ch : Channel) : Int :=
  match s.dir with
  | .forward => sext8 (s.delta.channel ch)
  | .reverse => -sext8 (s.delta.channel ch)

theorem velocity_forward {s : State} (h : s.dir = .forward) (ch : Channel) :
    s.velocity ch = sext8 (s.delta.channel ch) := by
  rw [State.velocity, h]

theorem velocity_reverse {s : State} (h : s.dir = .reverse) (ch : Channel) :
    s.velocity ch = -sext8 (s.delta.channel ch) := by
  rw [State.velocity, h]

theorem candidate_eq (s : State) (ch : Channel) :
    s.candidate ch = ((s.cur.channel ch).toNat : Int) + s.velocity ch := by
  unfold State.candidate State.velocity candidate
  cases s.dir
  · rfl
  · exact Int.sub_eq_add_neg

theorem sext8_eq_zero_iff (b : Byte) : sext8 b = 0 ↔ b = 0 := by
  rw [sext8_eq_toInt, ← BitVec.toInt_zero (w := 8), BitVec.toInt_inj]
  exact Iff.rfl

theorem velocity_eq_zero_iff (s : State) (ch : Channel) :
    s.velocity ch = 0 ↔ s.delta.channel ch = 0 := by
  rw [← sext8_eq_zero_iff]
  unfold State.velocity
  cases s.dir
  · exact Iff.rfl
  · exact Int.neg_eq_zero

/-! ## The crossing test -/

theorem crossed_iff (x : Int) (st en : Byte) :
    crossed x st en = true ↔ x > max (st.toNat : Int) en.toNat ∨ x < min (st.toNat : Int) en.toNat := by
  simp [crossed]

/-- The interval between the bounds does not depend on which of them is the start (42_pulse.md R113). -/
theorem crossed_comm (x : Int) (st en : Byte) : crossed x st en = crossed x en st := by
  rw [crossed, crossed, max_comm, min_comm]

/-- From one bound toward the other, a channel crosses when it has moved by more than the interval's length. -/
theorem crossed_add_iff {a b : Byte} {w : Int} (h : 0 ≤ w * ((b.toNat : Int) - a.toNat)) :
    crossed (a.toNat + w) a b = true ↔ ((b.toNat : Int) - a.toNat).natAbs < w.natAbs := by
  rw [crossed_iff]
  rcases lt_trichotomy w 0 with hw | rfl | hw
  · have hab : (b.toNat : Int) - a.toNat ≤ 0 := nonpos_of_mul_nonneg_right h hw
    omega
  · omega
  · have hab : 0 ≤ (b.toNat : Int) - a.toNat := nonneg_of_mul_nonneg_right h hw
    omega

theorem reverses_iff (s : State) : s.reverses = true ↔ ∃ ch, s.channelCrossed ch = true := by
  constructor
  · intro h
    by_contra hnone
    have hch : ∀ ch, s.channelCrossed ch = false := fun ch =>
      Bool.eq_false_iff.mpr fun hc => hnone ⟨ch, hc⟩
    simp [State.reverses, hch] at h
  · rintro ⟨ch, hch⟩
    by_contra hr
    exact absurd hch (by simp [reverses_eq_false (Bool.eq_false_iff.mpr hr) ch])

/-! ## The oscillator step -/

theorem pulseStep_of_crossed {s : State} {ch : Channel} (h : s.channelCrossed ch = true) :
    pulseStep s = (s.setCur s.clampTarget).setDir s.dir.flip :=
  if_pos ((reverses_iff s).mpr ⟨ch, h⟩)

/-- With no crossing the candidates are stored as they are (42_pulse.md R114). -/
theorem pulseStep_of_not_crossed {s : State} (h : ∀ ch, s.channelCrossed ch = false) :
    ∃ c, pulseStep s = s.setCur c ∧ ∀ ch, ((c.channel ch).toNat : Int) = s.candidate ch := by
  rcases pulseStep_cases s with ⟨hr, _⟩ | ⟨_, e⟩
  · obtain ⟨ch, hch⟩ := (reverses_iff s).mp hr
    exact absurd hch (by simp [h ch])
  · refine ⟨s.candidateColour, e, fun ch => ?_⟩
    rw [candidateColour_channel]
    exact (within_of_not_crossed (h ch)).1

/-- REM is not read by the oscillator (42_pulse.md R110). -/
theorem pulseStep_setRem (s : State) (r : BitVec 6) : pulseStep (s.setRem r) = (pulseStep s).setRem r := by
  have hr : (s.setRem r).reverses = s.reverses := rfl
  rw [pulseStep, pulseStep, hr]
  split <;> rfl

theorem Colour.ext_channel {a b : Colour} (h : ∀ ch, a.channel ch = b.channel ch) : a = b := by
  cases a
  cases b
  rw [Colour.mk.injEq]
  exact ⟨h .r, h .g, h .b⟩

/-- With all deltas 0 a colour between the bounds stays (42_pulse.md R116 (f)). -/
theorem pulseStep_of_still {s : State} (hd : ∀ ch, s.delta.channel ch = 0) (hw : s.curWithin) :
    pulseStep s = s := by
  have hcand : ∀ ch, s.candidate ch = (s.cur.channel ch).toNat := fun ch => by
    rw [candidate_eq, (velocity_eq_zero_iff s ch).mpr (hd ch), add_zero]
  have hnone : ∀ ch, s.channelCrossed ch = false := fun ch => by
    obtain ⟨hlow, hhigh⟩ := hw ch
    rw [State.channelCrossed, not_crossed_iff, hcand]
    omega
  obtain ⟨c, e, hc⟩ := pulseStep_of_not_crossed hnone
  have hcur : c = s.cur := Colour.ext_channel fun ch =>
    BitVec.eq_of_toNat_eq (Int.ofNat_inj.mp ((hc ch).trans (hcand ch)))
  rw [e, hcur]
  rfl

/-! ## Advances of a PULSE -/

theorem advanceLoad_pulse {s : State} (hm : s.mode = .pulse) : advanceLoad s = .loaded (pulseStep s) := by
  rw [advanceLoad_step (.inl hm), runStep, hm]

/-- While MODE is PULSE an advance is an oscillator step, whatever REM holds (42_pulse.md R110). -/
theorem advance_pulse {s : State} (hm : s.mode = .pulse) : advance s = .next (pulseStep s) := by
  rw [advance_eq, advanceLoad_pulse hm, settle_loaded]

/-- And so it is for any number of advances: a PULSE never ends (42_pulse.md R115). -/
theorem advanceN_pulse {s : State} (hm : s.mode = .pulse) (hp : s.phase ≠ .faulted) (n : Nat) :
    advanceN n s = some (pulseStep^[n] s) := by
  induction n generalizing s with
  | zero => rfl
  | succ n ih =>
    obtain ⟨c, d, e⟩ := pulseStep_eq s
    refine advanceN_succ (advanceLoad_pulse hm) hp ?_
    exact ih (by rw [e]; exact hm) (by rw [e]; exact hp)

/-- Any number of oscillator steps writes CUR and DIR only. -/
theorem iterate_pulseStep_eq (s : State) (n : Nat) : ∃ c d, pulseStep^[n] s = (s.setCur c).setDir d := by
  induction n with
  | zero => exact ⟨s.cur, s.dir, rfl⟩
  | succ n ih =>
    obtain ⟨c, d, e⟩ := ih
    obtain ⟨c', d', e'⟩ := pulseStep_eq ((s.setCur c).setDir d)
    exact ⟨c', d', by rw [Function.iterate_succ_apply', e, e']; rfl⟩

theorem iterate_pulseStep_curWithin {s : State} (h : s.curWithin) (n : Nat) :
    (pulseStep^[n] s).curWithin := by
  cases n with
  | zero => exact h
  | succ n =>
    rw [Function.iterate_succ_apply']
    exact pulseStep_curWithin _

/-! ## Steps of the machine while a PULSE runs -/

/-- The registers a PULSE keeps while it runs: all its data registers but CUR and DIR
(42_pulse.md R115). -/
structure SameRun (s t : State) : Prop where
  mode : t.mode = s.mode
  cursor : t.cursor = s.cursor
  rem : t.rem = s.rem
  startBound : t.startBound = s.startBound
  endBound : t.endBound = s.endBound
  delta : t.delta = s.delta

theorem SameData.sameRun {s t : State} (h : SameData s t) : SameRun s t :=
  ⟨h.mode, h.cursor, h.rem, h.startBound, h.endBound, h.delta⟩

/-- The `Advance` of a pixel step and its count. -/
theorem countDown_advance_sameRun {s : State} (hm : s.mode = .pulse) :
    SameRun s (countDown ((advanceLoad s).settle s)) := by
  obtain ⟨c, d, e⟩ := pulseStep_eq s
  rw [advanceLoad_pulse hm, settle_loaded, e, countDown]
  split <;> exact ⟨rfl, rfl, rfl, rfl, rfl, rfl⟩

theorem coreStep_sameRun {s t : State} (hm : s.mode = .pulse) (h : coreStep s = .next t) : SameRun s t := by
  rcases coreStep_cases h with ⟨_, rfl⟩ | ⟨_, _, rfl⟩ | ⟨_, _, rfl⟩ | ⟨_, _, rfl⟩ | ⟨_, _, rfl⟩
  · exact ⟨rfl, rfl, rfl, rfl, rfl, rfl⟩
  · exact ⟨rfl, rfl, rfl, rfl, rfl, rfl⟩
  · exact ⟨rfl, rfl, rfl, rfl, rfl, rfl⟩
  · obtain ⟨hmode, hcursor, hrem, hst, hen, hd⟩ :=
      countDown_advance_sameRun (s := s.emit (.color s.cur)) hm
    exact ⟨hmode, hcursor, hrem, hst, hen, hd⟩
  · exact countDown_advance_sameRun hm

/-- The one command that writes data registers is INIT (43_commands_frame.md R121, R129). -/
theorem exec_decodeCommand_sameRun {cfg : Config} {w : CommandWord} {u t : State}
    (hb : u.phase.busy = false) (h : exec (decodeCommand cfg w) u = .next t) :
    SameRun u t ∨ ∃ p n, decodeCommand cfg w = .init p n := by
  rcases exec_decodeCommand_cases hb h with
    ⟨_, rfl⟩ | ⟨p, n, hd, _⟩ | ⟨_, rfl⟩ | ⟨k, _, _, rfl⟩
  · exact .inl ⟨rfl, rfl, rfl, rfl, rfl, rfl⟩
  · exact .inr ⟨p, n, hd⟩
  · obtain ⟨hdata, -⟩ := startWork_frame .rendering u.npix u
    exact .inl hdata.sameRun
  · obtain ⟨hdata, -⟩ := startWork_frame .stepping k u
    exact .inl hdata.sameRun

/-- A step while a PULSE runs keeps it, or is a reset, or an INIT of a core that is not busy. -/
theorem step_pulse_cases {s t : State} (hm : s.mode = .pulse) (h : step s = .next t) :
    SameRun s t ∨ (∃ rest, s.host = .reset :: rest) ∨
      ∃ w rest plen npix, s.host = .command w :: rest ∧ s.phase.busy = false ∧
        decodeCommand s.cfg w = .init plen npix := by
  rcases step_next_cases h with ⟨s', rfl | ⟨rest, _, rfl⟩, hc⟩ | ⟨rest, hh, _⟩ |
    ⟨hb, ⟨w, rest, hh, he⟩ | ⟨off, b, rest, _, _, rfl⟩ | ⟨addr, b, rest, _, _, rfl⟩⟩
  · exact .inl (coreStep_sameRun hm hc)
  · obtain ⟨hmode, hcursor, hrem, hst, hen, hd⟩ := coreStep_sameRun (s := s.setHost rest) hm hc
    exact .inl ⟨hmode, hcursor, hrem, hst, hen, hd⟩
  · exact .inr (.inl ⟨rest, hh⟩)
  · rcases exec_decodeCommand_sameRun (u := s.setHost rest) hb he with hsame | ⟨p, n, hd⟩
    · obtain ⟨hmode, hcursor, hrem, hst, hen, hd⟩ := hsame
      exact .inl ⟨hmode, hcursor, hrem, hst, hen, hd⟩
    · exact .inr (.inr ⟨w, rest, p, n, hh, hb, hd⟩)
  · exact .inl ⟨rfl, rfl, rfl, rfl, rfl, rfl⟩
  · exact .inl ⟨rfl, rfl, rfl, rfl, rfl, rfl⟩

/-! ## One leg of the oscillation -/

/-- The bound a channel comes from, by DIR: the other one than `clampTarget`. -/
def State.clampOrigin (s : State) : Colour :=
  match s.dir with
  | .forward => s.startBound
  | .reverse => s.endBound

/-- Every channel's delta leads from its start bound toward its end bound, `m` steps from bound to bound stay
between them on every channel, and one step more leaves them on some channel (42_pulse.md R116 (e)). -/
structure FreeSteps (s : State) (m : Nat) : Prop where
  toward : ∀ ch, 0 ≤ sext8 (s.delta.channel ch) *
    (((s.endBound.channel ch).toNat : Int) - (s.startBound.channel ch).toNat)
  fits : ∀ ch, m * (sext8 (s.delta.channel ch)).natAbs ≤
    (((s.endBound.channel ch).toNat : Int) - (s.startBound.channel ch).toNat).natAbs
  exceeds : ∃ ch, (((s.endBound.channel ch).toNat : Int) - (s.startBound.channel ch).toNat).natAbs <
    (m + 1) * (sext8 (s.delta.channel ch)).natAbs

/-- `k` steps after the bound it came from, in either direction, a channel crosses iff the next step moves it
past the interval's length. -/
theorem channelCrossed_iff {s : State} {ch : Channel} {k : Nat}
    (h : 0 ≤ sext8 (s.delta.channel ch) *
      (((s.endBound.channel ch).toNat : Int) - (s.startBound.channel ch).toNat))
    (hcur : ((s.cur.channel ch).toNat : Int) = (s.clampOrigin.channel ch).toNat + k * s.velocity ch) :
    s.channelCrossed ch = true ↔
      (((s.endBound.channel ch).toNat : Int) - (s.startBound.channel ch).toNat).natAbs <
        (k + 1) * (sext8 (s.delta.channel ch)).natAbs := by
  have hcand : s.candidate ch = (s.clampOrigin.channel ch).toNat + (k + 1 : Nat) * s.velocity ch := by
    rw [candidate_eq, hcur]
    push_cast
    ring
  have hk : 0 ≤ ((k + 1 : Nat) : Int) := Int.natCast_nonneg _
  rw [State.channelCrossed, hcand]
  cases hdir : s.dir with
  | forward =>
    rw [velocity_forward hdir, State.clampOrigin, hdir]
    dsimp only
    rw [crossed_add_iff (by rw [mul_assoc]; exact mul_nonneg hk h), Int.natAbs_mul, Int.natAbs_natCast]
  | reverse =>
    rw [velocity_reverse hdir, State.clampOrigin, hdir, crossed_comm]
    dsimp only
    rw [crossed_add_iff (by rw [mul_assoc, neg_mul, ← mul_neg, neg_sub]; exact mul_nonneg hk h),
      Int.natAbs_mul, Int.natAbs_natCast, Int.natAbs_neg, ← Int.natAbs_neg (_ - _), neg_sub]

section
variable {s : State} {m : Nat} (h : FreeSteps s m) (hcur : s.cur = s.clampOrigin)

include h hcur

/-- For `m` steps the channels move on from the bound in steps of their velocity. -/
theorem iterate_pulseStep_free {k : Nat} (hk : k ≤ m) :
    ∃ c, pulseStep^[k] s = s.setCur c ∧ ∀ ch,
      ((c.channel ch).toNat : Int) = (s.clampOrigin.channel ch).toNat + k * s.velocity ch := by
  induction k with
  | zero => exact ⟨s.cur, rfl, fun ch => by simp [hcur]⟩
  | succ k ih =>
    obtain ⟨c, e, hc⟩ := ih (by omega)
    have hnone : ∀ ch, (s.setCur c).channelCrossed ch = false := fun ch => by
      rw [Bool.eq_false_iff, ne_eq, channelCrossed_iff (s := s.setCur c) (h.toward ch) (hc ch), not_lt]
      exact (Nat.mul_le_mul_right _ hk).trans (h.fits ch)
    obtain ⟨c', e', hc'⟩ := pulseStep_of_not_crossed hnone
    refine ⟨c', by rw [Function.iterate_succ_apply', e, e']; rfl, fun ch => ?_⟩
    have hvel : (s.setCur c).velocity ch = s.velocity ch := rfl
    rw [hc', candidate_eq, hvel, State.setCur_cur, hc]
    push_cast
    ring

/-- The step after them reverses, at the bound ahead. -/
theorem iterate_pulseStep_leg :
    pulseStep^[m + 1] s = (s.setCur s.clampTarget).setDir s.dir.flip := by
  obtain ⟨c, e, hc⟩ := iterate_pulseStep_free h hcur le_rfl
  obtain ⟨ch, hch⟩ := h.exceeds
  have hcross : (s.setCur c).channelCrossed ch = true :=
    (channelCrossed_iff (s := s.setCur c) (h.toward ch) (hc ch)).mpr hch
  rw [Function.iterate_succ_apply', e, pulseStep_of_crossed hcross]
  rfl

end

/-! ## The obligations -/

/-- Settles O24: the load puts CUR on its start bound, an oscillator step leaves it within the bounds, and with
all deltas 0 the load's state is a fixed point. -/
theorem pulseStaysWithinBounds : Obligations.PulseStaysWithinBounds := by
  intro len st d en s hl hp
  have hwithin : (loadedState (.pulse len st d en) s.cursor s).curWithin := fun _ => within_start _ _
  have hsteps := advanceN_pulse (s := loadedState (.pulse len st d en) s.cursor s) rfl hp
  refine ⟨_, exec_loaded rfl hl trivial, fun n =>
    ⟨_, hsteps n, iterate_pulseStep_curWithin hwithin n, ?_⟩⟩
  rintro rfl
  rw [Function.iterate_fixed (pulseStep_of_still (fun ch => by cases ch <;> rfl) hwithin)]
  exact ⟨rfl, rfl⟩

/-- Settles O25: advances are oscillator steps, which write CUR and DIR only; the machine by
`step_pulse_cases`. -/
theorem pulseNeverCompletes : Obligations.PulseNeverCompletes := by
  refine ⟨fun s hm hp n => ⟨_, advanceN_pulse hm hp n, ?_⟩, fun s t hm hs => ?_⟩
  · obtain ⟨c, d, e⟩ := iterate_pulseStep_eq s n
    rw [e]
    exact ⟨hm, rfl, rfl, rfl, rfl, rfl⟩
  · refine (step_pulse_cases hm hs).imp_left fun hsame => ?_
    exact ⟨hsame.mode.trans hm, hsame.cursor, hsame.rem, hsame.startBound, hsame.endBound, hsame.delta⟩

/-- Settles O26: one leg forward ends at the end bound in reverse, and one leg back in the state it began. The
premise that a still channel has equal bounds is not used: the clamp carries such a channel along too. -/
theorem pulsePeriod : Obligations.PulsePeriod := by
  intro s m hm hp hdir hcur _ htoward hfits ⟨ch, _, hexceeds⟩
  have hfree : FreeSteps s m := by
    refine ⟨htoward, fun ch => ?_, ⟨ch, hexceeds⟩⟩
    by_cases h0 : sext8 (s.delta.channel ch) = 0
    · simp [h0]
    · exact hfits ch h0
  have horigin : s.cur = s.clampOrigin := by rw [hcur, State.clampOrigin, hdir]
  have hforth : pulseStep^[m + 1] s = (s.setCur s.endBound).setDir .reverse := by
    rw [iterate_pulseStep_leg hfree horigin, State.clampTarget, hdir]
    rfl
  have hback : pulseStep^[m + 1] ((s.setCur s.endBound).setDir .reverse) = s := by
    have hfree' : FreeSteps ((s.setCur s.endBound).setDir .reverse) m := ⟨hfree.1, hfree.2, hfree.3⟩
    have hstart : (s.setCur s.startBound).setDir .forward = s := by
      rw [← hcur, ← hdir]
      rfl
    rw [iterate_pulseStep_leg hfree' rfl]
    exact hstart
  constructor
  · exact ⟨_, (advanceN_pulse hm hp _).trans (congrArg some hforth), rfl, rfl⟩
  · rw [advanceN_pulse hm hp, two_mul, Function.iterate_add_apply, hforth, hback]

/-- Settles O13: the load by its checks; an advance is an oscillator step, which does not read REM. -/
theorem pulseLoadRule : Obligations.PulseLoadRule := by
  intro len st d en s
  refine ⟨fun l5 rest => ?_, fun hl => exec_loaded rfl hl trivial, exec_noEnd rfl,
    fun h ht => exec_truncated rfl h ht, fun hm => ?_⟩
  · have hsel : Config.default.pulseSelects (0b0#1 ++ l5) = true := by
      rw [pulseSelects_default_iff]
      revert l5; decide
    have hctl : 0b110#3 ++ l5 = controlByte 0b11#2 (0b0#1 ++ l5) := by
      revert l5; decide
    rw [hctl]
    exact decodeProgram_pulse Config.default _ st d en rest hsel
  · obtain ⟨c, dir, e⟩ := pulseStep_eq s
    refine ⟨c, dir, fun r => ?_⟩
    have hstep : advance (s.setRem r) = .next ((pulseStep s).setRem r) := by
      rw [advance_pulse (s := s.setRem r) hm, pulseStep_setRem]
    rw [e] at hstep
    exact hstep

/-- Settles O21: a candidate is CUR and the velocity, the range that of a byte and of a signed byte. -/
theorem candidateNeverWraps : Obligations.CandidateNeverWraps := by
  intro s ch
  have hc := (s.cur.channel ch).isLt
  have hd := sext8_range (s.delta.channel ch)
  have hcand := candidate_eq s ch
  refine ⟨fun hdir => ?_, fun hdir => ?_, fun hdir h250 h10 => ?_, fun hdir h80 => ?_⟩
  · rw [velocity_forward hdir] at hcand
    exact ⟨hcand, by omega, by omega⟩
  · rw [velocity_reverse hdir] at hcand
    exact ⟨hcand, by omega, by omega⟩
  · have h260 : s.candidate ch = 260 := by
      rw [hcand, velocity_forward hdir, h250, h10]
      rfl
    have hst := (s.startBound.channel ch).isLt
    have hen := (s.endBound.channel ch).isLt
    refine ⟨h260, ?_⟩
    rw [State.channelCrossed, crossed_iff, h260]
    omega
  · rw [hcand, velocity_reverse hdir, h80]
    rfl

/-- Settles O22: the test by `crossed_iff`; at equal bounds the interval is one value. -/
theorem crossingIsStrict : Obligations.CrossingIsStrict := by
  refine ⟨fun s ch => ?_, fun x st en => ?_⟩
  · have hiff := crossed_iff (s.candidate ch) (s.startBound.channel ch) (s.endBound.channel ch)
    have hequal : s.startBound.channel ch = s.endBound.channel ch →
        (s.channelCrossed ch = true ↔ s.candidate ch ≠ (s.startBound.channel ch).toNat) := fun heq => by
      rw [State.channelCrossed, hiff, ← heq]
      omega
    refine ⟨hiff, fun hst => ?_, fun hen => ?_, hequal, fun heq hcur => ?_⟩
    · rw [State.channelCrossed, not_crossed_iff, hst]
      omega
    · rw [State.channelCrossed, not_crossed_iff, hen]
      omega
    · rw [hequal heq, candidate_eq, hcur, ne_eq, add_eq_left, velocity_eq_zero_iff]
  · rw [crossed_iff]
    exact ⟨fun _ => by omega, fun _ => by omega⟩

/-- Settles O23: an advance is an oscillator step; a crossing clamps to the bound DIR chooses, and with none the
candidates are stored. -/
theorem pulseClampAndReversal : Obligations.PulseClampAndReversal := by
  intro s hm
  rw [advance_pulse hm]
  refine ⟨fun ⟨ch, hch⟩ hdir => ?_, fun ⟨ch, hch⟩ hdir => ?_, fun hnone => ?_⟩
  · rw [pulseStep_of_crossed hch, State.clampTarget, hdir]
    rfl
  · rw [pulseStep_of_crossed hch, State.clampTarget, hdir]
    rfl
  · obtain ⟨c, e, hc⟩ := pulseStep_of_not_crossed hnone
    exact ⟨c, congrArg _ e, hc⟩

end Sys2Proof.Machine
end

section
/-! The statements of the family 43_commands_frame.md. First what each command does by phase, which move a
step takes, and what a pixel step leaves; then the state `graft s w`, the data registers of `s` under the
command interface of `w`: a RENDER or an ADVANCE is an induction over its count on such states, in which `s`
advances and `w` counts and emits. -/

namespace Sys2Proof.Machine

/-! ## Commands by phase -/

theorem busy_eq_false_iff {p : Phase} :
    p.busy = false ↔ p = .uninit ∨ p = .ready ∨ p = .faulted := by
  cases p <;> decide

theorem busy_eq_true_iff {p : Phase} : p.busy = true ↔ p = .rendering ∨ p = .stepping := by
  cases p <;> decide

theorem exec_render (s : State) : exec .render s = .next (startWork .rendering s.npix s) := rfl

theorem exec_advance (steps : Nat) (s : State) :
    exec (.advance steps) s = .next (startWork .stepping steps s) := rfl

/-- INIT by phase (43_commands_frame.md R120). -/
theorem exec_init (plen npix : Nat) (s : State) :
    exec (.init plen npix) s = .next (if s.phase.busy then s else initAccepted plen npix s) :=
  execInit_eq plen npix s

theorem exec_init_idle (plen npix : Nat) {s : State} (hb : s.phase.busy = false) :
    exec (.init plen npix) s = .next (initAccepted plen npix s) := by
  rw [exec_init, hb]
  rfl

theorem startWork_uninit {s : State} (h : s.phase = .uninit) (p : Phase) (n : Nat) :
    startWork p n s = s.faultEntry .notInit 0 := by
  rw [startWork, h]

theorem startWork_ready {s : State} (h : s.phase = .ready) (p : Phase) (n : Nat) :
    startWork p n s = (s.setCnt n).setPhase p := by
  rw [startWork, h]

theorem startWork_faulted {s : State} (h : s.phase = .faulted) (p : Phase) (n : Nat) :
    startWork p n s = s := by
  rw [startWork, h]

theorem startWork_busy {s : State} (h : s.phase.busy = true) (p : Phase) (n : Nat) :
    startWork p n s = s := by
  rcases busy_eq_true_iff.mp h with h | h <;> rw [startWork, h]

theorem initAccepted_rejected {plen npix : Nat} {s : State} {c : FaultCode} {a : Nat}
    (hv : validate (s.bindProgram plen npix) = some (c, a)) :
    initAccepted plen npix s = (s.bindProgram plen npix).faultEntry c a := by
  rw [initAccepted, hv, initLoad]

/-- An INIT of a well-formed program runs the opcode at 0 from CURSOR 0, then is READY
(43_commands_frame.md R121, 40_decoder.md R95). -/
theorem initAccepted_valid {plen npix : Nat} {s s0 : State}
    (h0 : s0 = (s.bindProgram plen npix).setCursor 0) (hv : validate s0 = none) :
    ∃ i, loadsRun i = true ∧ fetchOpcode s0 0 = .opcode i ∧
      exec i s0 = .next (loadedState i 0 s0) ∧
      initAccepted plen npix s = (loadedState i 0 s0).setPhase .ready := by
  subst h0
  have hbind : validate (s.bindProgram plen npix) = none :=
    (validate_congr (s := (s.bindProgram plen npix).setCursor 0) (t := s.bindProgram plen npix)
      rfl rfl rfl).trans hv
  rcases initAccepted_cases plen npix s with ⟨c, a, hva, -⟩ | ⟨-, i, hi, hf, e⟩
  · cases hbind.symm.trans hva
  · have hf0 : fetchOpcode ((s.bindProgram plen npix).setCursor 0) 0 = .opcode i :=
      (fetchOpcode_congr (s := s.bindProgram plen npix) (t := (s.bindProgram plen npix).setCursor 0)
        rfl rfl rfl 0).trans hf
    obtain ⟨j, hfj, hx, -⟩ := validateFrom_none hv
    obtain rfl : i = j := Fetched.opcode.inj (hf0.symm.trans hfj)
    obtain ⟨-, hl, -⟩ := fetchOpcode_opcode hf0
    exact ⟨i, hi, hf0, exec_loaded (s := (s.bindProgram plen npix).setCursor 0) hi hl hx, e⟩

/-! ## Which move a step takes -/

theorem step_silent {s : State} (h : s.host = []) : step s = coreStep s := by
  rw [step, h]

/-- A core that is not busy takes the command off the port (43_commands_frame.md R120). -/
theorem step_command {s : State} {w : CommandWord} {rest : List HostMove}
    (hb : s.phase.busy = false) (hh : s.host = .command w :: rest) :
    step s = exec (decodeCommand s.cfg w) (s.setHost rest) := by
  rw [step, hh]
  simp [takeMove, hb]

/-- The host is silent, or its next move is one that a busy core leaves pending. -/
def HostWaits (host : List HostMove) : Prop := ∀ m ∈ host.head?, m.waitsWhileBusy = true

theorem hostWaits_nil : HostWaits [] := fun m hm => by cases hm

theorem hostWaits_cons {m : HostMove} (h : m.waitsWhileBusy = true) (rest : List HostMove) :
    HostWaits (m :: rest) := by
  rintro _ ⟨⟩
  exact h

/-- While the core is busy a command or a write is not taken (43_commands_frame.md R120; log 6). -/
theorem step_busy {s : State} (hb : s.phase.busy = true) (hw : HostWaits s.host) :
    step s = coreStep s := by
  rw [step]
  cases hh : s.host with
  | nil => rfl
  | cons m rest =>
    rw [hh] at hw
    have hm := hw m rfl
    cases m with
    | command | writeProg | writePal => exact if_pos hb
    | wait | reset => cases hm

/-! ## What a command leaves alone -/

/-- All that a command can do, whatever the phase: nothing, what an accepted INIT does, or what RENDER and
ADVANCE do. -/
theorem exec_command_cases {i : Instr} {s t : State} (hi : i.isOpcode = false)
    (h : exec i s = .next t) :
    t = s ∨ (∃ p n, i = .init p n ∧ t = initAccepted p n s) ∨ ∃ p n, t = startWork p n s := by
  cases i with
  | nop => cases h; exact .inl rfl
  | init p n =>
    cases (exec_init p n s).symm.trans h
    split
    · exact .inl rfl
    · exact .inr (.inl ⟨p, n, rfl, rfl⟩)
  | render => cases h; exact .inr (.inr ⟨_, _, rfl⟩)
  | advance k => cases h; exact .inr (.inr ⟨_, _, rfl⟩)
  | gap | solid | gradient | pulse | endOp => cases hi

/-- The one command that writes data registers is INIT (43_commands_frame.md R129). -/
theorem exec_decodeCommand_sameData {cfg : Config} {w : CommandWord} {u t : State}
    (hb : u.phase.busy = false) (h : exec (decodeCommand cfg w) u = .next t) :
    SameData u t ∨ ∃ p n, decodeCommand cfg w = .init p n := by
  rcases exec_decodeCommand_cases hb h with ⟨_, rfl⟩ | ⟨p, n, hd, _⟩ | ⟨_, rfl⟩ | ⟨k, _, _, rfl⟩
  · exact .inl ⟨rfl, rfl, rfl, rfl, rfl, rfl, rfl, rfl⟩
  · exact .inr ⟨p, n, hd⟩
  · exact .inl (startWork_frame .rendering u.npix u).1
  · exact .inl (startWork_frame .stepping k u).1

/-! ## Pixel steps and the end of a command -/

theorem afterAdvance_eq (s : State) :
    afterAdvance (advance s) = .next (countDown ((advanceLoad s).settle s)) := by
  rw [advance_eq, afterAdvance]

/-- An `Advance` and the count after it: CNT stays where the `Advance` faults (43_commands_frame.md R123,
R126). -/
theorem afterAdvance_advance (s : State) :
    ∃ t, advance s = .next t ∧ t.tx = s.tx ∧ t.cnt = s.cnt ∧
      (t.phase ≠ .faulted → afterAdvance (advance s) = .next { t with cnt := s.cnt - 1 }) ∧
      (t.phase = .faulted → afterAdvance (advance s) = .next t) := by
  obtain ⟨htx, hcnt, -⟩ := settle_advance s
  refine ⟨_, advance_eq s, htx, hcnt, fun hp => ?_, fun hp => ?_⟩
  · rw [afterAdvance_eq, countDown_running hp, hcnt]
  · rw [afterAdvance_eq, countDown_faulted hp]

theorem coreStep_frameEnd {s : State} (hp : s.phase = .rendering) (hc : s.cnt = 0) :
    coreStep s = .next (frameEnd s) := by
  rw [coreStep, hp]
  exact if_pos hc

theorem coreStep_advanceEnd {s : State} (hp : s.phase = .stepping) (hc : s.cnt = 0) :
    coreStep s = .next (s.setPhase .ready) := by
  rw [coreStep, hp]
  exact if_pos hc

/-! ## The core's own step and the host's moves -/

/-- An `Advance` does not look at the host's moves. -/
theorem settle_advanceLoad_setHost (s : State) (h : List HostMove) :
    (advanceLoad (s.setHost h)).settle (s.setHost h) = ((advanceLoad s).settle s).setHost h := by
  have hgraft : advanceLoad (s.setHost h) = (advanceLoad s).graft (s.setHost h) :=
    advanceLoad_graft (s := s) (u := s.setHost h) rfl rfl rfl rfl
  rw [hgraft]
  cases hl : advanceLoad s with
  | raised c a => rfl
  | loaded t =>
    obtain ⟨hcfg, hprog, hpal, hplen, hnpix, hcnt, hphase, hcode, haddr, htx, -⟩ :=
      advanceLoad_control hl
    simp [LoadResult.graft, LoadResult.settle, graft, State.setHost, hcfg, hprog, hpal, hplen, hnpix,
      hcnt, hphase, hcode, haddr, htx]

theorem countDown_setHost (s : State) (h : List HostMove) :
    countDown (s.setHost h) = (countDown s).setHost h := by
  rw [countDown, countDown, State.setHost_phase]
  split <;> rfl

theorem afterAdvance_setHost (s : State) (h : List HostMove) :
    afterAdvance (advance (s.setHost h)) =
      .next ((countDown ((advanceLoad s).settle s)).setHost h) := by
  rw [afterAdvance_eq, settle_advanceLoad_setHost, countDown_setHost]

/-- Nor does the core's own step, and it leaves them as they are (43_commands_frame.md R120). -/
theorem coreStep_setHost {s t : State} (hs : coreStep s = .next t) (h : List HostMove) :
    coreStep (s.setHost h) = .next (t.setHost h) := by
  rcases coreStep_cases hs with ⟨hb, rfl⟩ | ⟨hp, hc, rfl⟩ | ⟨hp, hc, rfl⟩ | ⟨hp, hc, rfl⟩ | ⟨hp, hc, rfl⟩
  · exact coreStep_idle (s := t.setHost h) hb
  · exact coreStep_frameEnd (s := s.setHost h) hp hc
  · exact coreStep_advanceEnd (s := s.setHost h) hp hc
  · exact (coreStep_rendering (s := s.setHost h) hp hc).trans
      (afterAdvance_setHost (s.emit (.color s.cur)) h)
  · exact (coreStep_stepping (s := s.setHost h) hp hc).trans (afterAdvance_setHost s h)

/-! ## The events of a RENDER or an ADVANCE -/

/-- What a pixel step in phase `p` appends to TX: its colour while RENDERING (43_commands_frame.md R123,
R126). -/
def pixelEvents (p : Phase) (s : State) : List Event :=
  match p with
  | .rendering => [.color s.cur]
  | .uninit | .ready | .stepping | .faulted => []

/-- What the rest of a command in phase `p` with `k` pixel steps to go appends to TX: a frame's colours and
one Idle while RENDERING (43_commands_frame.md R127). -/
def workEvents (p : Phase) (k : Nat) (s : State) : List Event :=
  match p with
  | .rendering => frameColours k s ++ [.idle]
  | .uninit | .ready | .stepping | .faulted => []

theorem frameColours_succ {s u : State} (hl : advanceLoad s = .loaded u) (hp : s.phase ≠ .faulted)
    (k : Nat) : frameColours (k + 1) s = .color s.cur :: frameColours k u := by
  rw [frameColours, unfaulted_of_loaded hl hp]

theorem workEvents_succ {s u : State} (hl : advanceLoad s = .loaded u) (hp : s.phase ≠ .faulted)
    (p : Phase) (k : Nat) : workEvents p (k + 1) s = pixelEvents p s ++ workEvents p k u := by
  cases p with
  | rendering => exact congrArg (· ++ [.idle]) (frameColours_succ hl hp k)
  | uninit | ready | stepping | faulted => rfl

/-- A frame that raises no fault emits as many colours as it has pixels. -/
theorem frameColours_length {k : Nat} {s t : State} (h : advanceN k s = some t) :
    (frameColours k s).length = k := by
  induction k generalizing s with
  | zero => rfl
  | succ k ih =>
    obtain ⟨u, hl, hu, ht⟩ := advanceN_split h
    rw [frameColours_succ hl ((advanceLoad_control hl).phase ▸ hu), List.length_cons, ih ht]

/-- And nothing but colours. -/
theorem color_of_mem_frameColours {k : Nat} {s : State} {e : Event} (h : e ∈ frameColours k s) :
    ∃ c, e = .color c := by
  induction k generalizing s with
  | zero => cases h
  | succ k ih =>
    rcases List.mem_cons.mp h with rfl | h
    · exact ⟨s.cur, rfl⟩
    · split at h
      · exact ih h
      · cases h

/-! ## A RENDER or an ADVANCE from its acceptance to its end -/

/-- The parameters, PROG, PAL and PLEN agree: all that an `Advance` reads besides data registers. -/
structure SameProgram (s w : State) : Prop where
  cfg : w.cfg = s.cfg
  prog : w.prog = s.prog
  pal : w.pal = s.pal
  plen : w.plen = s.plen

theorem SameProgram.refl (s : State) : SameProgram s s := ⟨rfl, rfl, rfl, rfl⟩

theorem SameControl.program {s t w : State} (h : SameControl s t) (hw : SameProgram s w) :
    SameProgram t w :=
  ⟨hw.cfg.trans h.cfg.symm, hw.prog.trans h.prog.symm, hw.pal.trans h.pal.symm,
    hw.plen.trans h.plen.symm⟩

theorem advance_graft {s u w : State} (hw : SameProgram s w) (hl : advanceLoad s = .loaded u) :
    advance (graft s w) = .next (graft u w) := by
  rw [advance_eq, advanceLoad_graft hw.cfg hw.prog hw.pal hw.plen, hl]
  rfl

/-- The state after one pixel step, as far as the command interface goes. -/
def State.counted (w : State) (events : List Event) : State :=
  { w with tx := w.tx ++ events, cnt := w.cnt - 1 }

/-- The state after the command, as far as the command interface goes. -/
def State.finished (w : State) (events : List Event) (rest : List HostMove) : State :=
  { w with tx := w.tx ++ events, cnt := 0, phase := .ready, host := rest }

/-- An `Advance` that raises nothing writes data registers only, so what it leaves is the finished state
that has its data registers. -/
theorem graft_finished {s t : State} (h : SameControl s t) (events : List Event)
    (rest : List HostMove) : graft t (s.finished events rest) = t.finished events rest := by
  obtain ⟨hcfg, hprog, hpal, hplen, hnpix, -, -, hcode, haddr, htx, -⟩ := h
  simp [graft, State.finished, hcfg, hprog, hpal, hplen, hnpix, hcode, haddr, htx]

/-- A pixel step (43_commands_frame.md R123, R126). -/
theorem step_pixel {s u w : State} (hw : SameProgram s w) (hb : w.phase.busy = true)
    (hwait : HostWaits w.host) (hc : w.cnt ≠ 0) (hl : advanceLoad s = .loaded u) :
    step (graft s w) = .next (graft u (w.counted (pixelEvents w.phase s))) := by
  rw [step_busy (s := graft s w) hb hwait]
  rcases busy_eq_true_iff.mp hb with hp | hp
  · have he : advance (graft s (w.emit (.color s.cur))) = .next (graft u (w.emit (.color s.cur))) :=
      advance_graft ⟨hw.cfg, hw.prog, hw.pal, hw.plen⟩ hl
    have hrun : (graft u (w.emit (.color s.cur))).phase ≠ .faulted := hp.trans_ne (by decide)
    rw [coreStep_rendering (s := graft s w) hp hc, hp]
    exact (congrArg afterAdvance he).trans (congrArg _ (countDown_running hrun))
  · have hrun : (graft u w).phase ≠ .faulted := hp.trans_ne (by decide)
    rw [coreStep_stepping (s := graft s w) hp hc, advance_graft hw hl, afterAdvance,
      countDown_running hrun, hp]
    simp [graft, State.counted, pixelEvents]

/-- With CNT 0 the command ends (43_commands_frame.md R124, R125). -/
theorem step_end {w : State} (hb : w.phase.busy = true) (hwait : HostWaits w.host) (hc : w.cnt = 0)
    (s : State) :
    step (graft s w) = .next (graft s (w.finished (workEvents w.phase 0 s) w.host)) := by
  rw [step_busy (s := graft s w) hb hwait]
  rcases busy_eq_true_iff.mp hb with hp | hp
  · rw [coreStep_frameEnd (s := graft s w) hp hc, hp]
    simp [graft, State.finished, frameEnd, State.emit, State.setPhase, workEvents, frameColours, hc]
  · rw [coreStep_advanceEnd (s := graft s w) hp hc, hp]
    simp [graft, State.finished, State.setPhase, workEvents, hc]

/-- The pixel steps of a command and its end, by induction over CNT. -/
theorem run_work {k : Nat} {s t w : State} (hw : SameProgram s w) (hb : w.phase.busy = true)
    (hwait : HostWaits w.host) (hc : w.cnt = k) (h : advanceN k s = some t) :
    Host.Core.run core (k + 1) (graft s w) =
      .next (graft t (w.finished (workEvents w.phase k s) w.host)) := by
  induction k generalizing s w with
  | zero =>
    cases h
    exact run_succ 0 _ _ (step_end hb hwait hc _)
  | succ k ih =>
    obtain ⟨u, hl, hu, ht⟩ := advanceN_split h
    have hcontrol := advanceLoad_control hl
    have hnext : SameProgram u (w.counted (pixelEvents w.phase s)) :=
      hcontrol.program ⟨hw.cfg, hw.prog, hw.pal, hw.plen⟩
    rw [run_succ _ _ _ (step_pixel hw hb hwait (by omega) hl),
      ih hnext hb hwait (Nat.sub_eq_of_eq_add hc) ht,
      workEvents_succ hl (hcontrol.phase ▸ hu)]
    simp [State.finished, State.counted]

/-- A command that begins work of `n` pixel steps, from its acceptance to its end. -/
theorem run_command {n : Nat} {p : Phase} {c : CommandWord} {rest : List HostMove} {s t w : State}
    (hw : SameProgram s w) (hr : w.phase = .ready) (hh : w.host = .command c :: rest)
    (hrest : HostWaits rest) (hp : p.busy = true)
    (he : ∀ u : State, u.npix = w.npix → exec (decodeCommand w.cfg c) u = .next (startWork p n u))
    (h : advanceN n s = some t) :
    Host.Core.run core (n + 2) (graft s w) = .next (graft t (w.finished (workEvents p n s) rest)) := by
  have hidle : (graft s w).phase.busy = false := busy_eq_false_iff.mpr (.inr (.inl hr))
  have hwork : startWork p n ((graft s w).setHost rest) =
      graft s (((w.setHost rest).setCnt n).setPhase p) :=
    startWork_ready (s := (graft s w).setHost rest) hr p n
  have hstep : step (graft s w) = .next (graft s (((w.setHost rest).setCnt n).setPhase p)) := by
    rw [step_command hidle hh, ← hwork]
    exact he _ rfl
  rw [run_succ (n + 1) _ _ hstep]
  exact run_work ⟨hw.cfg, hw.prog, hw.pal, hw.plen⟩ hp hrest rfl h

/-- ADVANCE `k`, from its acceptance to its end: no event (43_commands_frame.md R125). -/
theorem run_advance {a k : Nat} {rest : List HostMove} {s t w : State} (hw : SameProgram s w)
    (hr : w.phase = .ready) (hh : w.host = .command ⟨0b11#2, a, k⟩ :: rest) (hrest : HostWaits rest)
    (hk : k < 2 ^ w.cfg.stepW) (h : advanceN k s = some t) :
    Host.Core.run core (k + 2) (graft s w) = .next (graft t (w.finished [] rest)) := by
  obtain ⟨-, -, -, hdecode⟩ := commandCodes w.cfg a k
  refine run_command hw hr hh hrest (p := .stepping) rfl (fun u _ => ?_) h
  rw [hdecode hk, exec_advance]

/-! ## The obligations -/

/-- Settles O38: the run of a command (`run_command`) on the state that is its own command interface; the
colours are counted by `frameColours_length`. -/
theorem bigStepForms : Obligations.BigStepForms := by
  refine ⟨fun s t a b hr hh h => ⟨?_, frameColours_length h, fun e => color_of_mem_frameColours⟩,
    fun s t a k hr hh hk h => ?_⟩
  · have hrun := run_command (SameProgram.refl s) hr hh hostWaits_nil (p := .rendering) rfl
      (fun u hu => (exec_render u).trans (by rw [hu])) h
    rw [graft_self, graft_finished (advanceN_control h)] at hrun
    rw [hrun]
    simp [State.finished, workEvents, (advanceN_control h).tx]
  · have hrun := run_advance (SameProgram.refl s) hr hh hostWaits_nil hk h
    rw [graft_self, graft_finished (advanceN_control h)] at hrun
    rw [hrun]
    simp [State.finished, (advanceN_control h).tx]

/-- Settles O39: the state between the two commands is `a` advances on, and `b` more from there are
`a + b` from the start (`advanceN_add`); the second command waits while the first runs. -/
theorem advanceAdds : Obligations.AdvanceAdds := by
  intro s a b hr hfit hsome
  obtain ⟨t, ht⟩ := Option.isSome_iff_exists.mp hsome
  obtain ⟨u, hu, hut⟩ := Option.bind_eq_some_iff.mp ((advanceN_add a b s).symm.trans ht)
  have both := run_advance (s := s) (w := { s with host := [.command ⟨0b11#2, 0, a + b⟩] })
    ⟨rfl, rfl, rfl, rfl⟩ hr rfl hostWaits_nil hfit ht
  have first := run_advance (s := s)
    (w := { s with host := [.command ⟨0b11#2, 0, a⟩, .command ⟨0b11#2, 0, b⟩] })
    ⟨rfl, rfl, rfl, rfl⟩ hr rfl (hostWaits_cons rfl []) (Nat.lt_of_add_right_lt hfit) hu
  have second := run_advance
    (w := State.finished { s with host := [] } [] [.command ⟨0b11#2, 0, b⟩])
    ((advanceN_control hu).program ⟨rfl, rfl, rfl, rfl⟩) rfl rfl hostWaits_nil
    (Nat.lt_of_add_left_lt hfit) hut
  refine (run_add (a + 2) (b + 2) _ _ first).trans (second.trans (Eq.trans ?_ both.symm))
  simp [State.finished]

/-- Settles O28: the validation finds the opcode at 0 and its index good, so `exec` loads it
(`initAccepted_valid`), and a load writes data registers only. -/
theorem initBindsAndLoads : Obligations.InitBindsAndLoads := by
  rintro plen npix s s0 hb h0 hv
  obtain ⟨i, hi, hf, he, hinit⟩ := initAccepted_valid h0 hv
  obtain ⟨hcfg, hprog, hpal, hplen, hnpix, hcnt, -, hcode, haddr, htx, hhost⟩ :=
    loadedState_control i 0 s0
  have hcursor := loadedState_cursor hi 0 s0
  refine ⟨i, _, _, hf, ?_, he, exec_init_idle plen npix hb, hinit, ?_⟩
  · rintro l rfl
    cases hi
  · rw [hinit]
    subst h0
    refine ⟨hplen, hnpix, hcode, haddr, hcursor.trans (Nat.zero_add _), htx, hcnt, hcfg, hhost,
      fun a => ?_, fun a => ?_⟩
    · rw [State.setPhase_prog, hprog]
    · rw [State.setPhase_pal, hpal]

/-- Settles O46: the core's own step is the same whatever the host's moves (`coreStep_setHost`). -/
theorem busyCoreTakesNoMove : Obligations.BusyCoreTakesNoMove := by
  intro s m rest hb hh hm
  obtain ⟨t, ht⟩ : ∃ t, coreStep (s.setHost []) = .next t := ⟨_, coreStep_eq _⟩
  have hsilent : t = t.setHost [] := Host.Outcome.next.inj (ht.symm.trans (coreStep_setHost ht []))
  have hself : s = (s.setHost []).setHost (m :: rest) := by rw [← hh]; rfl
  refine ⟨t, ?_, (step_silent (s := s.setHost []) rfl).trans ht, congrArg State.host hsilent⟩
  rw [step_busy hb (hh ▸ hostWaits_cons hm rest), hself]
  exact coreStep_setHost ht (m :: rest)

/-- Settles O50, by cases over what a step can be: a core that is not busy does nothing of its own. -/
theorem dataChangesOnlyByCommands : Obligations.DataChangesOnlyByCommands := by
  intro s t hb hs
  rcases step_next_cases hs with ⟨s', rfl | ⟨rest, _, rfl⟩, hc⟩ | ⟨rest, hh, _⟩ |
    ⟨-, ⟨w, rest, hh, he⟩ | ⟨off, b, rest, _, _, rfl⟩ | ⟨addr, b, rest, _, _, rfl⟩⟩
  · cases (coreStep_idle hb).symm.trans hc
    exact .inl ⟨rfl, rfl, rfl, rfl, rfl, rfl, rfl, rfl⟩
  · cases (coreStep_idle (s := s.setHost rest) hb).symm.trans hc
    exact .inl ⟨rfl, rfl, rfl, rfl, rfl, rfl, rfl, rfl⟩
  · exact .inr (.inl ⟨rest, hh⟩)
  · rcases exec_decodeCommand_sameData (u := s.setHost rest) hb he with hsame | ⟨p, n, hd⟩
    · obtain ⟨hcursor, hmode, hrem, hcur, hdelta, hst, hen, hdir⟩ := hsame
      exact .inl ⟨hcursor, hmode, hrem, hcur, hdelta, hst, hen, hdir⟩
    · exact .inr (.inr ⟨w, rest, p, n, hh, hd⟩)
  · exact .inl ⟨rfl, rfl, rfl, rfl, rfl, rfl, rfl, rfl⟩
  · exact .inl ⟨rfl, rfl, rfl, rfl, rfl, rfl, rfl, rfl⟩

/-- Settles O19: the three phases named are those that are not busy. -/
theorem stepRunsThePresentedCommand : Obligations.StepRunsThePresentedCommand :=
  fun _ _ _ hh hp => step_command (busy_eq_false_iff.mpr hp) hh

/-- Settles O27: `decodeCommand` looks at the code alone for NOP, and NOP's meaning has no case. -/
theorem nopDoesNothing : Obligations.NopDoesNothing :=
  ⟨fun cfg a b => (commandCodes cfg a b).1, fun _ => rfl⟩

/-- Settles O29: the latch, then the fault the validation names (`initAccepted_rejected`). -/
theorem initRejects : Obligations.InitRejects := by
  rintro plen npix s _ code addr hb rfl hv
  rw [exec_init_idle plen npix hb, initAccepted_rejected hv]
  rfl

/-- Settles O31: RENDER by phase. -/
theorem renderBegins : Obligations.RenderBegins := by
  intro s hr
  rw [exec_render, startWork_ready hr]
  rfl

/-- Settles O32: ADVANCE by phase. -/
theorem advanceBegins : Obligations.AdvanceBegins := by
  intro steps s hr
  rw [exec_advance, startWork_ready hr]
  rfl

/-- Settles O33: RENDER and ADVANCE by phase, and INIT while busy. -/
theorem commandsByPhase : Obligations.CommandsByPhase := by
  intro steps plen npix s
  refine ⟨fun hp => ?_, fun hp => ?_, fun hp => ?_⟩
  · rw [exec_render, exec_advance, startWork_uninit hp, startWork_uninit hp]
    exact ⟨rfl, rfl⟩
  · rw [exec_render, exec_advance, startWork_faulted hp, startWork_faulted hp]
    exact ⟨rfl, rfl⟩
  · have hb := busy_eq_true_iff.mpr hp
    rw [exec_render, exec_advance, exec_init, startWork_busy hb, startWork_busy hb, hb]
    exact ⟨rfl, rfl, rfl⟩

/-- Settles O34, by cases over what a command can do. -/
theorem commandFrame : Obligations.CommandFrame := by
  intro i s t hi he
  rcases exec_command_cases hi he with rfl | ⟨p, n, rfl, rfl⟩ | ⟨p, n, rfl⟩
  · exact ⟨rfl, rfl, rfl, fun _ => rfl, fun _ => rfl,
      fun _ => ⟨⟨rfl, rfl, rfl, rfl, rfl, rfl, rfl, rfl⟩, rfl, rfl⟩⟩
  · obtain ⟨hcfg, htx, hhost, hprog, hpal⟩ := initAccepted_frame p n s
    exact ⟨hcfg, htx, hhost, fun _ => by rw [hprog], fun _ => by rw [hpal],
      fun hne => absurd rfl (hne p n)⟩
  · obtain ⟨hdata, hplen, hnpix, hcfg, htx, hhost, hprog, hpal⟩ := startWork_frame p n s
    exact ⟨hcfg, htx, hhost, fun _ => by rw [hprog], fun _ => by rw [hpal],
      fun _ => ⟨hdata, hplen, hnpix⟩⟩

/-- Settles O35: the pixel step is the colour, then `Advance` and the count (`afterAdvance_advance`). -/
theorem renderPixelStepRule : Obligations.RenderPixelStepRule := by
  rintro s _ hh hp hc rfl
  rw [step_silent hh, coreStep_rendering hp hc]
  exact afterAdvance_advance (s.emit (.color s.cur))

/-- Settles O36: the silent step is `Advance` and the count (`afterAdvance_advance`). -/
theorem silentStepRule : Obligations.SilentStepRule := by
  intro s hh hp hc
  rw [step_silent hh, coreStep_stepping hp hc]
  exact afterAdvance_advance s

/-- Settles O37: the core's own step with CNT 0, by phase. -/
theorem frameEndRule : Obligations.FrameEndRule := by
  intro s hh hc
  rw [step_silent hh]
  exact ⟨fun hp => coreStep_frameEnd hp hc, fun hp => coreStep_advanceEnd hp hc⟩

end Sys2Proof.Machine
end

section
/-! The statements of the family 44_serializer.md. First what one colour is on the wire, in bytes and in
bits; a stream then follows by the `List.flatMap` that `wireBytes` and `wireSymbols` are. -/

namespace Sys2Proof.Machine

/-! ## Colours as bytes -/

theorem length_channels (order : WireOrder) : order.channels.length = 3 := by
  cases order <;> rfl

theorem wireBytes_append (order : WireOrder) (a b : List Event) :
    wireBytes order (a ++ b) = wireBytes order a ++ wireBytes order b :=
  List.flatMap_append

/-- The channel bytes of a colour in wire order (44_serializer.md R136). -/
def wireChannels (order : WireOrder) (c : Colour) : List Byte :=
  order.channels.map c.channel

theorem length_wireChannels (order : WireOrder) (c : Colour) : (wireChannels order c).length = 3 := by
  rw [wireChannels, List.length_map, length_channels]

/-- Colours without an idle request are their channel bytes, one after the other. -/
theorem wireBytes_colours (order : WireOrder) (cs : List Colour) :
    wireBytes order (cs.map .color) = (cs.flatMap (wireChannels order)).map .byte := by
  rw [wireBytes, List.flatMap_map, List.map_flatMap]
  simp only [wireChannels, List.map_map]
  rfl

theorem length_wireChannels_flatMap (order : WireOrder) (cs : List Colour) :
    (cs.flatMap (wireChannels order)).length = 3 * cs.length := by
  simp [List.length_flatMap, length_wireChannels, Nat.mul_comm]

/-! ## Bytes as bits -/

/-- The bits of a byte, bit 7 first (44_serializer.md R137). -/
def bitsMsbFirst (v : Byte) : List Bool :=
  (List.range 8).map fun k => v.getLsbD (7 - k)

@[simp] theorem length_bitsMsbFirst (v : Byte) : (bitsMsbFirst v).length = 8 := rfl

theorem getElem?_bitsMsbFirst (v : Byte) {k : Nat} (hk : k < 8) :
    (bitsMsbFirst v)[k]? = some (v.getLsbD (7 - k)) := by
  rw [bitsMsbFirst, List.getElem?_map, List.getElem?_range hk]
  rfl

theorem symbols_byte (v : Byte) : (ByteEvent.byte v).symbols = (bitsMsbFirst v).map .bit := rfl

theorem symbols_bytes (vs : List Byte) :
    (vs.map ByteEvent.byte).flatMap ByteEvent.symbols = (vs.flatMap bitsMsbFirst).map .bit := by
  rw [List.flatMap_map, List.map_flatMap]
  rfl

theorem length_bitsMsbFirst_flatMap (vs : List Byte) :
    (vs.flatMap bitsMsbFirst).length = 8 * vs.length := by
  simp [List.length_flatMap, Nat.mul_comm]

/-- A frame is the bits of its channel bytes, then one idle request (44_serializer.md R137). -/
theorem wireSymbols_frame (order : WireOrder) (cs : List Colour) :
    wireSymbols order (cs.map .color ++ [.idle]) =
      ((cs.flatMap (wireChannels order)).flatMap bitsMsbFirst).map .bit ++ [.idle] := by
  rw [wireSymbols, wireBytes_append, List.flatMap_append, wireBytes_colours, symbols_bytes]
  rfl

/-! ## The obligations -/

/-- Settles O59: each order by what it names; a stream by its colours' three bytes each. -/
theorem wireByteOrder : Obligations.WireByteOrder := by
  refine ⟨fun c => ⟨rfl, rfl, rfl, rfl, rfl, rfl⟩, wireBytes_append, fun order cs => ?_, rfl, rfl⟩
  rw [wireBytes_colours, List.length_map, length_wireChannels_flatMap]

/-- Settles O60: a byte's symbols are its bits from bit 7 on, and a frame's those of its bytes, which are
three a pixel. -/
theorem wireBitOrder : Obligations.WireBitOrder := by
  refine ⟨fun v k hk => ?_, fun order cs => ⟨_, ?_, wireSymbols_frame order cs⟩, by decide⟩
  · rw [symbols_byte, List.length_map, List.getElem?_map, getElem?_bitsMsbFirst v hk]
    exact ⟨length_bitsMsbFirst v, rfl⟩
  · rw [length_bitsMsbFirst_flatMap, length_wireChannels_flatMap]
    omega

end Sys2Proof.Machine
end

section
/-! The statements of the family 60_exceptions.md. First what INIT leaves in the fault registers, then all
that a step of a faulted core can be; the frame of R150 is read off that. -/

namespace Sys2Proof.Machine

/-! ## The steps of a faulted core -/

/-- An accepted INIT ends READY with the fault cleared, or FAULTED (43_commands_frame.md R121): a load
touches no fault register, so the latch's NONE and 0 stand. -/
theorem initAccepted_fault (p n : Nat) (s : State) :
    (initAccepted p n s).phase = .ready ∧ (initAccepted p n s).faultCode = .noFault ∧
        (initAccepted p n s).faultAddr = 0 ∨
      (initAccepted p n s).phase = .faulted := by
  rcases initAccepted_cases p n s with ⟨c, a, _, e⟩ | ⟨_, i, _, _, e⟩ <;> rw [e]
  · exact .inr rfl
  · have hc := loadedState_control i 0 ((s.bindProgram p n).setCursor 0)
    exact .inl ⟨rfl, hc.faultCode, hc.faultAddr⟩

/-- The one command with an effect in FAULTED is INIT (43_commands_frame.md R120). -/
theorem exec_decodeCommand_faulted {cfg : Config} {w : CommandWord} {u t : State}
    (hp : u.phase = .faulted) (h : exec (decodeCommand cfg w) u = .next t) :
    t = u ∨ ∃ p n, decodeCommand cfg w = .init p n ∧ t = initAccepted p n u := by
  rcases exec_decodeCommand_cases (by rw [hp]; rfl) h with
    ⟨_, rfl⟩ | ⟨p, n, hd, _, _, ht⟩ | ⟨_, rfl⟩ | ⟨k, _, _, rfl⟩
  · exact .inl rfl
  · exact .inr ⟨p, n, hd, ht⟩
  · exact .inl (startWork_faulted hp .rendering u.npix)
  · exact .inl (startWork_faulted hp .stepping k)

/-- All that a step of a faulted core can be (60_exceptions.md R150): the host's moves and the memories it
writes are all that changes, or it is a reset, or an INIT. -/
theorem step_faulted_cases {s t : State} (hp : s.phase = .faulted) (h : step s = .next t) :
    (∃ host prog pal, t = ((s.setHost host).setProg prog).setPal pal) ∨
      (∃ rest, s.host = .reset :: rest ∧ t = (s.setHost rest).hardReset) ∨
      ∃ w rest p n, s.host = .command w :: rest ∧ decodeCommand s.cfg w = .init p n ∧
        t = initAccepted p n (s.setHost rest) := by
  have hidle : s.phase.busy = false := by rw [hp]; rfl
  rcases step_next_cases h with ⟨s', rfl | ⟨rest, _, rfl⟩, hc⟩ | ⟨rest, hh, ht⟩ |
    ⟨_, ⟨w, rest, hh, he⟩ | ⟨off, b, rest, _, _, rfl⟩ | ⟨addr, b, rest, _, _, rfl⟩⟩
  · cases (coreStep_idle hidle).symm.trans hc
    exact .inl ⟨t.host, t.prog, t.pal, rfl⟩
  · cases (coreStep_idle (s := s.setHost rest) hidle).symm.trans hc
    exact .inl ⟨rest, s.prog, s.pal, rfl⟩
  · exact .inr (.inl ⟨rest, hh, ht⟩)
  · rcases exec_decodeCommand_faulted (u := s.setHost rest) hp he with rfl | ⟨p, n, hd, ht⟩
    · exact .inl ⟨rest, s.prog, s.pal, rfl⟩
    · exact .inr (.inr ⟨w, rest, p, n, hh, hd, ht⟩)
  · exact .inl ⟨rest, Memory.write s.prog off b, s.pal, rfl⟩
  · exact .inl ⟨rest, s.prog, Memory.write s.pal addr b, rfl⟩

/-! ## The obligations -/

/-- Settles O45, by cases over what a step of a faulted core can be. -/
theorem faultedUntilInitOrReset : Obligations.FaultedUntilInitOrReset := by
  intro s t hp hs
  rcases step_faulted_cases hp hs with
    ⟨host, prog, pal, rfl⟩ | ⟨rest, hh, rfl⟩ | ⟨w, rest, p, n, hh, hd, rfl⟩
  · exact .inl ⟨⟨rfl, rfl, rfl⟩, ⟨rfl, rfl, rfl, rfl, rfl, rfl, rfl, rfl⟩, rfl⟩
  · exact .inr (.inl ⟨rest, hh, rfl⟩)
  · exact .inr (.inr ⟨w, rest, p, n, hh, hd, initAccepted_fault p n (s.setHost rest)⟩)

/-- Settles O54: `FaultCode.number` at each code. -/
theorem faultNumbers : Obligations.FaultNumbers :=
  ⟨rfl, rfl, rfl, rfl, rfl, rfl⟩

end Sys2Proof.Machine
end

section
/-! The statements of the family 70_reset_and_hazards.md. First what a reset leaves, then a busy core under a
silent host: each of its steps ends the command, faults, or counts down by one, so CNT bounds the run. -/

namespace Sys2Proof.Machine

/-! ## Hardware reset -/

/-- A reset is taken in any phase (70_reset_and_hazards.md R166). -/
theorem step_reset {s : State} {rest : List HostMove} (hh : s.host = .reset :: rest) :
    step s = .next (s.setHost rest).hardReset := by
  rw [step, hh]
  rfl

/-- What a reset leaves depends on no register (70_reset_and_hazards.md R165; log 4, log 10). -/
theorem hardReset_congr {s u : State} (hcfg : u.cfg = s.cfg) (hprog : u.prog = s.prog)
    (hpal : u.pal = s.pal) (hhost : u.host = s.host) : u.hardReset = s.hardReset := by
  rw [State.hardReset, State.hardReset, hcfg, hprog, hpal, hhost]

/-! ## A busy core under a silent host -/

/-- A core that is not busy stays as it is while the host is silent. -/
theorem run_idle {s : State} (hh : s.host = []) (hb : s.phase.busy = false) (k : Nat) :
    Host.Core.run core k s = .next s := by
  induction k with
  | zero => rfl
  | succ k ih => exact (run_succ k s s ((step_silent hh).trans (coreStep_idle hb))).trans ih

/-- The `Advance` of a pixel step and its count: a fault, or CNT one less in the same phase. -/
theorem countDown_advance_progress {s t : State} (ht : t = countDown ((advanceLoad s).settle s)) :
    t.host = s.host ∧ (t.phase = .faulted ∨ t.phase = s.phase ∧ t.cnt = s.cnt - 1) := by
  obtain ⟨-, hcnt, hhost, -, -, -, hphase⟩ := settle_advance s
  by_cases hf : ((advanceLoad s).settle s).phase = .faulted
  · rw [ht, countDown_faulted hf]
    exact ⟨hhost, .inl hf⟩
  · rw [ht, countDown_running hf, hcnt]
    exact ⟨hhost, .inr ⟨hphase.resolve_right hf, rfl⟩⟩

/-- A step of a busy core ends the command when CNT is 0; before, it faults or counts
(43_commands_frame.md R123 to R126). -/
theorem coreStep_progress {s t : State} (hb : s.phase.busy = true) (h : coreStep s = .next t) :
    t.host = s.host ∧
      (s.cnt = 0 ∧ t.phase = .ready ∨
        s.cnt ≠ 0 ∧ (t.phase = .faulted ∨ t.phase = s.phase ∧ t.cnt = s.cnt - 1)) := by
  rcases coreStep_cases h with
    ⟨hidle, _⟩ | ⟨_, hc, rfl⟩ | ⟨_, hc, rfl⟩ | ⟨_, hc, ht⟩ | ⟨_, hc, ht⟩
  · cases hidle.symm.trans hb
  · exact ⟨rfl, .inl ⟨hc, rfl⟩⟩
  · exact ⟨rfl, .inl ⟨hc, rfl⟩⟩
  · obtain ⟨hhost, hprogress⟩ := countDown_advance_progress ht
    exact ⟨hhost, .inr ⟨hc, hprogress⟩⟩
  · obtain ⟨hhost, hprogress⟩ := countDown_advance_progress ht
    exact ⟨hhost, .inr ⟨hc, hprogress⟩⟩

/-- With a silent host no step of a busy core stops, and its progress is that of the core alone. -/
theorem step_busy_progress {s : State} (hh : s.host = []) (hb : s.phase.busy = true) :
    ∃ t, step s = .next t ∧ t.host = [] ∧
      (s.cnt = 0 ∧ t.phase = .ready ∨
        s.cnt ≠ 0 ∧ (t.phase = .faulted ∨ t.phase = s.phase ∧ t.cnt = s.cnt - 1)) := by
  obtain ⟨t, ht⟩ : ∃ t, coreStep s = .next t := ⟨_, coreStep_eq s⟩
  obtain ⟨hhost, hprogress⟩ := coreStep_progress hb ht
  exact ⟨t, (step_silent hh).trans ht, hhost.trans hh, hprogress⟩

/-- A command with `n` pixel steps to go is over within `n + 1` steps, by induction over its count; a fault
ends it early, and a faulted core stays. -/
theorem run_busy_completes {n : Nat} {s : State} (hh : s.host = []) (hb : s.phase.busy = true)
    (hn : s.cnt = n) :
    ∃ t, Host.Core.run core (n + 1) s = .next t ∧ (t.phase = .ready ∨ t.phase = .faulted) := by
  induction n generalizing s with
  | zero =>
    obtain ⟨u, hs, -, ⟨-, hready⟩ | ⟨hc, -⟩⟩ := step_busy_progress hh hb
    · exact ⟨u, run_succ 0 s u hs, .inl hready⟩
    · exact absurd hn hc
  | succ n ih =>
    obtain ⟨u, hs, hhost, ⟨hc, -⟩ | ⟨-, hfault | ⟨hsame, hcnt⟩⟩⟩ := step_busy_progress hh hb
    · exact absurd (hn.symm.trans hc) n.succ_ne_zero
    · have hidle : u.phase.busy = false := by rw [hfault]; rfl
      exact ⟨u, (run_succ (n + 1) s u hs).trans (run_idle hhost hidle (n + 1)), .inr hfault⟩
    · obtain ⟨t, hrun, hend⟩ := ih hhost (hsame ▸ hb) (by rw [hcnt, hn, Nat.add_sub_cancel])
      exact ⟨t, (run_succ (n + 1) s u hs).trans hrun, hend⟩

/-! ## The obligations -/

/-- Settles O40, by induction over CNT: `run_busy_completes`. -/
theorem everyCommandCompletes : Obligations.EveryCommandCompletes :=
  fun _ hh hb => run_busy_completes hh hb rfl

/-- Settles O51: the fields a reset writes, and `hardReset_congr` for those it does not read. -/
theorem resetValues : Obligations.ResetValues :=
  ⟨⟨rfl, rfl, rfl, rfl⟩, fun _ => ⟨rfl, rfl, rfl, rfl, fun _ => hardReset_congr⟩⟩

/-- Settles O52: the step that takes the reset (`step_reset`), field by field. -/
theorem resetInAnyPhase : Obligations.ResetInAnyPhase :=
  fun _ _ hh => ⟨_, step_reset hh, rfl, rfl, rfl, rfl, rfl, rfl, fun _ => rfl, fun _ => rfl⟩

end Sys2Proof.Machine
end
